-- ==== Sys2Proof/Word.lean ====
section
/-! DEFINITION. The machine's two plain word types: a byte of a buffer and the 64-bit scratch word (spec/00_scope.md R7, R9). -/

namespace Sys2Proof

/-- One byte of a buffer; bit 0 is its least significant bit (R9). -/
abbrev Byte := BitVec 8

/-- One scratch buffer seen as a number: scan bit `i` is numeric bit `i` (spec/20_memory.md R51). -/
abbrev Word64 := BitVec 64

end Sys2Proof
end

