-- ==== Sys2Proof/Config.lean ====
section
/-! DEFINITION. What an implementation fixes (spec/00_scope.md R7, R8), the closed sets of names the state and the
environment are made of, and the free values: constants without a body that stand for what the spec leaves open. -/

namespace Sys2Proof

/-- Engine variant, `VARIANT` (spec/10_state.md R29). Codes: 0 unthrottled, 1 throttled (spec/30_encoding.md R73). -/
inductive Variant where
  | unthrottled
  | throttled
  deriving DecidableEq, Repr, Inhabited

/-- The tier held in `TIER` (spec/30_encoding.md R74): no delay function, or one of the four calibrations.
Codes 5 to 7 are never produced (93 U25), so the type does not have them. -/
inductive Tier where
  | none
  | a
  | b
  | c
  | d
  deriving DecidableEq, Repr, Inhabited

/-- The sixteen states of a target's TAP controller (spec/45_tap_state_machine.md R191), in the order of their
reference numbers. PRESUMED for the five the source does not name: the spec gives them from general knowledge (G3). -/
inductive TapState where
  | testLogicReset
  | runTestIdle
  | selectDrScan
  | captureDr
  | shiftDr
  | exit1Dr
  | pauseDr
  | exit2Dr
  | updateDr
  | selectIrScan
  | captureIr
  | shiftIr
  | exit1Ir
  | pauseIr
  | exit2Ir
  | updateIr
  deriving DecidableEq, Repr, Inhabited

/-- The level latches of the five outputs and the direction of TDO (spec/10_state.md R36, R37). `true` is "high". -/
structure Lines where
  tck : Bool
  tms : Bool
  tdi : Bool
  srst : Bool
  trst : Bool
  /-- TDO is an input (R37: "TDO input"). -/
  tdoInput : Bool
  deriving DecidableEq, Repr, Inhabited

/-- A data register that can stand between TDI and TDO (spec/45_tap_state_machine.md R199). PRESUMED: the spec gives it from
general knowledge. -/
inductive DataRegister where
  /-- A bypass register, one bit. -/
  | bypass
  /-- The debug-port access register, 35 bits. -/
  | access
  /-- Any other register, of which R199 gives no fields. -/
  | other (width : Nat)
  deriving DecidableEq, Repr, Inhabited

/-- What a data register loads on the edge that leaves Capture-DR (R199). -/
inductive Captured where
  /-- "A bypass register is one bit and captures 0." -/
  | bypass
  /-- "On capture bits 2 to 0 are the acknowledge and bits 34 to 3 the read result." -/
  | access (ack : BitVec 3) (data : BitVec 32)
  /-- Any other register, with its bits, the first nearest TDO. -/
  | other (bits : List Bool)
  deriving DecidableEq, Repr, Inhabited

/-- A data register proper, as latched on the falling edge in Update-DR (R199). -/
inductive Latched where
  | bypass (bit : Bool)
  /-- "On update bit 0 is RnW, bits 2 to 1 are A[3:2] and bits 34 to 3 the write data." -/
  | access (rnw : Bool) (addr : BitVec 2) (data : BitVec 32)
  | other (bits : List Bool)
  deriving DecidableEq, Repr, Inhabited

/-- The standard target of spec/45_tap_state_machine.md R199. PRESUMED: the spec gives it from general knowledge.
A chain is a list of its bits, the head being `C[0]`, nearest TDO. -/
structure Target where
  /-- State of the TAP controller (R192). -/
  tap : TapState
  /-- The data registers selected between TDI and TDO at the last capture, the one nearest TDO first. -/
  drPath : List DataRegister
  /-- The data-register chain between TDI and TDO. -/
  drChain : List Bool
  /-- The instruction-register chain between TDI and TDO. -/
  irChain : List Bool
  /-- The data registers proper, latched from the chain in the last Update-DR, one for each register of `drPath`. DESIGN CHOICE,
  log 30: what a register not on that path last latched is not kept. -/
  drReg : List Latched
  /-- The instruction register proper, latched from the chain in Update-IR. -/
  irReg : List Bool
  /-- What the target drives on TDO since the last falling edge: `C[0]` in a Shift state, otherwise nothing the spec states. -/
  tdo : Option Bool
  deriving DecidableEq, Repr, Inhabited

/-- The open parameters of spec/00_scope.md R8 that a rule tests. A model takes them as arguments, so they stand in the
state; no instruction writes them, and every statement holds for every value of them. -/
structure Params where
  /-- `ACK_OK`, in logical order (spec/30_encoding.md R85, D5). The block never tests it. -/
  ackOk : BitVec 3
  /-- `ACK_WAIT`, in logical order (R85, D5). -/
  ackWait : BitVec 3
  /-- `DR_EXIT_OVERLAP` (spec/30_encoding.md R81, D6). -/
  drExitOverlap : Bool
  /-- `TIMESTAMP_ENABLED` (D19). -/
  timestampEnabled : Bool
  /-- `TIMESTAMP_BITS` (D19). -/
  timestampBits : Nat
  deriving DecidableEq, Repr, Inhabited

namespace Config

/-! ### Fixed parameters (R7) and the decided ones of R8 -/

/-- `SCRATCH_BITS` (R7). -/
def scratchBits : Nat := 64
/-- Bytes of one scratch buffer (R42: byte-addressed 0 to 7). -/
def scratchBytes : Nat := 8
/-- `HEADER_BITS` (R7). -/
def headerBits : Nat := 3
/-- `DATA_BITS` (R7). -/
def dataBits : Nat := 32
/-- `ACK_BITS` (R7). -/
def ackBits : Nat := 3
/-- `IR_NAV_BITS` (R7). -/
def irNavBits : Nat := 4
/-- `DR_NAV_BITS` (R7). -/
def drNavBits : Nat := 3
/-- `HEAD_BITS` (R7). -/
def headBits : Nat := 8
/-- `DR_FIXED_BITS` (R7). -/
def drFixedBits : Nat := 41
/-- `IR_FIXED_BITS` (R7). -/
def irFixedBits : Nat := 6
/-- `FILL` (R8): the value of every frame bit no sentence sets. The spec's decision D3. -/
def fill : Bool := false
/-- `IR_OPERAND_BITS` (R8). The spec's decision D14. -/
def irOperandBits : Nat := 32
/-- `RAW_MAX_BITS` (R8). The spec's decision D8. -/
def rawMaxBits : Nat := 64
/-- `REQ_RNW` (R8): the request bit that gives the direction, 1 meaning read. The spec's decision D4. -/
def reqRnw : Nat := 0

/-! ### Implementation constants nothing is assumed of (D13, D19) -/

/-- `BUS_CLOCK_HZ` (R8, OPEN). Log 17. -/
opaque busClockHz : Nat
/-- `DelayTicks(bus_clock, f_kHz)` (R8, OPEN; R30). Log 17. -/
opaque delayTicks : Nat → Nat → Nat
/-- `TIMESTAMP_ENABLED` of the machine that reset starts (R8, OPEN). Log 5. -/
opaque timestampEnabled : Bool
/-- `TIMESTAMP_BITS` of the machine that reset starts (R8, OPEN). Log 5. -/
opaque timestampBits : Nat

/-! ### Free values, each applied to the draw counter of the state -/

/-- A level of TDO that nothing in the state fixes (D29, U24). Log 6. -/
opaque freeSample : Nat → Bool
/-- A reading of `Ticks()`, or the "any value" of GET_TIMESTAMP (D19, U13). Logs 7 and 8. -/
opaque freeTick : Nat → Nat
/-- The line levels while the block does not drive them (U6, U14). Log 9. -/
opaque freeLines : Nat → Lines
/-- The target after something outside the rules may have clocked it (R184, R232, R239). Log 11. -/
opaque freeTarget : Nat → Target
/-- What the data registers of the target capture when the state gives nothing (R199). Log 10. -/
opaque freeCapture : Nat → List Captured
/-- What the instruction chain of the target captures when the state gives nothing (R199). Log 10. -/
opaque freeIrCapture : Nat → List Bool
/-- Byte `k` of a fresh `S_TDO`, which holds no value (R23, U12). Log 13. -/
opaque freeByte : Nat → Nat → Byte

end Config

end Sys2Proof
end

