-- ==== Sys2Proof/Machine/Operands.lean ====
section
/-! DEFINITION. Every operand form: byte buffers as bits and as numbers (spec/00_scope.md R9, R10), the frame lengths
(spec/30_encoding.md R77, R79), the split-shift arguments (R87), the direction bit (R83), the TDO windows (R86). -/

namespace Sys2Proof.Machine

/-- `ceil(n / 8)`, the bytes a buffer of `n` bits takes (R72). -/
def byteCount (n : Nat) : Nat := (n + 7) / 8

/-- The number a buffer is written as: the sum of `B[i] * 2^i` (R9). -/
def bufNat : List Byte → Nat
  | [] => 0
  | b :: rest => b.toNat + 256 * bufNat rest

/-- `B[i]`: bit `i mod 8` of byte `i div 8` (R9); a bit past the end reads 0 and no rule reads one. -/
def bufBit (buf : List Byte) (i : Nat) : Bool := (buf.getD (i / 8) 0).getLsbD (i % 8)

/-- The number whose bit `j` is the `j`-th of the list (R10). -/
def bitsNat : List Bool → Nat
  | [] => 0
  | b :: rest => b.toNat + 2 * bitsNat rest

/-- `B[lo + w - 1 : lo]`, the `w` bit number whose bit `j` is `B[lo + j]` (R10). -/
def bufSlice (buf : List Byte) (lo w : Nat) : BitVec w :=
  BitVec.ofNat w (bitsNat ((List.range w).map fun j => bufBit buf (lo + j)))

/-- The 4 byte little-endian image of a 32-bit value (spec/20_memory.md R52). -/
def leBytes32 (v : BitVec 32) : List Byte :=
  [v.extractLsb' 0 8, v.extractLsb' 8 8, v.extractLsb' 16 8, v.extractLsb' 24 8]

/-- `MemWrite(out, 0, 4, v)` (R11): the first four bytes are the image of `v`, any further bytes stay. -/
def writeOut (out : List Byte) (v : BitVec 32) : List Byte := leBytes32 v ++ out.drop 4

/-- A buffer holds the bits of a shift of `n` bits: it has at least `ceil(n / 8)` bytes (spec/41_shift_engine.md R119). -/
def bufferHolds (n : Nat) (buf : List Byte) : Bool := byteCount n ≤ buf.length

/-- A caller's buffer of a shift of `n` bits: exactly `ceil(n / 8)` bytes (spec/30_encoding.md R72). -/
def bufferExact (n : Nat) (buf : List Byte) : Bool := buf.length = byteCount n

/-- `T_IR = 6 + bb + L + ba` (R77). -/
def irLength (registerLength bypassBefore bypassAfter : Nat) : Nat :=
  Config.irFixedBits + bypassBefore + registerLength + bypassAfter

/-- `T_DR = 41 + db + da + ic` (R79). -/
def drLength (drBefore drAfter idleCycles : Nat) : Nat :=
  Config.drFixedBits + drBefore + drAfter + idleCycles

/-- Bits a split shift clocks: `8 + 8 m + t` (spec/41_shift_engine.md R121). -/
def splitLength (byteCountBulk tailBitCount : Nat) : Nat := Config.headBits + 8 * byteCountBulk + tailBitCount

/-- `byte_count_bulk = (T_DR - 8) div 8` (R87). -/
def bulkBytes (total : Nat) : Nat := (total - Config.headBits) / 8

/-- `tail_bit_count = (T_DR - 8) mod 8` (R87). -/
def tailBits (total : Nat) : Nat := (total - Config.headBits) % 8

/-- The request is a read: `req[REQ_RNW] = 1` (R83). -/
def isRead (request : BitVec 3) : Bool := request.getLsbD Config.reqRnw

/-- `ACK_OFFSET = dr_before + 3` (R7). -/
def ackOffset (drBefore : Nat) : Nat := drBefore + Config.drNavBits

/-- `DATA_OFFSET = dr_before + 6` (R7). -/
def dataOffset (drBefore : Nat) : Nat := drBefore + Config.drNavBits + Config.headerBits

/-- The raw acknowledge `S_TDO[db+5 : db+3]` (spec/43_dr_transfer.md R161). -/
def rawAckWindow (tdo : List Byte) (drBefore : Nat) : BitVec 3 := bufSlice tdo (ackOffset drBefore) 3

/-- The read data `S_TDO[db+37 : db+6]` (R166). -/
def dataWindow (tdo : List Byte) (drBefore : Nat) : BitVec 32 := bufSlice tdo (dataOffset drBefore) 32

/-- The domain of `out`: "absent or exactly 4 bytes" (spec/92_eei_decisions.md D22, spec/30_encoding.md R72). -/
def outBufferOk : Option (List Byte) → Bool
  | none => true
  | some bytes => bytes.length = 4

end Sys2Proof.Machine
end

