-- ==== Sys2Proof/Machine/Flags.lean ====
section
/-! DEFINITION. The one condition code, the acknowledge `ACK` (spec/10_state.md R26): its reorder from wire order to logical
order (spec/43_dr_transfer.md R162) and the retry test (R163). The block has no other flag. -/

namespace Sys2Proof.Machine

/-- `(raw & 4) | ((raw & 2) >> 1) | ((raw & 1) << 1)`: bit 2 stays, bits 0 and 1 swap (R162). -/
def ackReorder (raw : BitVec 3) : BitVec 3 :=
  (raw &&& 4) ||| ((raw &&& 2) >>> 1) ||| ((raw &&& 1) <<< 1)

/-- The code a scan gives: the raw window, reordered (R161, R162). -/
def decodeAck (tdo : List Byte) (drBefore : Nat) : BitVec 3 := ackReorder (rawAckWindow tdo drBefore)

/-- The retry test: the reordered code equals `ACK_WAIT` (R163). Nothing else takes part. -/
def isWait (params : Params) (ack : BitVec 3) : Bool := ack == params.ackWait

end Sys2Proof.Machine
end

