-- ==== Sys2Proof/Syntax.lean ====
section
/-! DEFINITION. The instructions: one constructor per row of spec/opcode_table.json, with the operands of
spec/30_encoding.md R72 and spec/41_shift_engine.md R119 to R122. -/

namespace Sys2Proof

/-- The eight boundary operations (CMD) and the four engine entry points (ENG). -/
inductive Instr where
  /-- INIT (spec/44_system_ops.md R181). -/
  | init
  /-- FINI (R182). -/
  | fini
  /-- RECONFIGURE_IO (R183). -/
  | reconfigureIo
  /-- CONFIGURE (spec/40_speed_profile.md R101). -/
  | configure (frequencyKHz retryLimit idleCycles : Nat)
  /-- RAW_SHIFT (spec/41_shift_engine.md R124). -/
  | rawShift (bitCount : Nat) (tms tdi : List Byte)
  /-- LOAD_INSTRUCTION (spec/42_ir_scan.md R142). -/
  | loadInstruction (instruction : BitVec 32) (registerLength bypassBefore bypassAfter : Nat)
  /-- TRANSFER (spec/43_dr_transfer.md R156). `out` is absent or the caller's buffer with its present content. -/
  | transfer (request : BitVec 3) (value : BitVec 32) (drBefore drAfter : Nat) (out : Option (List Byte))
  /-- GET_TIMESTAMP (spec/44_system_ops.md R185). -/
  | getTimestamp
  /-- SHIFT.U (spec/41_shift_engine.md R119). -/
  | shiftU (bitCount : Nat) (tms tdi : List Byte)
  /-- SHIFT.T (R120). -/
  | shiftT (bitCount : Nat) (tms tdi : List Byte)
  /-- SHIFT_DR.U (R121). -/
  | shiftDrU (byteCountBulk tailBitCount : Nat) (tms tdi : List Byte)
  /-- SHIFT_DR.T (R122). -/
  | shiftDrT (byteCountBulk tailBitCount : Nat) (tms tdi : List Byte)
  deriving DecidableEq, Repr

end Sys2Proof
end

