-- ==== Sys2Proof/WellFormed.lean ====
section
/-! DEFINITION. The operand domains of spec/30_encoding.md R72, R77, R79 and spec/41_shift_engine.md R119, R121, with the 64
bits of spec/10_state.md R46, as far as they are about the instruction alone. (The idle cycles that enter a DR frame are in the profile: R158 is checked when it runs.) -/

namespace Sys2Proof

open Machine

/-- Both input buffers of a shift of `n` bits are long enough (R119). -/
def buffersHold (n : Nat) (tms tdi : List Byte) : Bool := bufferHolds n tms && bufferHolds n tdi

/-- Both buffers of a RAW_SHIFT of `n` bits have exactly the bytes it takes (R72). -/
def buffersExact (n : Nat) (tms tdi : List Byte) : Bool := bufferExact n tms && bufferExact n tdi

/-- The instruction's operands are in the domain the spec gives. -/
def Instr.wf : Instr → Bool
  | .init => true
  | .fini => true
  | .reconfigureIo => true
  | .configure _ _ _ => true
  | .rawShift n tms tdi => 1 ≤ n && n ≤ Config.rawMaxBits && buffersExact n tms tdi
  | .loadInstruction _ len bb ba =>
    1 ≤ len && len ≤ Config.irOperandBits && irLength len bb ba ≤ Config.scratchBits
  | .transfer _ _ db da out => drLength db da 0 ≤ Config.scratchBits && outBufferOk out
  | .getTimestamp => true
  | .shiftU n tms tdi => 1 ≤ n && n ≤ Config.scratchBits && buffersHold n tms tdi
  | .shiftT n tms tdi => 1 ≤ n && n ≤ Config.scratchBits && buffersHold n tms tdi
  | .shiftDrU m t tms tdi => t < 8 && splitLength m t ≤ Config.scratchBits && buffersHold (splitLength m t) tms tdi
  | .shiftDrT m t tms tdi => t < 8 && splitLength m t ≤ Config.scratchBits && buffersHold (splitLength m t) tms tdi

end Sys2Proof
end

