-- ==== Sys2Proof/Decode.lean ====
section
/-! DEFINITION. Decoding an issued command and encoding an instruction: the CMD and ENG formats of spec/30_encoding.md R71, R72,
R73. The code is 4 bits (CMD) or 2 bits (ENG); the operands stand beside it on named ports. -/

namespace Sys2Proof

/-- The operand ports of the command port, all of them, each of the width R72 gives. -/
structure CmdPorts where
  frequencyKHz : Nat
  retryLimit : Nat
  idleCycles : Nat
  bitCount : Nat
  tms : List Byte
  tdi : List Byte
  instruction : BitVec 32
  registerLength : Nat
  bypassBefore : Nat
  bypassAfter : Nat
  request : BitVec 3
  value : BitVec 32
  drBefore : Nat
  drAfter : Nat
  out : Option (List Byte)
  deriving DecidableEq, Repr

/-- The operands of the engine entry points (spec/41_shift_engine.md R119, R121). -/
structure EngPorts where
  bitCount : Nat
  byteCountBulk : Nat
  tailBitCount : Nat
  tms : List Byte
  tdi : List Byte
  deriving DecidableEq, Repr

/-- What is presented to the block: a CMD code `op[3:0]` with the operand ports (R71), or an ENG select `sel[1:0]` with the
engine's operands (R73). -/
inductive IssueWord where
  | cmd (op : BitVec 4) (ports : CmdPorts)
  | eng (sel : BitVec 2) (ports : EngPorts)
  deriving DecidableEq, Repr

/-- Why a code is rejected. -/
inductive DecodeError where
  /-- CMD codes 8 to 15 select nothing (R89, D31). Safe: nothing is claimed of them. -/
  | reservedOpcode (op : BitVec 4)
  deriving DecidableEq, Repr

/-- All operand ports at zero. -/
def cmdPortsZero : CmdPorts where
  frequencyKHz := 0
  retryLimit := 0
  idleCycles := 0
  bitCount := 0
  tms := []
  tdi := []
  instruction := 0
  registerLength := 0
  bypassBefore := 0
  bypassAfter := 0
  request := 0
  value := 0
  drBefore := 0
  drAfter := 0
  out := none

/-- All engine operands at zero. -/
def engPortsZero : EngPorts where
  bitCount := 0
  byteCountBulk := 0
  tailBitCount := 0
  tms := []
  tdi := []

/-- The operation a CMD code selects (the table of R71). -/
def decodeCmd (op : BitVec 4) (p : CmdPorts) : Except DecodeError Instr :=
  match op.toNat with
  | 0 => .ok .init
  | 1 => .ok .fini
  | 2 => .ok .reconfigureIo
  | 3 => .ok (.configure p.frequencyKHz p.retryLimit p.idleCycles)
  | 4 => .ok (.rawShift p.bitCount p.tms p.tdi)
  | 5 => .ok (.loadInstruction p.instruction p.registerLength p.bypassBefore p.bypassAfter)
  | 6 => .ok (.transfer p.request p.value p.drBefore p.drAfter p.out)
  | 7 => .ok .getTimestamp
  | _ => .error (.reservedOpcode op)

/-- The entry point an ENG select names: `sel[1]` is the shape (1 split), `sel[0]` the variant (1 throttled) (R73). -/
def decodeEng (sel : BitVec 2) (p : EngPorts) : Instr :=
  match sel.getLsbD 1, sel.getLsbD 0 with
  | false, false => .shiftU p.bitCount p.tms p.tdi
  | false, true => .shiftT p.bitCount p.tms p.tdi
  | true, false => .shiftDrU p.byteCountBulk p.tailBitCount p.tms p.tdi
  | true, true => .shiftDrT p.byteCountBulk p.tailBitCount p.tms p.tdi

/-- The decoder, total on every code with every operand. -/
def decode : IssueWord → Except DecodeError Instr
  | .cmd op p => decodeCmd op p
  | .eng sel p => .ok (decodeEng sel p)

/-- The command that issues an instruction, ports it does not use at zero (R71, R72, R73). -/
def encode : Instr → IssueWord
  | .init => .cmd 0 cmdPortsZero
  | .fini => .cmd 1 cmdPortsZero
  | .reconfigureIo => .cmd 2 cmdPortsZero
  | .configure f r c => .cmd 3 { cmdPortsZero with frequencyKHz := f, retryLimit := r, idleCycles := c }
  | .rawShift n tms tdi => .cmd 4 { cmdPortsZero with bitCount := n, tms := tms, tdi := tdi }
  | .loadInstruction i len bb ba =>
    .cmd 5 { cmdPortsZero with instruction := i, registerLength := len, bypassBefore := bb, bypassAfter := ba }
  | .transfer req w db da out =>
    .cmd 6 { cmdPortsZero with request := req, value := w, drBefore := db, drAfter := da, out := out }
  | .getTimestamp => .cmd 7 cmdPortsZero
  | .shiftU n tms tdi => .eng 0 { engPortsZero with bitCount := n, tms := tms, tdi := tdi }
  | .shiftT n tms tdi => .eng 1 { engPortsZero with bitCount := n, tms := tms, tdi := tdi }
  | .shiftDrU m t tms tdi => .eng 2 { engPortsZero with byteCountBulk := m, tailBitCount := t, tms := tms, tdi := tdi }
  | .shiftDrT m t tms tdi => .eng 3 { engPortsZero with byteCountBulk := m, tailBitCount := t, tms := tms, tdi := tdi }

/-- The issue word of a table word of `nbits` bits with zero operands: a 2-bit word is an ENG select (spec/opcode_table.json
gives ENG rows width 2), any other width is the 4-bit code of the command port, whose further bits are not connected. Log 2. -/
def tableIssue (nbits w : Nat) : IssueWord :=
  if nbits = 2 then .eng (BitVec.ofNat 2 w) engPortsZero else .cmd (BitVec.ofNat 4 w) cmdPortsZero

/-- What the decoder reads from a table word; none where it rejects. -/
def decodeTableWord (nbits w : Nat) : Option Instr :=
  match decode (tableIssue nbits w) with
  | .ok i => some i
  | .error _ => none

end Sys2Proof
end

