-- ==== Sys2Proof/Machine/State.lean ====
section
/-! DEFINITION. The state: everything spec/10_state.md R46 lists, the command and result ports (spec/30_encoding.md R71, R72), the
pin trace (spec/00_scope.md R12), the open parameters (R8) and the environment (D29, spec/45_tap_state_machine.md). Plain data. -/

namespace Sys2Proof.Machine

/-- One event on the pins (spec/00_scope.md R12). -/
inductive PinEvent where
  /-- `Drive(tdi, tms)`, one event (D26). -/
  | drive (tdi tms : Bool)
  /-- `TCK <- level`. -/
  | tck (level : Bool)
  /-- `Wait(WaitFn(tier), ticks)`; with tier none it lasts no time (D12). -/
  | wait (tier : Tier) (ticks : Nat)
  /-- `Sample()` and the level it returned. -/
  | sample (level : Bool)
  /-- The six lines take their idle levels and directions, one event (spec/44_system_ops.md R183, D26). -/
  | idle
  deriving DecidableEq, Repr

/-- What the result ports hold after an operation (spec/30_encoding.md R72). -/
inductive Result where
  /-- The operation returns nothing. -/
  | nothing
  /-- The `tdo` byte buffer of a shift. -/
  | tdo (bytes : List Byte)
  /-- `ack_code` of a TRANSFER, and the caller's `out` buffer as the TRANSFER leaves it. -/
  | ack (code : BitVec 3) (out : Option (List Byte))
  /-- `ticks` of GET_TIMESTAMP. -/
  | ticks (value : Nat)
  deriving DecidableEq, Repr

/-- The speed profile (spec/10_state.md R27): P0 to P5. -/
structure Profile where
  /-- `CFG_VALID` (R28). -/
  cfgValid : Bool
  /-- `VARIANT` (R29). -/
  variant : Variant
  /-- `TIER` (R29). -/
  tier : Tier
  /-- `DELAY_TICKS` (R30). -/
  delayTicks : Nat
  /-- `IDLE_CYCLES` (R31). -/
  idleCycles : Nat
  /-- `RETRY_LIMIT` (R31). -/
  retryLimit : Nat
  deriving DecidableEq, Repr

/-- The scratch triplet (R22). -/
structure Scratch where
  /-- `S_TMS`. -/
  tms : Word64
  /-- `S_TDI`. -/
  tdi : Word64
  /-- `S_TDO`, as its 8 bytes: the shift engine writes it byte by byte (spec/20_memory.md R55). -/
  tdo : List Byte
  deriving DecidableEq, Repr

/-- The working registers of the shift engine (R32, R33) and the bytes it has written so far. -/
structure EngineRegs where
  /-- `SR_TMS`, a buffer written as a number (R9): it is as wide as the input buffer. -/
  srTms : Nat
  /-- `SR_TDI`. -/
  srTdi : Nat
  /-- `ACC`. -/
  acc : Byte
  /-- `BITCNT`. -/
  bitCnt : Nat
  /-- The engine's `tdo`: the bytes written in this shift, byte 0 first (spec/41_shift_engine.md R118). -/
  tdo : List Byte
  deriving DecidableEq, Repr

/-- The registers of the retry controller (R26, R34). -/
structure RetryRegs where
  /-- `ATTEMPT`. -/
  attempt : Nat
  /-- `ACK`. -/
  ack : BitVec 3
  deriving DecidableEq, Repr

/-- What is wired to TDO (D29). -/
inductive TdoSource where
  /-- Anything: the answers of `Env.answers`, then free values. -/
  | oracle
  /-- TDO wired to TDI (spec/41_shift_engine.md R127). -/
  | loopback
  /-- The standard target of `Env.target` (spec/45_tap_state_machine.md R199). -/
  | target
  deriving DecidableEq, Repr

/-- The environment (spec/10_state.md R35, R43): not state of the block. -/
structure Env where
  /-- What answers `Sample()`. -/
  source : TdoSource
  /-- The oracle's answers to come, the next one first. -/
  answers : List Bool
  /-- The readings of `Ticks()` to come, the next one first (D19). -/
  ticks : List Nat
  /-- What the target's selected data registers capture, the next capture first, within one the register nearest TDO first. -/
  drCaptures : List (List Captured)
  /-- The values the target's instruction chain captures, the next one first. -/
  irCaptures : List (List Bool)
  /-- A standard target on the lines. -/
  target : Target
  deriving DecidableEq, Repr

/-- What the host does next (spec/60_exceptions.md R220). -/
inductive HostEvent where
  /-- It issues an operation (R71). -/
  | issue (word : IssueWord)
  /-- It uses the lines for another protocol (spec/44_system_ops.md R184). -/
  | repurpose
  deriving DecidableEq, Repr

/-- The state of the block, its ports and its environment. -/
structure State where
  params : Params
  profile : Profile
  /-- `LINES_OWNED` (R38). -/
  linesOwned : Bool
  /-- The host has put the lines to another use since they last took their idle levels (spec/44_system_ops.md R184). -/
  repurposed : Bool
  lines : Lines
  /-- `TS` (R40). -/
  ts : Nat
  /-- The model's own: a TRANSFER has written `TS`. Log 8. -/
  tsCaptured : Bool
  scratch : Scratch
  engine : EngineRegs
  retry : RetryRegs
  env : Env
  /-- The model's own: how many free values have been drawn. Log 6. -/
  draws : Nat
  /-- Every pin event since reset, oldest first. -/
  trace : List PinEvent
  /-- The host's events to come, the next one first. Log 1. -/
  queue : List HostEvent
  /-- The result ports. -/
  result : Result
  deriving DecidableEq, Repr

/-- The block has no fault mechanism: "The word fault applies to nothing here" (93 Part 1, spec/60_exceptions.md R210). So there
is no fault, and nobody raises one. -/
inductive Fault where
  deriving DecidableEq, Repr

/-- Why an operation is given no meaning. Every one is raised before the operation's first pin event (spec/60_exceptions.md R213)
and is safe: the model stops where the source leaves the behaviour undefined. -/
inductive Refusal where
  /-- An instruction without a meaning in this model, raised by `exec`'s arm. None is left. Safe. -/
  | notModelled (mnemonic : String)
  /-- Raised by every scan while `CFG_VALID` = 0 (R213, D9). Safe. -/
  | notConfigured
  /-- Raised by every scan and by RECONFIGURE_IO while `LINES_OWNED` = 0, and by a scan on repurposed lines (R213, D10). Safe. -/
  | linesNotOwned
  /-- Raised by LOAD_INSTRUCTION and TRANSFER when the frame is longer than the 64-bit scratch (R213, U1). Safe. -/
  | frameTooLong
  /-- Raised by LOAD_INSTRUCTION when `register_length` is 0 or above 32 (R213, D14). Safe. -/
  | badRegisterLength
  /-- Raised by RAW_SHIFT when `bit_count` is 0 or above 64 (R213, R126, D8), by SHIFT.U and SHIFT.T likewise (R119, R46; logs 15, 28),
  and by a split shift of more than 64 bits (R46; log 28). Safe. -/
  | badBitCount
  /-- Raised by TRANSFER when `out` is present and not of exactly 4 bytes (R213, R89, D22; log 14). Safe. -/
  | badOutBuffer
  /-- Raised by RAW_SHIFT when an input buffer is not of exactly `ceil(bit_count / 8)` bytes (spec/30_encoding.md R72, R89), and by an
  engine entry when one is shorter than its bits (spec/41_shift_engine.md R119, R121). Log 14. Safe. -/
  | badBuffer
  /-- Raised by a split shift with a tail of 8 bits or more: outside the domain of R121 (R89). Safe. -/
  | badTailCount
  /-- Raised by `step` for CMD codes 8 to 15 (R213, D31). Safe. -/
  | reservedOpcode
  deriving DecidableEq, Repr

/-- The machine right after reset (spec/10_state.md R44, spec/70_reset_and_hazards.md R230): `CFG_VALID` = 0 and
`LINES_OWNED` = 0. DESIGN CHOICE for every other field, whose value the spec leaves unspecified: log 4 (zeros), log 5 (the open
parameters: the spec's default codes, PRESUMED), log 10 (the target). No rule reads one of them before it is written. -/
def State.reset : State where
  params :=
    { ackOk := 1, ackWait := 2, drExitOverlap := false,
      timestampEnabled := Config.timestampEnabled, timestampBits := Config.timestampBits }
  profile := { cfgValid := false, variant := .unthrottled, tier := .none, delayTicks := 0, idleCycles := 0, retryLimit := 0 }
  linesOwned := false
  repurposed := false
  lines := { tck := false, tms := false, tdi := false, srst := false, trst := false, tdoInput := false }
  ts := 0
  tsCaptured := false
  scratch := { tms := 0, tdi := 0, tdo := [0, 0, 0, 0, 0, 0, 0, 0] }
  engine := { srTms := 0, srTdi := 0, acc := 0, bitCnt := 0, tdo := [] }
  retry := { attempt := 0, ack := 0 }
  env :=
    { source := .oracle, answers := [], ticks := [], drCaptures := [], irCaptures := [],
      target := { tap := .testLogicReset, drPath := [], drChain := [], irChain := [], drReg := [], irReg := [], tdo := none } }
  draws := 0
  trace := []
  queue := []
  result := .nothing

end Sys2Proof.Machine
end

