-- ==== Sys2Proof/Machine/Tap.lean ====
section
/-! DEFINITION. The target's side: the TAP controller and the standard target of spec/45_tap_state_machine.md. It is the
environment (R35), never state of the block. PRESUMED throughout where the spec marks it from general knowledge (G3 to G6): log 10. -/

namespace Sys2Proof.Machine

/-- `next(s, tms)`, the table of R194. -/
def tapNext (s : TapState) (tms : Bool) : TapState :=
  match s, tms with
  | .testLogicReset, false => .runTestIdle
  | .testLogicReset, true => .testLogicReset
  | .runTestIdle, false => .runTestIdle
  | .runTestIdle, true => .selectDrScan
  | .selectDrScan, false => .captureDr
  | .selectDrScan, true => .selectIrScan
  | .captureDr, false => .shiftDr
  | .captureDr, true => .exit1Dr
  | .shiftDr, false => .shiftDr
  | .shiftDr, true => .exit1Dr
  | .exit1Dr, false => .pauseDr
  | .exit1Dr, true => .updateDr
  | .pauseDr, false => .pauseDr
  | .pauseDr, true => .exit2Dr
  | .exit2Dr, false => .shiftDr
  | .exit2Dr, true => .updateDr
  | .updateDr, false => .runTestIdle
  | .updateDr, true => .selectDrScan
  | .selectIrScan, false => .captureIr
  | .selectIrScan, true => .testLogicReset
  | .captureIr, false => .shiftIr
  | .captureIr, true => .exit1Ir
  | .shiftIr, false => .shiftIr
  | .shiftIr, true => .exit1Ir
  | .exit1Ir, false => .pauseIr
  | .exit1Ir, true => .updateIr
  | .pauseIr, false => .pauseIr
  | .pauseIr, true => .exit2Ir
  | .exit2Ir, false => .shiftIr
  | .exit2Ir, true => .updateIr
  | .updateIr, false => .runTestIdle
  | .updateIr, true => .selectDrScan

/-- The states entered along a TMS string (R195): `walk(s0, t)`. -/
def tapWalk : TapState → List Bool → List TapState
  | _, [] => []
  | s, t :: rest => tapNext s t :: tapWalk (tapNext s t) rest

/-- The state at the end of a walk. -/
def tapAfter (s : TapState) (tms : List Bool) : TapState := tms.foldl tapNext s

/-- The register selected shifts on a rising edge taken in this state (R195). -/
def isShiftState (s : TapState) : Bool := s == .shiftDr || s == .shiftIr

/-- The number of rising edges of a walk taken in a Shift state (R195). -/
def shiftEdges : TapState → List Bool → Nat
  | _, [] => 0
  | s, t :: rest => (isShiftState s).toNat + shiftEdges (tapNext s t) rest

/-- `C <- (TDI, C[N-1:1])` (R199): the bit nearest TDO leaves, TDI enters at the far end. -/
def chainShift (chain : List Bool) (tdi : Bool) : List Bool :=
  match chain with
  | [] => []
  | _ :: rest => rest ++ [tdi]

/-! ### The data registers between TDI and TDO (R199) -/

/-- The register that captured this. -/
def registerOf : Captured → DataRegister
  | .bypass => .bypass
  | .access _ _ => .access
  | .other bits => .other bits.length

/-- Its width in bits. -/
def registerWidth : DataRegister → Nat
  | .bypass => 1
  | .access => Config.ackBits + Config.dataBits
  | .other width => width

/-- The bits a register captures, bit 0 first: a bypass register 0, the access register the acknowledge and then the data. -/
def capturedBits : Captured → List Bool
  | .bypass => [false]
  | .access ack data => (List.range Config.ackBits).map ack.getLsbD ++ (List.range Config.dataBits).map data.getLsbD
  | .other bits => bits

/-- The chain the registers of a path make, `C[0]` first. -/
def pathBits (path : List Captured) : List Bool := path.flatMap capturedBits

/-- What a register latches from the chain bits at its place: of the access register RnW, A[3:2] and the write data. -/
def latchRegister (r : DataRegister) (chain : List Bool) : Latched :=
  match r with
  | .bypass => .bypass (chain.getD 0 false)
  | .access =>
    .access (chain.getD 0 false) (BitVec.ofNat 2 (bitsNat ((List.range 2).map fun j => chain.getD (1 + j) false)))
      (BitVec.ofNat 32 (bitsNat ((List.range 32).map fun j => chain.getD (3 + j) false)))
  | .other width => .other (chain.take width)

/-- What the registers of a path latch from the chain. -/
def latchPath : List DataRegister → List Bool → List Latched
  | [], _ => []
  | r :: rest, chain => latchRegister r chain :: latchPath rest (chain.drop (registerWidth r))

/-- Which data registers are selected and what they capture: the next capture the environment holds, or a free one. Log 10. -/
def drCapture (captures : List (List Captured)) (draw : Nat) : List Captured :=
  match captures with
  | [] => Config.freeCapture draw
  | path :: _ => path

/-- What the instruction chain captures: the next value the environment holds, or a free one. Log 10. -/
def irCapture (captures : List (List Bool)) (draw : Nat) : List Bool :=
  match captures with
  | [] => Config.freeIrCapture draw
  | value :: _ => value

/-! ### The edges of TCK -/

/-- The target on a rising edge of TCK (R192, R199): a chain loads on the edge that leaves its Capture state and shifts on
an edge taken in its Shift state; then the controller moves by the level of TMS. DESIGN CHOICE, log 29: entering or being in
Test-Logic-Reset leaves the chains and the selected path alone. -/
def targetRise (tms tdi : Bool) (draw : Nat) (e : Env) : Target :=
  { e.target with
    drPath :=
      if e.target.tap = .captureDr then (drCapture e.drCaptures draw).map registerOf else e.target.drPath
    drChain :=
      if e.target.tap = .captureDr then pathBits (drCapture e.drCaptures draw)
      else if e.target.tap = .shiftDr then chainShift e.target.drChain tdi
      else e.target.drChain
    irChain :=
      if e.target.tap = .captureIr then irCapture e.irCaptures draw
      else if e.target.tap = .shiftIr then chainShift e.target.irChain tdi
      else e.target.irChain
    tap := tapNext e.target.tap tms }

/-- The environment on a rising edge: the target moves, and a captured value is used up. -/
def envRise (tms tdi : Bool) (draw : Nat) (e : Env) : Env :=
  { e with
    drCaptures := if e.target.tap = .captureDr then e.drCaptures.tail else e.drCaptures
    irCaptures := if e.target.tap = .captureIr then e.irCaptures.tail else e.irCaptures
    target := targetRise tms tdi draw e }

/-- A capture on this rising edge draws a free value: its list of captured values is used up. -/
def captureDraws (e : Env) : Bool :=
  (e.target.tap == .captureDr && e.drCaptures.isEmpty) || (e.target.tap == .captureIr && e.irCaptures.isEmpty)

/-- The target on a falling edge of TCK (R199): in a Shift state TDO shows `C[0]`, in an Update state the chain is
latched into the registers proper. DESIGN CHOICE: Test-Logic-Reset leaves the registers alone (log 29), and an Update-DR
replaces the whole list, so the registers of an earlier path are not kept (log 30). -/
def targetFall (t : Target) : Target :=
  { t with
    tdo :=
      if t.tap = .shiftDr then t.drChain.head?
      else if t.tap = .shiftIr then t.irChain.head?
      else none
    drReg := if t.tap = .updateDr then latchPath t.drPath t.drChain else t.drReg
    irReg := if t.tap = .updateIr then t.irChain else t.irReg }

/-- The environment on a falling edge. -/
def envFall (e : Env) : Env := { e with target := targetFall e.target }

end Sys2Proof.Machine
end

