-- ==== Sys2Proof/Machine/Ops.lean ====
section
/-! DEFINITION. The named operations over the lines, the ports and the scratch that every meaning is built from:
the pin primitives of spec/00_scope.md R12, the idle and unspecified line levels (spec/10_state.md R37, spec/44_system_ops.md
R182 to R184), fresh scratch (R23), the tick snapshot (R168), the checks made before a scan (spec/60_exceptions.md R213), and taking
the host's next event. The block takes no exception (R210, R216), so there is no exception entry and no return from one. -/

namespace Sys2Proof.Machine

/-! ### Results -/

/-- The operation ends with this result on the result ports (R13, R72). -/
def setResult (r : Result) (s : State) : State := { s with result := r }

/-! ### Pin primitives (R12) -/

/-- `Drive(tdi, tms)`: both levels, one event. -/
def drive (tdi tms : Bool) (s : State) : State :=
  { s with lines := { s.lines with tdi := tdi, tms := tms }, trace := s.trace ++ [.drive tdi tms] }

/-- `TCK <- 0`. The environment sees a falling edge if TCK was high (R57). -/
def tckLow (s : State) : State :=
  { s with
    lines := { s.lines with tck := false }
    env := if s.lines.tck then envFall s.env else s.env
    trace := s.trace ++ [.tck false] }

/-- `TCK <- 1`. The environment sees a rising edge if TCK was low (R57). -/
def tckHigh (s : State) : State :=
  { s with
    lines := { s.lines with tck := true }
    env := if s.lines.tck then s.env else envRise s.lines.tms s.lines.tdi s.draws s.env
    draws := if s.lines.tck then s.draws else s.draws + (captureDraws s.env).toNat
    trace := s.trace ++ [.tck true] }

/-- The `Wait` events at one place of a bit cycle: none at all in the unthrottled variant, one in the throttled variant, with
the function and tick count of the profile (spec/41_shift_engine.md R116; with `TIER` = 0 it lasts no time, D12). -/
def waitEvents (v : Variant) (p : Profile) : List PinEvent :=
  match v with
  | .unthrottled => []
  | .throttled => [.wait p.tier p.delayTicks]

/-- `if throttled: Wait(WaitFn(x[TIER]), x[DELAY_TICKS])`: it changes no state, and the event is on the trace (R12). -/
def waitTicks (v : Variant) (s : State) : State := { s with trace := s.trace ++ waitEvents v s.profile }

/-- The level `Sample()` returns: the environment's answer (D29). -/
def tdoLevel (s : State) : Bool :=
  match s.env.source with
  | .oracle => s.env.answers.headD (Config.freeSample s.draws)
  | .loopback => s.lines.tdi
  | .target => s.env.target.tdo.getD (Config.freeSample s.draws)

/-- `Sample()` draws a free value: nothing in the state fixes the level. -/
def sampleDraws (s : State) : Bool :=
  match s.env.source with
  | .oracle => s.env.answers.isEmpty
  | .loopback => false
  | .target => s.env.target.tdo.isNone

/-- `Sample()` has been made: an oracle's answer is used up, and the event with its level is on the trace. -/
def takeSample (s : State) : State :=
  { s with
    env := { s.env with
      answers := match s.env.source with
        | .oracle => s.env.answers.tail
        | .loopback => s.env.answers
        | .target => s.env.answers }
    draws := s.draws + (sampleDraws s).toNat
    trace := s.trace ++ [.sample (tdoLevel s)] }

/-! ### Line levels outside a scan -/

/-- The idle levels and directions: "TDI/TMS/TCK driven high, TDO input, resets driven high" (R37). -/
def idleLevels : Lines where
  tck := true
  tms := true
  tdi := true
  srst := true
  trst := true
  tdoInput := true

/-- The block holds the lines: acquired and not put to another use (R38, R184). -/
def linesHeld (s : State) : Bool := s.linesOwned && !s.repurposed

/-- TCK is known to be high already, so taking the idle levels makes no edge (R183). -/
def idleWithoutEdge (s : State) : Bool := linesHeld s && s.lines.tck

/-- The six lines take their idle levels, one event (R183, D26). If that may have clocked the target, or the lines were not
held, the target's state is unknown from here (R183, R204, R232, R239): a free value, log 11. -/
def takeIdleLevels (s : State) : State :=
  { s with
    lines := idleLevels
    repurposed := false
    env := { s.env with target := if idleWithoutEdge s then s.env.target else Config.freeTarget s.draws }
    draws := s.draws + (!idleWithoutEdge s).toNat
    trace := s.trace ++ [.idle] }

/-- The six line latches become unspecified (R182, R184, U6, U14) and the target is no longer known: free values, logs 9, 11. -/
def looseLines (s : State) : State :=
  { s with
    lines := Config.freeLines s.draws
    env := { s.env with target := Config.freeTarget s.draws }
    draws := s.draws + 1 }

/-- The host puts the lines to another use (R184). -/
def repurposeLines (s : State) : State := { looseLines s with repurposed := true }

/-! ### Scratch (R22, R23) -/

/-- A fresh `S_TDO` holds no value: free bytes (R23, U12). -/
def freshTdo (draw : Nat) : List Byte := (List.range Config.scratchBytes).map (Config.freeByte draw)

/-- A fresh triplet, holding the frame an encoder has built in it (R22, R23). -/
def freshScratch (tms tdi : Word64) (s : State) : State :=
  { s with scratch := { tms := tms, tdi := tdi, tdo := freshTdo s.draws }, draws := s.draws + 1 }

/-- `S_TDO <- tdo`: the bytes the shift returned; the bytes above are not written (spec/41_shift_engine.md R118). -/
def storeTdo (s : State) : State :=
  { s with scratch := { s.scratch with tdo := s.engine.tdo ++ s.scratch.tdo.drop s.engine.tdo.length } }

/-! ### The tick counter (R168, R221) -/

/-- The reading `Ticks()` gives: the environment's next one, or a free value (D19). -/
def tickReading (s : State) : Nat := s.env.ticks.headD (Config.freeTick s.draws)

/-- When `TIMESTAMP_ENABLED`, `x[TS] <- Ticks()`, a number of `TIMESTAMP_BITS` bits; otherwise nothing (R168). -/
def snapshotTicks (s : State) : State :=
  { s with
    ts := if s.params.timestampEnabled then tickReading s % 2 ^ s.params.timestampBits else s.ts
    tsCaptured := s.tsCaptured || s.params.timestampEnabled
    env := { s.env with ticks := if s.params.timestampEnabled then s.env.ticks.tail else s.env.ticks }
    draws := s.draws + (s.params.timestampEnabled && s.env.ticks.isEmpty).toNat }

/-! ### The checks made before a scan's first pin event (R213, R234) -/

/-- Why a scan is refused in this state whatever its operands: not configured, or the lines not held. -/
def scanRefusal (s : State) : Option Refusal :=
  if !s.profile.cfgValid then some .notConfigured
  else if !linesHeld s then some .linesNotOwned
  else none

/-- Why the bit count of a shift is refused: none, or more than its limit (spec/41_shift_engine.md R126, spec/10_state.md R46). -/
def bitCountRefusal (limit n : Nat) : Option Refusal :=
  if n = 0 ∨ limit < n then some .badBitCount else none

/-- Why the input buffers of an engine entry are refused: one is too short (R119, R121). Log 14. -/
def bufferRefusal (n : Nat) (tms tdi : List Byte) : Option Refusal :=
  if buffersHold n tms tdi then none else some .badBuffer

/-- Why the buffers of a RAW_SHIFT are refused: one has not exactly the bytes of R72 (R89). Log 14. -/
def exactBufferRefusal (n : Nat) (tms tdi : List Byte) : Option Refusal :=
  if buffersExact n tms tdi then none else some .badBuffer

/-- The first reason that applies; where several apply the model may report any one (R215). -/
def firstRefusal : List (Option Refusal) → Option Refusal
  | [] => none
  | some r :: _ => some r
  | none :: rest => firstRefusal rest

/-- The operation runs if no check refuses it. -/
def unlessRefused (checks : List (Option Refusal)) (t : State) : Host.Outcome State Fault Refusal :=
  match firstRefusal checks with
  | some r => .refused r
  | none => .next t

/-! ### The host's next event (R25, R220) -/

/-- What the block finds on its ports. -/
inductive Fetched where
  /-- Nothing issued: the block waits for the host. -/
  | waiting
  /-- The host has put the lines to another use; the state without that event. -/
  | repurposed (rest : State)
  /-- A command, and the state with it taken from the port. -/
  | command (word : IssueWord) (rest : State)

/-- Take the host's next event. -/
def fetch (s : State) : Fetched :=
  match s.queue with
  | [] => .waiting
  | .repurpose :: rest => .repurposed { s with queue := rest }
  | .issue word :: rest => .command word { s with queue := rest }

/-- Put a command where the block takes its next one. -/
def issueNext (word : IssueWord) (s : State) : State := { s with queue := .issue word :: s.queue }

end Sys2Proof.Machine
end

