-- ==== Sys2Proof/Machine/Engine.lean ====
section
/-! DEFINITION. The bit-serial shift engine, shared by every scan: the bit cycle (spec/41_shift_engine.md R116), the accumulator
(R117), the output bytes (R118), the flat and the split shift (R119, R121). -/

namespace Sys2Proof.Machine

/-- The start of a shift: working copies loaded, `ACC` and `BITCNT` zero, no byte written (R33, R119). -/
def loadEngine (tms tdi : Nat) (s : State) : State :=
  { s with engine := { srTms := tms, srTdi := tdi, acc := 0, bitCnt := 0, tdo := [] } }

/-- Step (4) of R116: both working copies shift right by one bit. -/
def shiftWorking (s : State) : State :=
  { s with engine := { s.engine with srTms := s.engine.srTms >>> 1, srTdi := s.engine.srTdi >>> 1 } }

/-- R117: the sample enters the top bit of the accumulator. -/
def accShift (acc : Byte) (level : Bool) : Byte := (acc >>> 1) ||| ((BitVec.ofBool level).setWidth 8 <<< 7)

/-- Step (8) of R116: `ACC` takes the sample, and after the eighth bit of a byte the byte is written (R118). -/
def accumulate (level : Bool) (s : State) : State :=
  { s with engine := { s.engine with
      acc := accShift s.engine.acc level
      bitCnt := s.engine.bitCnt + 1
      tdo := if s.engine.bitCnt % 8 = 7 then s.engine.tdo ++ [accShift s.engine.acc level] else s.engine.tdo } }

/-- One bit cycle (R116): drive, falling edge, wait, shift the copies, rising edge, wait, sample, accumulate. The bit driven is
bit 0 of each working copy (R33). -/
def bitCycle (v : Variant) (s : State) : State :=
  let driven := drive (s.engine.srTdi.testBit 0) (s.engine.srTms.testBit 0) s
  let low := waitTicks v (tckLow driven)
  let high := waitTicks v (tckHigh (shiftWorking low))
  accumulate (tdoLevel high) (takeSample high)

/-- `n` bit cycles. -/
def bitCycles (v : Variant) : Nat → State → State
  | 0, s => s
  | n + 1, s => bitCycles v n (bitCycle v s)

/-- After the loop: a partial last byte of `r = n mod 8` bits is right-aligned and written (R118). -/
def finishByte (n : Nat) (s : State) : State :=
  { s with engine := { s.engine with
      acc := if n % 8 = 0 then s.engine.acc else s.engine.acc >>> (8 - n % 8)
      tdo := if n % 8 = 0 then s.engine.tdo else s.engine.tdo ++ [s.engine.acc >>> (8 - n % 8)] } }

/-- `SHIFT(throttled, n, tms, tdi)`: the flat shift (R119, R120). The buffers are written as numbers (R9). -/
def shiftFlat (v : Variant) (n tms tdi : Nat) (s : State) : State :=
  finishByte n (bitCycles v n (loadEngine tms tdi s))

/-- `SHIFT_DR(throttled, m, t, tms, tdi)`: head byte, bulk of `m` bytes, tail of `t` bits (R121, R122). -/
def shiftSplit (v : Variant) (m t tms tdi : Nat) (s : State) : State :=
  let head := bitCycles v Config.headBits (loadEngine tms tdi s)
  let bulk := bitCycles v (8 * m) head
  finishByte t (bitCycles v t bulk)

/-- A shift ends: what the engine wrote is on the result port. -/
def returnTdo (s : State) : State := setResult (.tdo s.engine.tdo) s

end Sys2Proof.Machine
end

