-- ==== Sys2Proof/Machine/IrScan.lean ====
section
/-! DEFINITION. The IR scan encoder and LOAD_INSTRUCTION (spec/42_ir_scan.md R141, R142). -/

namespace Sys2Proof.Machine

/-- A 64-bit scratch with every bit at `FILL` (spec/10_state.md R23, D3). -/
def filled : Word64 := if Config.fill then BitVec.allOnes 64 else 0

/-- `B[p] <- v` on a scratch buffer (R51); a position of 64 or more does not exist and changes nothing (R59). -/
def setBit (b : Word64) (p : Nat) (v : Bool) : Word64 :=
  if v then b ||| (1#64 <<< p) else b &&& ~~~(1#64 <<< p)

/-- The encoder's two buffers and its bit cursor `p`. -/
structure Cursor where
  tms : Word64
  tdi : Word64
  p : Nat
  deriving DecidableEq, Repr

/-- `S_TMS[p] <- v`. -/
def putTms (v : Bool) (c : Cursor) : Cursor := { c with tms := setBit c.tms c.p v }

/-- `S_TDI[p] <- v`. -/
def putTdi (v : Bool) (c : Cursor) : Cursor := { c with tdi := setBit c.tdi c.p v }

/-- `p <- p + n`. -/
def advance (n : Nat) (c : Cursor) : Cursor := { c with p := c.p + n }

/-- `repeat n times: S_TDI[p] <- 1; p <- p + 1`. -/
def putOnes : Nat → Cursor → Cursor
  | 0, c => c
  | n + 1, c => putOnes n (advance 1 (putTdi true c))

/-- `for k in k0 .. k0 + n - 1: S_TDI[p] <- I[k]; p <- p + 1`. -/
def putInstr (instruction : BitVec 32) (k0 : Nat) : Nat → Cursor → Cursor
  | 0, c => c
  | n + 1, c => putInstr instruction (k0 + 1) n (advance 1 (putTdi (instruction.getLsbD k0) c))

/-- NAV: TMS 1, 1, 0, 0 from a fresh scratch (R141). -/
def irStart : Cursor :=
  { tms := setBit (setBit filled 0 true) 1 true, tdi := filled, p := Config.irNavBits }

/-- Step 3 of R141: the top instruction bit and the bypass bits after it, TMS rising on the last chain bit. -/
def irTop (top : Bool) (bypassAfter : Nat) (c : Cursor) : Cursor :=
  if 0 < bypassAfter then
    advance 1 (putTdi true (putTms true (putOnes (bypassAfter - 1) (advance 1 (putTdi top c)))))
  else advance 1 (putTdi top (putTms true c))

/-- Step 4 of R141: one TMS-high bit for Update-IR, then one idle bit with TDI high. -/
def irTail (c : Cursor) : Cursor := advance 1 (putTdi true (advance 1 (putTms true c)))

/-- `ENCODE_IR(I, L, bb, ba)` (R141). -/
def encodeIr (instruction : BitVec 32) (registerLength bypassBefore bypassAfter : Nat) : Cursor :=
  irTail (irTop (instruction.getLsbD (registerLength - 1)) bypassAfter
    (putInstr instruction 0 (registerLength - 1) (putOnes bypassBefore irStart)))

/-- One IR scan (R142): fresh scratch with the frame, the flat shift of the configured variant, `S_TDO` stored. -/
def irScan (instruction : BitVec 32) (registerLength bypassBefore bypassAfter : Nat) (s : State) : State :=
  let frame := encodeIr instruction registerLength bypassBefore bypassAfter
  storeTdo (shiftFlat s.profile.variant frame.p frame.tms.toNat frame.tdi.toNat (freshScratch frame.tms frame.tdi s))

/-- LOAD_INSTRUCTION (R142): the scan, its TDO discarded (R143); it returns nothing. -/
def execLoadInstruction (instruction : BitVec 32) (registerLength bypassBefore bypassAfter : Nat) (s : State) :
    Host.Outcome State Fault Refusal :=
  unlessRefused
    [scanRefusal s,
      if registerLength = 0 ∨ Config.irOperandBits < registerLength then some .badRegisterLength else none,
      if Config.scratchBits < irLength registerLength bypassBefore bypassAfter then some .frameTooLong else none]
    (setResult .nothing (irScan instruction registerLength bypassBefore bypassAfter s))

end Sys2Proof.Machine
end

