-- ==== Sys2Proof/Machine/DrTransfer.lean ====
section
/-! DEFINITION. The DR scan encoder, the acknowledge and retry controller, and TRANSFER (spec/43_dr_transfer.md R156 to R168). -/

namespace Sys2Proof.Machine

/-- `for j in 0 .. n - 1: B[at + j] <- bit j`. -/
def putField (pos : Nat) (bit : Nat → Bool) : Nat → Word64 → Word64
  | 0, b => b
  | n + 1, b => setBit (putField pos bit n b) (pos + n) (bit n)

/-- Frame bit of Exit1-DR: its own bit after the last chain bit, or the last chain bit under `DR_EXIT_OVERLAP` (R80, R81). -/
def exitBit (overlap : Bool) (drBefore drAfter : Nat) : Nat :=
  if overlap then 37 + drBefore + drAfter else 38 + drBefore + drAfter

/-- `S_TMS` of `ENCODE_DR` (R157). -/
def drTms (overlap : Bool) (drBefore drAfter : Nat) : Word64 :=
  setBit (setBit (setBit filled 0 true) (exitBit overlap drBefore drAfter) true)
    (exitBit overlap drBefore drAfter + 1) true

/-- `S_TDI` of `ENCODE_DR` (R157): header, write data if the request is a write, and the final bit. -/
def drTdi (request : BitVec 3) (value : BitVec 32) (drBefore drAfter idleCycles : Nat) : Word64 :=
  let header := putField (ackOffset drBefore) request.getLsbD Config.headerBits filled
  let payload := if isRead request then header else putField (dataOffset drBefore) value.getLsbD Config.dataBits header
  setBit payload (40 + drBefore + drAfter + idleCycles) true

/-- One attempt (R156): fresh frame, split shift of the configured variant, `S_TDO`, `ATTEMPT` and `ACK`. -/
def drAttempt (request : BitVec 3) (value : BitVec 32) (drBefore drAfter : Nat) (s : State) : State :=
  let total := drLength drBefore drAfter s.profile.idleCycles
  let tms := drTms s.params.drExitOverlap drBefore drAfter
  let tdi := drTdi request value drBefore drAfter s.profile.idleCycles
  let scanned := storeTdo (shiftSplit s.profile.variant (bulkBytes total) (tailBits total) tms.toNat tdi.toNat
    (freshScratch tms tdi s))
  { scanned with
    retry := { attempt := scanned.retry.attempt + 1, ack := decodeAck scanned.scratch.tdo drBefore } }

/-- The retry loop (R163), with the number of further attempts still allowed: it ends after the first attempt whose code
is not WAIT, or after the last allowed one. -/
def drAttempts (request : BitVec 3) (value : BitVec 32) (drBefore drAfter : Nat) : Nat → State → State
  | 0, s => drAttempt request value drBefore drAfter s
  | k + 1, s =>
    let t := drAttempt request value drBefore drAfter s
    if isWait t.params t.retry.ack then drAttempts request value drBefore drAfter k t else t

/-- `x[ATTEMPT] <- 0`. -/
def clearAttempts (s : State) : State := { s with retry := { s.retry with attempt := 0 } }

/-- The caller's `out` after the loop: the read data if it was supplied and the request is a read, whatever the code (R166). -/
def outAfter (request : BitVec 3) (drBefore : Nat) (out : Option (List Byte)) (s : State) : Option (List Byte) :=
  if isRead request then out.map (fun bytes => writeOut bytes (dataWindow s.scratch.tdo drBefore)) else out

/-- TRANSFER once its checks have passed: snapshot, attempts, results (R156, R166, R167, R168). -/
def runTransfer (request : BitVec 3) (value : BitVec 32) (drBefore drAfter : Nat) (out : Option (List Byte)) (s : State) :
    State :=
  let t := drAttempts request value drBefore drAfter s.profile.retryLimit (clearAttempts (snapshotTicks s))
  setResult (.ack t.retry.ack (outAfter request drBefore out t)) t

/-- TRANSFER (R156). -/
def execTransfer (request : BitVec 3) (value : BitVec 32) (drBefore drAfter : Nat) (out : Option (List Byte)) (s : State) :
    Host.Outcome State Fault Refusal :=
  unlessRefused
    [scanRefusal s,
      if Config.scratchBits < drLength drBefore drAfter s.profile.idleCycles then some .frameTooLong else none,
      if outBufferOk out then none else some .badOutBuffer]
    (runTransfer request value drBefore drAfter out s)

end Sys2Proof.Machine
end

