-- ==== Sys2Proof/Machine/Shift.lean ====
section
/-! DEFINITION. The engine entry points SHIFT.U, SHIFT.T, SHIFT_DR.U, SHIFT_DR.T and the boundary operation RAW_SHIFT
(spec/41_shift_engine.md R119 to R124). -/

namespace Sys2Proof.Machine

/-- A flat shift of `n` bits from the caller's buffers, its bytes on the result port. -/
def flatFromBuffers (v : Variant) (n : Nat) (tms tdi : List Byte) (s : State) : State :=
  returnTdo (shiftFlat v n (bufNat tms) (bufNat tdi) s)

/-- A split shift from the caller's buffers, its bytes on the result port. -/
def splitFromBuffers (v : Variant) (m t : Nat) (tms tdi : List Byte) (s : State) : State :=
  returnTdo (shiftSplit v m t (bufNat tms) (bufNat tdi) s)

/-- The checks of a flat engine entry: a scan must be possible (R28, R38), `1 <= n`, buffers long enough (R119). Log 15.
`n` is at most 64, the most `BITCNT` counts (spec/10_state.md R46); refusing more, where R119 names no upper count, is a DESIGN CHOICE,
log 28. -/
def flatChecks (n : Nat) (tms tdi : List Byte) (s : State) : List (Option Refusal) :=
  [scanRefusal s, bitCountRefusal Config.scratchBits n, bufferRefusal n tms tdi]

/-- The checks of a split engine entry: a scan must be possible, `t < 8`, buffers long enough (R121). Log 15.
`8 + 8 m + t` is at most 64, the most `BITCNT` counts (spec/10_state.md R46); refusing more, where R121 names no upper count, is a
DESIGN CHOICE, log 28. -/
def splitChecks (m t : Nat) (tms tdi : List Byte) (s : State) : List (Option Refusal) :=
  [scanRefusal s, if 8 ≤ t then some .badTailCount else none, bitCountRefusal Config.scratchBits (splitLength m t),
    bufferRefusal (splitLength m t) tms tdi]

/-- SHIFT.U (R119). -/
def execShiftU (bitCount : Nat) (tms tdi : List Byte) (s : State) : Host.Outcome State Fault Refusal :=
  unlessRefused (flatChecks bitCount tms tdi s) (flatFromBuffers .unthrottled bitCount tms tdi s)

/-- SHIFT.T (R120). -/
def execShiftT (bitCount : Nat) (tms tdi : List Byte) (s : State) : Host.Outcome State Fault Refusal :=
  unlessRefused (flatChecks bitCount tms tdi s) (flatFromBuffers .throttled bitCount tms tdi s)

/-- SHIFT_DR.U (R121). -/
def execShiftDrU (byteCountBulk tailBitCount : Nat) (tms tdi : List Byte) (s : State) :
    Host.Outcome State Fault Refusal :=
  unlessRefused (splitChecks byteCountBulk tailBitCount tms tdi s)
    (splitFromBuffers .unthrottled byteCountBulk tailBitCount tms tdi s)

/-- SHIFT_DR.T (R122). -/
def execShiftDrT (byteCountBulk tailBitCount : Nat) (tms tdi : List Byte) (s : State) :
    Host.Outcome State Fault Refusal :=
  unlessRefused (splitChecks byteCountBulk tailBitCount tms tdi s)
    (splitFromBuffers .throttled byteCountBulk tailBitCount tms tdi s)

/-- RAW_SHIFT (R124): SHIFT.T whatever `VARIANT` is, for 1 to `RAW_MAX_BITS` bits and buffers of exactly their bytes (R72). -/
def execRawShift (bitCount : Nat) (tms tdi : List Byte) (s : State) : Host.Outcome State Fault Refusal :=
  unlessRefused
    [scanRefusal s, bitCountRefusal Config.rawMaxBits bitCount, exactBufferRefusal bitCount tms tdi]
    (flatFromBuffers .throttled bitCount tms tdi s)

end Sys2Proof.Machine
end

