-- ==== Sys2Proof/Machine/Speed.lean ====
section
/-! DEFINITION. The speed profile selector of spec/40_speed_profile.md: CONFIGURE. -/

namespace Sys2Proof.Machine

/-- The tier a frequency selects: thresholds in descending order, the first that holds wins (R102). -/
def tierOf (frequencyKHz : Nat) : Tier :=
  if 3000 ≤ frequencyKHz then .none
  else if 1500 ≤ frequencyKHz then .a
  else if 750 ≤ frequencyKHz then .b
  else if 375 ≤ frequencyKHz then .c
  else .d

/-- The variant that goes with a tier: unthrottled exactly for none (R102). -/
def variantOf : Tier → Variant
  | .none => .unthrottled
  | .a => .throttled
  | .b => .throttled
  | .c => .throttled
  | .d => .throttled

/-- CONFIGURE (R101): all six profile fields; no pin event, no check, it cannot fail. -/
def execConfigure (frequencyKHz retryLimit idleCycles : Nat) (s : State) : Host.Outcome State Fault Refusal :=
  .next (setResult .nothing
    { s with profile :=
        { cfgValid := true
          variant := variantOf (tierOf frequencyKHz)
          tier := tierOf frequencyKHz
          delayTicks := Config.delayTicks Config.busClockHz frequencyKHz
          idleCycles := idleCycles
          retryLimit := retryLimit } })

end Sys2Proof.Machine
end

