-- ==== Sys2Proof/Machine/SystemOps.lean ====
section
/-! DEFINITION. The line and system operations of spec/44_system_ops.md: INIT, FINI, RECONFIGURE_IO, GET_TIMESTAMP. -/

namespace Sys2Proof.Machine

/-- INIT (R181): the lines are acquired and take their idle levels. The profile is not written. -/
def execInit (s : State) : Host.Outcome State Fault Refusal :=
  .next (setResult .nothing { takeIdleLevels s with linesOwned := true })

/-- FINI (R182): the lines are released and their levels are unspecified. The profile is untouched (D28). -/
def execFini (s : State) : Host.Outcome State Fault Refusal :=
  .next (setResult .nothing { looseLines s with linesOwned := false })

/-- RECONFIGURE_IO (R183): the idle levels again, also after the lines were repurposed; the lines must be owned. -/
def execReconfigureIo (s : State) : Host.Outcome State Fault Refusal :=
  unlessRefused [if s.linesOwned then none else some .linesNotOwned] (setResult .nothing (takeIdleLevels s))

/-- GET_TIMESTAMP (R185): `x[TS]` if the feature is enabled and a TRANSFER has captured one, else any value of the result port's
width (R72, U13, log 8). -/
def execGetTimestamp (s : State) : Host.Outcome State Fault Refusal :=
  .next
    { s with
      result := .ticks (if s.tsCaptured && s.params.timestampEnabled then s.ts
        else Config.freeTick s.draws % 2 ^ s.params.timestampBits)
      draws := s.draws + (!(s.tsCaptured && s.params.timestampEnabled)).toNat }

end Sys2Proof.Machine
end

