-- ==== Sys2Proof/Machine/Dispatch.lean ====
section
/-! DEFINITION. One arm per instruction: a direct call of its meaning. -/

namespace Sys2Proof.Machine

def exec (i : Instr) (s : State) : Host.Outcome State Fault Refusal :=
  match i with
  | .init => Sys2Proof.Machine.execInit s
  | .fini => Sys2Proof.Machine.execFini s
  | .reconfigureIo => Sys2Proof.Machine.execReconfigureIo s
  | .configure f r c => Sys2Proof.Machine.execConfigure f r c s
  | .rawShift n tms tdi => Sys2Proof.Machine.execRawShift n tms tdi s
  | .loadInstruction ins len bb ba => Sys2Proof.Machine.execLoadInstruction ins len bb ba s
  | .transfer req w db da out => Sys2Proof.Machine.execTransfer req w db da out s
  | .getTimestamp => Sys2Proof.Machine.execGetTimestamp s
  | .shiftU n tms tdi => Sys2Proof.Machine.execShiftU n tms tdi s
  | .shiftT n tms tdi => Sys2Proof.Machine.execShiftT n tms tdi s
  | .shiftDrU m t tms tdi => Sys2Proof.Machine.execShiftDrU m t tms tdi s
  | .shiftDrT m t tms tdi => Sys2Proof.Machine.execShiftDrT m t tms tdi s

end Sys2Proof.Machine
end

