-- ==== Sys2Proof/Machine/Step.lean ====
section
/-! DEFINITION. One step: the host's next event (spec/10_state.md R25, spec/60_exceptions.md R220). An issued command is decoded and
run to its end; a reserved code is refused (R89); with nothing issued the block waits and nothing changes. -/

namespace Sys2Proof.Machine

/-- One step of the machine. -/
def step (s : State) : Host.Outcome State Fault Refusal :=
  match fetch s with
  | .waiting => .next s
  | .repurposed rest => .next (repurposeLines rest)
  | .command word rest =>
    match decode word with
    | .ok i => exec i rest
    | .error _ => .refused .reservedOpcode

/-- The state with a table word (zero operands) issued as the host's next command. Logs 1 and 2. -/
def State.withFetchWord (s : State) (nbits w : Nat) : State := issueNext (tableIssue nbits w) s

end Sys2Proof.Machine
end

