-- ==== Sys2Proof/Safety.lean ====
section
/-! DEFINITION. The terms claims are stated in: when a scan may run (spec/70_reset_and_hazards.md R234), what a scan does on the pins
(spec/41_shift_engine.md R116), what a scan's samples mean (spec/43_dr_transfer.md R161, R162, R166), the parts of the state an
operation leaves alone, and the invariant every step keeps. -/

namespace Sys2Proof.Machine

/-! ### When a scan may run -/

/-- "Before RAW_SHIFT: `LINES_OWNED` = 1, `CFG_VALID` = 1, lines not repurposed" (R234). -/
def ScanReady (s : State) : Prop :=
  s.profile.cfgValid = true ∧ s.linesOwned = true ∧ s.repurposed = false

/-- The operations that clock frame bits. -/
def isScan : Instr → Bool
  | .init => false
  | .fini => false
  | .reconfigureIo => false
  | .configure _ _ _ => false
  | .rawShift _ _ _ => true
  | .loadInstruction _ _ _ _ => true
  | .transfer _ _ _ _ _ => true
  | .getTimestamp => false
  | .shiftU _ _ _ => true
  | .shiftT _ _ _ => true
  | .shiftDrU _ _ _ _ => true
  | .shiftDrT _ _ _ _ => true

/-- The frame of a TRANSFER, with the idle cycles of the profile, is within the scratch (R158); true of any other operation. -/
def frameFits (i : Instr) (s : State) : Prop :=
  match i with
  | .transfer _ _ db da _ => drLength db da s.profile.idleCycles ≤ Config.scratchBits
  | _ => True

/-! ### Pin events of a scan -/

/-- The events of one bit cycle in the order of R116: TDI level `d`, TMS level `t`, sample `b`, the waits `w` after each edge. -/
def cycleEvents (w : List PinEvent) (t d b : Bool) : List PinEvent :=
  .drive d t :: .tck false :: (w ++ .tck true :: (w ++ [.sample b]))

/-- The events of the bit cycles from frame bit `i` on, one per sample, driving `tms[i]`, `tdi[i]` (R119). -/
def scanEvents (w : List PinEvent) (tms tdi : Nat → Bool) : Nat → List Bool → List PinEvent
  | _, [] => []
  | i, b :: rest => cycleEvents w (tms i) (tdi i) b ++ scanEvents w tms tdi (i + 1) rest

/-- A trace without its waits. -/
def withoutWaits (trace : List PinEvent) : List PinEvent :=
  trace.filter fun e =>
    match e with
    | .wait _ _ => false
    | .drive _ _ => true
    | .tck _ => true
    | .sample _ => true
    | .idle => true

/-- The levels of TCK, TMS and TDI. -/
structure Levels where
  tck : Bool
  tms : Bool
  tdi : Bool
  deriving DecidableEq, Repr

/-- The levels after one more pin event (R12). -/
def levelsAfter (l : Levels) : PinEvent → Levels
  | .drive tdi tms => { l with tdi := tdi, tms := tms }
  | .tck level => { l with tck := level }
  | .wait _ _ => l
  | .sample _ => l
  | .idle => { tck := true, tms := true, tdi := true }

/-- The levels a pin trace leaves, from all low. -/
def replayLevels (trace : List PinEvent) : Levels := trace.foldl levelsAfter { tck := false, tms := false, tdi := false }

/-- The levels of TCK, TMS and TDI in the state. -/
def levelsOf (l : Lines) : Levels := { tck := l.tck, tms := l.tms, tdi := l.tdi }

/-! ### What the samples of a DR scan mean -/

/-- The logical acknowledge of a scan, from its samples: bit 2 is `s_(db+5)`, bits 1 and 0 are `s_(db+3)` and `s_(db+4)`, that is
the wire order with bits 0 and 1 swapped (R161, R162). -/
def ackOfScan (drBefore : Nat) (samples : List Bool) : BitVec 3 :=
  BitVec.ofNat 3 (bitsNat
    [samples.getD (drBefore + 4) false, samples.getD (drBefore + 3) false, samples.getD (drBefore + 5) false])

/-- Byte `k` of the read data of a scan: the eight samples from `s_(db+6+8k)`, the first its bit 0 (R166, R52). -/
def dataByteOfScan (drBefore : Nat) (samples : List Bool) (k : Nat) : Byte :=
  BitVec.ofNat 8 (bitsNat ((List.range 8).map fun j => samples.getD (drBefore + 6 + 8 * k + j) false))

/-- The caller's `out` after a read whose last scan took these samples (R166). -/
def outOfScan (drBefore : Nat) (samples : List Bool) (out : List Byte) : List Byte :=
  [dataByteOfScan drBefore samples 0, dataByteOfScan drBefore samples 1, dataByteOfScan drBefore samples 2,
    dataByteOfScan drBefore samples 3] ++ out.drop 4

/-! ### What an operation leaves alone -/

/-- Everything but the line latches, the ownership flags, the target, the draws, the trace and the result is unchanged. -/
def LineOpFrame (s t : State) : Prop :=
  t.params = s.params ∧ t.profile = s.profile ∧ t.ts = s.ts ∧ t.tsCaptured = s.tsCaptured ∧ t.scratch = s.scratch ∧
  t.engine = s.engine ∧ t.retry = s.retry ∧ t.queue = s.queue ∧ t.env.source = s.env.source ∧
  t.env.answers = s.env.answers ∧ t.env.ticks = s.env.ticks ∧ t.env.drCaptures = s.env.drCaptures ∧
  t.env.irCaptures = s.env.irCaptures

/-- What every scan leaves unchanged: parameters, profile, ownership, the two reset lines, the direction of TDO, the commands to
come, and what is wired to TDO. -/
def ScanFrame (s t : State) : Prop :=
  t.params = s.params ∧ t.profile = s.profile ∧ t.linesOwned = s.linesOwned ∧ t.repurposed = s.repurposed ∧
  t.lines.srst = s.lines.srst ∧ t.lines.trst = s.lines.trst ∧ t.lines.tdoInput = s.lines.tdoInput ∧
  t.queue = s.queue ∧ t.env.source = s.env.source

/-- What the scans other than TRANSFER leave unchanged beside that: the timestamp, the retry registers, the tick readings. -/
def ShiftFrame (s t : State) : Prop :=
  ScanFrame s t ∧ t.ts = s.ts ∧ t.tsCaptured = s.tsCaptured ∧ t.retry = s.retry ∧ t.env.ticks = s.env.ticks

/-- The state with the registers that live only inside an operation at zero: the scratch triplet (R22), the engine's working
registers (R32, R33), the retry controller's registers (R26, R34). -/
def clearWorking (s : State) : State :=
  { s with scratch := State.reset.scratch, engine := State.reset.engine, retry := State.reset.retry }

/-- The outcome with its next state seen through `f`. -/
def mapNext {α β φ ρ : Type} (f : α → β) : Host.Outcome α φ ρ → Host.Outcome β φ ρ
  | .next a => .next (f a)
  | .fault r => .fault r
  | .refused r => .refused r

/-! ### The invariant -/

/-- What holds between operations, from every state in which it holds and not only along runs from reset. -/
structure Inv (s : State) : Prop where
  /-- `ACK_OK` and `ACK_WAIT` are two different values (R85). -/
  codesDiffer : s.params.ackOk ≠ s.params.ackWait
  /-- Once configured, "`VARIANT` = 0 exactly when `TIER` = 0" (R29). -/
  variantMatchesTier : s.profile.cfgValid = true → (s.profile.variant = .unthrottled ↔ s.profile.tier = .none)
  /-- While the block holds the lines: TCK is high between operations (R37), SRST and TRST are high (R39), TDO is an input (R37). -/
  heldLevels : linesHeld s = true →
    s.lines.tck = true ∧ s.lines.srst = true ∧ s.lines.trst = true ∧ s.lines.tdoInput = true
  /-- While the block holds the lines their levels are those its pin trace gives (R12, R62). -/
  traceGivesLevels : linesHeld s = true → replayLevels s.trace = levelsOf s.lines
  /-- `BITCNT` is at most 64 (R46). -/
  bitCountBounded : s.engine.bitCnt ≤ Config.scratchBits
  /-- `S_TDO` is a buffer of 64 bits (R22). -/
  scratchIsWhole : s.scratch.tdo.length = Config.scratchBytes
  /-- A captured timestamp is of `TIMESTAMP_BITS` bits, and is there only when the feature is (R40). -/
  timestampFits : s.tsCaptured = true → s.params.timestampEnabled = true ∧ s.ts < 2 ^ s.params.timestampBits

end Sys2Proof.Machine
end

