-- ==== Sys2Proof/Certificates/Slice0/Obligations.lean ====
section
/-! DEFINITION. The statements for the provers. Each docstring names the rule of spec/ it formalises. -/

open Sys2Proof Sys2Proof.Machine

/-! ### Reset, steps, decoding -/

/-- spec/10_state.md R44, spec/70_reset_and_hazards.md R230, spec/60_exceptions.md R213: reset leaves `CFG_VALID` = 0 and
`LINES_OWNED` = 0, so from it every scan is refused, as not configured or as not owning the lines (which of the two is reported is
open, R215), and RECONFIGURE_IO is refused as not owning the lines. The two reset values and these refusals of RAW_SHIFT,
LOAD_INSTRUCTION, TRANSFER and RECONFIGURE_IO are the spec's own decisions (D9, D10, D11, D17); that the four engine entries are refused
likewise when run by themselves is the model's choice (notes/assumptions/15.md). -/
def Obligations.ResetRefusesEveryScan : Prop :=
  State.reset.profile.cfgValid = false ∧ State.reset.linesOwned = false ∧
  (∀ i, isScan i = true →
    exec i State.reset = .refused .notConfigured ∨ exec i State.reset = .refused .linesNotOwned) ∧
  exec .reconfigureIo State.reset = .refused .linesNotOwned

/-- spec/10_state.md R25, spec/30_encoding.md R71, R73: when the host's next event is a command that decodes to `i`, the step is
`exec i` on the state with that command taken from the port, and nothing else. The queue of commands to come is the model's choice
(notes/assumptions/1.md), and so is that it may hold an engine entry (an ENG word) and the step then runs it by itself: R119 and R220 let
the host issue only the eight operations (notes/assumptions/2.md, 15.md). -/
def Obligations.StepRunsDecodedInstruction : Prop :=
  ∀ (s : State) (word : IssueWord) (rest : List HostEvent) (i : Instr),
    s.queue = .issue word :: rest → decode word = .ok i → step s = exec i { s with queue := rest }

/-- spec/44_system_ops.md R184 and spec/10_state.md R25: with nothing issued the step changes nothing; when the host repurposes the
lines the step completes and the lines are marked as put to another use, so that every scan is then refused, and after a further CONFIGURE
it is refused for want of the lines; the profile, the timestamp and the pin trace are as before. That a repurposing makes no pin event of the block
is the model's choice (notes/assumptions/24.md), and the mark is the model's field (notes/assumptions/9.md). (That only INIT and RECONFIGURE_IO take the
mark away is OwnershipChangesOnlyByLineOperations.) Refusing such a scan is the spec's decision D10; that an engine entry run by itself is
refused likewise is the model's choice (notes/assumptions/15.md), and so is waiting as a step that changes nothing (notes/assumptions/1.md). -/
def Obligations.StepWaitsAndRepurposes : Prop :=
  (∀ s : State, s.queue = [] → step s = .next s) ∧
  (∀ (s : State) (rest : List HostEvent), s.queue = .repurpose :: rest →
    ∃ t, step s = .next t ∧ t.queue = rest ∧ t.profile = s.profile ∧ t.ts = s.ts ∧ t.tsCaptured = s.tsCaptured ∧
      t.trace = s.trace ∧ t.linesOwned = s.linesOwned ∧ t.params = s.params ∧ t.repurposed = true ∧
      (∀ i, isScan i = true → exec i t = .refused .notConfigured ∨ exec i t = .refused .linesNotOwned) ∧
      (∀ f r c, ∃ u, exec (.configure f r c) t = .next u ∧ ∀ i, isScan i = true → exec i u = .refused .linesNotOwned))

/-- spec/30_encoding.md R89: command codes 8 to 15 select nothing and are refused (the spec's decision D31); every code below 8 selects
an operation. -/
def Obligations.ReservedCodesAreRefused : Prop :=
  ∀ (s : State) (op : BitVec 4) (ports : CmdPorts) (rest : List HostEvent), s.queue = .issue (.cmd op ports) :: rest →
    (8 ≤ op.toNat → step s = .refused .reservedOpcode) ∧
    (op.toNat < 8 → ∃ i, decode (.cmd op ports) = .ok i ∧ step s = exec i { s with queue := rest })

/-- spec/30_encoding.md R71, R73: words written out from the two tables decode to the operations they stand for. The numbering is
the spec's decision D1. How a table word of 2 bits is told from one of 4 is the model's choice (notes/assumptions/2.md). -/
def Obligations.TableWordsDecode : Prop :=
  decodeTableWord 8 0b0000 = some .init ∧ decodeTableWord 8 0b0011 = some (.configure 0 0 0) ∧
  decodeTableWord 8 0b0110 = some (.transfer 0 0 0 0 none) ∧ decodeTableWord 8 0b1000 = none ∧
  decodeTableWord 2 0b01 = some (.shiftT 0 [] []) ∧ decodeTableWord 2 0b10 = some (.shiftDrU 0 0 [] [])

/-- spec/30_encoding.md R71, R72, R73: every instruction, with every operand at every value, decodes back from the command that issues
it; a command that decodes to `i` has the format and the code of the command that issues `i`; and exactly the CMD codes from 8 up
are rejected. The numbering is the spec's decision D1; operands stand beside the code (notes/assumptions/3.md). -/
def Obligations.DecodeAndEncodeAgree : Prop :=
  (∀ i : Instr, decode (encode i) = .ok i) ∧
  (∀ (op : BitVec 4) (p : CmdPorts) (i : Instr), decode (.cmd op p) = .ok i → ∃ q, encode i = .cmd op q) ∧
  (∀ (sel : BitVec 2) (p : EngPorts), ∃ (i : Instr) (q : EngPorts), decode (.eng sel p) = .ok i ∧ encode i = .eng sel q) ∧
  (∀ (op : BitVec 4) (p : CmdPorts), decode (.cmd op p) = .error (.reservedOpcode op) ↔ 8 ≤ op.toNat)

/-! ### The line and system operations -/

/-- spec/44_system_ops.md R181: INIT completes from every state, acquires the lines and sets the idle levels; the profile and everything
else of the block is unchanged. If the block held the lines with TCK high, no edge reaches the target. The levels after INIT
are the spec's decision D10, one event for the six lines D26, INIT again as INIT D32. -/
def Obligations.InitCompletes : Prop :=
  ∀ s : State, ∃ t, exec .init s = .next t ∧ t.linesOwned = true ∧ t.repurposed = false ∧
    t.lines = { tck := true, tms := true, tdi := true, srst := true, trst := true, tdoInput := true } ∧
    t.result = .nothing ∧ t.trace = s.trace ++ [.idle] ∧ LineOpFrame s t ∧
    (s.linesOwned = true → s.repurposed = false → s.lines.tck = true → t.env.target = s.env.target)

/-- spec/44_system_ops.md R182: FINI completes from every state and releases the lines; the profile keeps its value, so `CFG_VALID` does
too; no pin event; every scan is refused afterwards. Keeping the profile is the spec's decision D28; that FINI makes no pin event is the
model's reading (notes/assumptions/24.md), and that an engine entry run by itself is refused like a scan is the model's choice
(notes/assumptions/15.md). -/
def Obligations.FiniCompletes : Prop :=
  ∀ s : State, ∃ t, exec .fini s = .next t ∧ t.linesOwned = false ∧ t.result = .nothing ∧ t.trace = s.trace ∧
    t.repurposed = s.repurposed ∧ LineOpFrame s t ∧
    (∀ i, isScan i = true → exec i t = .refused .notConfigured ∨ exec i t = .refused .linesNotOwned)

/-- spec/44_system_ops.md R183: RECONFIGURE_IO with the lines owned restores the idle levels, also after a repurposing, and touches
nothing else of the block; from a held high clock it makes no edge. Without ownership it is refused (the spec's
decisions D10, D26). -/
def Obligations.ReconfigureIoCompletes : Prop :=
  ∀ s : State,
    (s.linesOwned = true → ∃ t, exec .reconfigureIo s = .next t ∧ t.linesOwned = true ∧ t.repurposed = false ∧
      t.lines = { tck := true, tms := true, tdi := true, srst := true, trst := true, tdoInput := true } ∧
      t.result = .nothing ∧ t.trace = s.trace ++ [.idle] ∧ LineOpFrame s t ∧
      (s.repurposed = false → s.lines.tck = true → t.env.target = s.env.target)) ∧
    (s.linesOwned = false → exec .reconfigureIo s = .refused .linesNotOwned)

/-- spec/44_system_ops.md R185: GET_TIMESTAMP completes from every state; with the feature enabled and a timestamp captured it returns
`TS`; it changes no state of the block. (Otherwise the value is any value, D19, and nothing
is said of it.) -/
def Obligations.GetTimestampCompletes : Prop :=
  ∀ s : State, ∃ t v, exec .getTimestamp s = .next t ∧ t.result = .ticks v ∧
    (s.params.timestampEnabled = true → s.tsCaptured = true → v = s.ts) ∧
    LineOpFrame s t ∧ t.lines = s.lines ∧ t.linesOwned = s.linesOwned ∧ t.repurposed = s.repurposed ∧
    t.trace = s.trace ∧ t.env.target = s.env.target

/-! ### The speed profile -/

/-- spec/40_speed_profile.md R101: CONFIGURE completes from every state with every operand, writes the six profile fields and nothing
else, and makes no pin event. (`DelayTicks` and `BUS_CLOCK_HZ` are open, D13: the tick count is that function of the operands,
whatever it is. `CFG_VALID` is the spec's decision D9. At frequency 0 a model may refuse, D20, and R103 says `DelayTicks` returns a number there
"if it returns": that it returns at every frequency, 0 among them, so that CONFIGURE completes there too, is the model's choice,
notes/assumptions/17.md.) -/
def Obligations.ConfigureCompletes : Prop :=
  ∀ (s : State) (f r c : Nat), ∃ t, exec (.configure f r c) s = .next t ∧
    t.profile.cfgValid = true ∧ t.profile.retryLimit = r ∧ t.profile.idleCycles = c ∧
    t.profile.delayTicks = Config.delayTicks Config.busClockHz f ∧
    t.result = .nothing ∧ t = { s with profile := t.profile, result := t.result }

/-- spec/40_speed_profile.md R102, R103: the strategy table with its boundaries. -/
def Obligations.ConfigureSelectsTier : Prop :=
  ∀ (s t : State) (f r c : Nat), exec (.configure f r c) s = .next t →
    (t.profile.tier = .none ↔ 3000 ≤ f) ∧ (t.profile.tier = .a ↔ 1500 ≤ f ∧ f < 3000) ∧
    (t.profile.tier = .b ↔ 750 ≤ f ∧ f < 1500) ∧ (t.profile.tier = .c ↔ 375 ≤ f ∧ f < 750) ∧
    (t.profile.tier = .d ↔ f < 375) ∧ (t.profile.variant = .unthrottled ↔ 3000 ≤ f)

/-- spec/10_state.md R27: "the only writer is CONFIGURE". No other operation changes any field of the profile. -/
def Obligations.OnlyConfigureWritesProfile : Prop :=
  ∀ (i : Instr) (s t : State), (∀ f r c, i ≠ .configure f r c) → exec i s = .next t → t.profile = s.profile

/-! ### The shift engine -/

/-- spec/41_shift_engine.md R116, R118, R119, R128: SHIFT.U completes for 1 to 64 bits and buffers of at least `ceil(n/8)` bytes. Its
pin events are those of the `n` bit cycles in order without waits; `tdo` has `ceil(n/8)` bytes, bit `i` is sample `i` and the rest
of the last byte is 0; TCK ends high and TMS, TDI at bit `n - 1`; everything else is unchanged. The zero
fill rests on D25; that an engine entry run by itself asks for a scan to be possible, and that it stops at the 64 bits of R46, is the model's
choice (notes/assumptions/15.md, 28.md). -/
def Obligations.ShiftUnthrottledCompletes : Prop :=
  ∀ (n : Nat) (tms tdi : List Byte) (s : State), ScanReady s → 1 ≤ n → n ≤ 64 → byteCount n ≤ tms.length → byteCount n ≤ tdi.length →
    ∃ (t : State) (samples : List Bool) (bytes : List Byte), exec (.shiftU n tms tdi) s = .next t ∧
      samples.length = n ∧ t.trace = s.trace ++ scanEvents [] (bufBit tms) (bufBit tdi) 0 samples ∧
      t.result = .tdo bytes ∧ bytes.length = byteCount n ∧ (∀ i, bufBit bytes i = samples.getD i false) ∧
      t.lines = { s.lines with tck := true, tms := bufBit tms (n - 1), tdi := bufBit tdi (n - 1) } ∧
      t.scratch = s.scratch ∧ ShiftFrame s t

/-- spec/41_shift_engine.md R116, R118, R120, R128: SHIFT.T likewise, with a wait of the profile's tier and tick count after the falling
and after the rising edge of every bit (the same choices). -/
def Obligations.ShiftThrottledCompletes : Prop :=
  ∀ (n : Nat) (tms tdi : List Byte) (s : State), ScanReady s → 1 ≤ n → n ≤ 64 → byteCount n ≤ tms.length → byteCount n ≤ tdi.length →
    ∃ (t : State) (samples : List Bool) (bytes : List Byte), exec (.shiftT n tms tdi) s = .next t ∧
      samples.length = n ∧
      t.trace = s.trace ++
        scanEvents [.wait s.profile.tier s.profile.delayTicks] (bufBit tms) (bufBit tdi) 0 samples ∧
      t.result = .tdo bytes ∧ bytes.length = byteCount n ∧ (∀ i, bufBit bytes i = samples.getD i false) ∧
      t.lines = { s.lines with tck := true, tms := bufBit tms (n - 1), tdi := bufBit tdi (n - 1) } ∧
      t.scratch = s.scratch ∧ ShiftFrame s t

/-- spec/41_shift_engine.md R123: for every bulk count and every tail of fewer than 8 bits, in every state and whatever the samples, each split
shift has the outcome of the flat shift of its variant over `8 + 8 m + t` bits: the same pin trace, the same `tdo`, the same state.
(Where both come to more than 64 bits the model refuses both, notes/assumptions/28.md.) -/
def Obligations.SplitShiftIsFlatShift : Prop :=
  ∀ (m k : Nat) (tms tdi : List Byte) (s : State), k < 8 →
    exec (.shiftDrU m k tms tdi) s = exec (.shiftU (8 + 8 * m + k) tms tdi) s ∧
    exec (.shiftDrT m k tms tdi) s = exec (.shiftT (8 + 8 * m + k) tms tdi) s

/-- spec/41_shift_engine.md R121, R122: SHIFT_DR.U and SHIFT_DR.T complete for every bulk count and tail of fewer than 8 bits that make
at most 64 bits, with buffers of at least the bytes needed, in the state the flat shift of `8 + 8 m + t` bits completes in. That an engine entry run by itself asks for a
scan to be possible, that a split shift takes longer buffers, and that it stops at the 64 bits of R46, is the model's choice
(notes/assumptions/15.md, 14.md, 28.md). -/
def Obligations.SplitShiftsComplete : Prop :=
  ∀ (m k : Nat) (tms tdi : List Byte) (s : State), ScanReady s → k < 8 → 8 + 8 * m + k ≤ 64 →
    byteCount (8 + 8 * m + k) ≤ tms.length → byteCount (8 + 8 * m + k) ≤ tdi.length →
    (∃ t, exec (.shiftDrU m k tms tdi) s = .next t ∧ exec (.shiftU (8 + 8 * m + k) tms tdi) s = .next t) ∧
    ∃ t, exec (.shiftDrT m k tms tdi) s = .next t ∧ exec (.shiftT (8 + 8 * m + k) tms tdi) s = .next t

/-- spec/41_shift_engine.md R124, R126, spec/30_encoding.md R72: RAW_SHIFT of 1 to 64 bits with buffers of exactly `ceil(n/8)` bytes completes
and is SHIFT.T, whatever `VARIANT` is; of 0 or of more than 64 bits it is refused (the spec's decision D8), with that reason also where a
buffer is wrong too (the model's choice, notes/assumptions/16.md). -/
def Obligations.RawShiftIsThrottledShift : Prop :=
  ∀ (n : Nat) (tms tdi : List Byte) (s : State), ScanReady s →
    (1 ≤ n → n ≤ 64 → tms.length = byteCount n → tdi.length = byteCount n →
      ∃ t, exec (.rawShift n tms tdi) s = .next t ∧ exec (.shiftT n tms tdi) s = .next t) ∧
    (n = 0 ∨ 64 < n → exec (.rawShift n tms tdi) s = .refused .badBitCount)

/-- spec/40_speed_profile.md R104: the two variants give the same pins and the same `tdo`; they differ only in the waits. -/
def Obligations.VariantsDifferOnlyInWaits : Prop :=
  ∀ (n : Nat) (tms tdi : List Byte) (s t u : State),
    exec (.shiftU n tms tdi) s = .next t → exec (.shiftT n tms tdi) s = .next u →
      t.result = u.result ∧ withoutWaits t.trace = withoutWaits u.trace ∧ t.lines = u.lines ∧ t.env = u.env

/-- spec/41_shift_engine.md R127: with TDO wired to TDI, a shift of `n` bits returns the low `n` bits of `tdi`, and 0 above them in the last
byte; of SHIFT.U, of SHIFT.T, and so of RAW_SHIFT. -/
def Obligations.LoopbackReturnsTdi : Prop :=
  ∀ (n : Nat) (tms tdi : List Byte) (s t : State), s.env.source = .loopback →
    (exec (.shiftU n tms tdi) s = .next t ∨ exec (.shiftT n tms tdi) s = .next t ∨ exec (.rawShift n tms tdi) s = .next t) →
      ∃ bytes, t.result = .tdo bytes ∧ (∀ i, i < n → bufBit bytes i = bufBit tdi i) ∧
        (∀ i, n ≤ i → bufBit bytes i = false)

/-- spec/00_scope.md R12, spec/20_memory.md R57: each sample is a fresh answer of the environment. When the environment holds at least `n`
answers, a flat shift of `n` bits returns the first `n` of them in order and uses up exactly those. -/
def Obligations.SamplesAreTheEnvironmentsAnswers : Prop :=
  ∀ (n : Nat) (tms tdi : List Byte) (s t : State), s.env.source = .oracle → n ≤ s.env.answers.length →
    (exec (.shiftU n tms tdi) s = .next t ∨ exec (.shiftT n tms tdi) s = .next t) →
      t.env.answers = s.env.answers.drop n ∧
      ∃ bytes, t.result = .tdo bytes ∧ ∀ i, i < n → bufBit bytes i = s.env.answers.getD i false

/-! ### The IR scan -/

/-- spec/30_encoding.md R77, R78: the IR frame as two numbers, and its length. The spec derives the numbers from its frame table, with its
decision D3 for the bits no sentence sets. -/
def Obligations.IrFrameNumbers : Prop :=
  ∀ (ins : BitVec 32) (len bb ba : Nat), 1 ≤ len → len ≤ 32 → 6 + bb + len + ba ≤ 64 →
    (encodeIr ins len bb ba).p = 6 + bb + len + ba ∧
    (encodeIr ins len bb ba).tms.toNat = 3 + 3 * 2 ^ (6 + bb + len + ba - 3) ∧
    (encodeIr ins len bb ba).tdi.toNat =
      (2 ^ bb - 1) * 2 ^ 4 + (ins.toNat % 2 ^ len) * 2 ^ (4 + bb) + (2 ^ ba - 1) * 2 ^ (4 + bb + len) +
        2 ^ (6 + bb + len + ba - 1)

/-- spec/42_ir_scan.md R142, R143, R144: LOAD_INSTRUCTION completes on its whole operand domain. Its pin events are the bit cycles of the IR
frame, with the waits of the configured variant; it returns nothing; TMS ends 0, TDI 1, TCK 1; the profile, the timestamp and the
retry registers are unchanged, and the idle cycles and the retry limit play no part. (Frame bits no sentence sets: D3; operand domain:
D14; fresh scratch and what is left in it: notes/assumptions/12.md and 13.md.) -/
def Obligations.LoadInstructionCompletes : Prop :=
  ∀ (ins : BitVec 32) (len bb ba : Nat) (s : State), ScanReady s → 1 ≤ len → len ≤ 32 → 6 + bb + len + ba ≤ 64 →
    ∃ (t : State) (samples : List Bool), exec (.loadInstruction ins len bb ba) s = .next t ∧
      samples.length = 6 + bb + len + ba ∧
      t.trace = s.trace ++ scanEvents (waitEvents s.profile.variant s.profile) (encodeIr ins len bb ba).tms.getLsbD
        (encodeIr ins len bb ba).tdi.getLsbD 0 samples ∧
      t.result = .nothing ∧ t.lines = { s.lines with tck := true, tms := false, tdi := true } ∧
      t.scratch.tms = (encodeIr ins len bb ba).tms ∧ t.scratch.tdi = (encodeIr ins len bb ba).tdi ∧ ShiftFrame s t

/-- spec/60_exceptions.md R213: LOAD_INSTRUCTION outside its operand domain is refused by the reason that applies (the spec's decisions D14, D17).
Where the length is out of its range and the frame too long as well, R215 leaves open which is reported; that it is the register length is
the model's choice (notes/assumptions/16.md). -/
def Obligations.LoadInstructionRefusals : Prop :=
  ∀ (ins : BitVec 32) (len bb ba : Nat) (s : State), ScanReady s →
    (len = 0 ∨ 32 < len → exec (.loadInstruction ins len bb ba) s = .refused .badRegisterLength) ∧
    (1 ≤ len → len ≤ 32 → 64 < 6 + bb + len + ba → exec (.loadInstruction ins len bb ba) s = .refused .frameTooLong)

/-! ### The DR scan -/

/-- spec/30_encoding.md R82: the DR frame as two numbers, under both layouts (D6). The spec derives the numbers from its frame tables, with
its decisions D3 for the bits no sentence sets and D4 for the direction bit and the header order. -/
def Obligations.DrFrameNumbers : Prop :=
  ∀ (req : BitVec 3) (w : BitVec 32) (db da ic : Nat), 41 + db + da + ic ≤ 64 →
    (drTms false db da).toNat = 1 + 3 * 2 ^ (38 + db + da) ∧
    (drTms true db da).toNat = 1 + 3 * 2 ^ (37 + db + da) ∧
    (drTdi req w db da ic).toNat =
      req.toNat * 2 ^ (3 + db) + (if req.getLsbD 0 then 0 else w.toNat) * 2 ^ (6 + db) + 2 ^ (41 + db + da + ic - 1)

/-- spec/43_dr_transfer.md R156, R159, R160, R161, R162, R163, R166, R167, R169: TRANSFER completes on its whole operand domain. It makes between 1
and `RETRY_LIMIT + 1` attempts; every attempt is a scan of the same frame of `T_DR` bits and takes `T_DR` samples; all but the last
gave WAIT; the last did not, unless it was the last allowed one; the code of the last is returned; the caller's `out` receives the read
data of the last scan exactly when it was supplied and the request is a read, whatever the code. TMS ends 0, TDI 1, TCK 1.
(Frame bits no sentence sets: D3; the direction bit: D4; the working registers keep their last values: notes/assumptions/12.md.) -/
def Obligations.TransferCompletes : Prop :=
  ∀ (req : BitVec 3) (w : BitVec 32) (db da : Nat) (out : Option (List Byte)) (s : State), ScanReady s →
    41 + db + da + s.profile.idleCycles ≤ 64 → outBufferOk out = true →
    ∃ (t : State) (scans : List (List Bool)) (last : List Bool), exec (.transfer req w db da out) s = .next t ∧
      scans.getLast? = some last ∧ scans.length ≤ s.profile.retryLimit + 1 ∧
      (∀ sc ∈ scans, sc.length = 41 + db + da + s.profile.idleCycles) ∧
      t.trace = s.trace ++ (scans.map (scanEvents (waitEvents s.profile.variant s.profile)
        (drTms s.params.drExitOverlap db da).getLsbD (drTdi req w db da s.profile.idleCycles).getLsbD 0)).flatten ∧
      (∀ sc ∈ scans.dropLast, ackOfScan db sc = s.params.ackWait) ∧
      (ackOfScan db last = s.params.ackWait → scans.length = s.profile.retryLimit + 1) ∧
      t.result = .ack (ackOfScan db last) (if req.getLsbD 0 then out.map (outOfScan db last) else out) ∧
      t.retry = { attempt := scans.length, ack := ackOfScan db last } ∧
      t.scratch.tms = drTms s.params.drExitOverlap db da ∧ t.scratch.tdi = drTdi req w db da s.profile.idleCycles ∧
      t.lines = { s.lines with tck := true, tms := false, tdi := true } ∧ ScanFrame s t

/-- spec/43_dr_transfer.md R163, R164: given a target that answers WAIT on some attempts and then `final`, TRANSFER makes exactly one attempt
more than the WAITs and returns the code of `final`, as long as either `final` is not WAIT or all the allowed retries are used up. With
`final` OK on attempt `k` this is "exactly k attempts and returns OK"; with every answer WAIT it is "exactly `retry_limit + 1` scan
attempts and returns the WAIT code". The target is never asked again. The target's answers are the environment's list (the model's form,
notes/assumptions/6.md), and `ATTEMPT` is read after the operation, where the model leaves it (notes/assumptions/12.md). -/
def Obligations.TransferRetriesWhileWait : Prop :=
  ∀ (req : BitVec 3) (w : BitVec 32) (db da : Nat) (out : Option (List Byte)) (s : State) (waits : List (List Bool))
    (final rest : List Bool), ScanReady s → 41 + db + da + s.profile.idleCycles ≤ 64 → outBufferOk out = true →
    s.env.source = .oracle → s.env.answers = waits.flatten ++ final ++ rest →
    (∀ sc ∈ waits, sc.length = 41 + db + da + s.profile.idleCycles ∧ ackOfScan db sc = s.params.ackWait) →
    final.length = 41 + db + da + s.profile.idleCycles → waits.length ≤ s.profile.retryLimit →
    (ackOfScan db final ≠ s.params.ackWait ∨ waits.length = s.profile.retryLimit) →
    ∃ (t : State) (o : Option (List Byte)), exec (.transfer req w db da out) s = .next t ∧
      t.retry.attempt = waits.length + 1 ∧ t.result = .ack (ackOfScan db final) o ∧ t.env.answers = rest

/-- spec/60_exceptions.md R213, spec/43_dr_transfer.md R158: TRANSFER with a frame above 64 bits is refused, the idle cycles of the profile
counted; within them it is refused for an `out` of other than 4 bytes (the spec's decisions D17, D22; spec/30_encoding.md R89). Where the
frame is too long and `out` wrong as well, R215 leaves open which is reported; that it is the frame is the model's choice
(notes/assumptions/16.md), and so is the name of the reason for an `out` of more than 4 bytes (notes/assumptions/14.md). -/
def Obligations.TransferRefusals : Prop :=
  ∀ (req : BitVec 3) (w : BitVec 32) (db da : Nat) (out : List Byte) (s : State), ScanReady s →
    (64 < 41 + db + da + s.profile.idleCycles →
      exec (.transfer req w db da none) s = .refused .frameTooLong ∧
      exec (.transfer req w db da (some out)) s = .refused .frameTooLong) ∧
    (41 + db + da + s.profile.idleCycles ≤ 64 → out.length ≠ 4 →
      exec (.transfer req w db da (some out)) s = .refused .badOutBuffer)

/-- spec/43_dr_transfer.md R168: with the timestamp enabled a TRANSFER takes exactly one tick reading, however many attempts it makes, and
GET_TIMESTAMP then returns it (cut to `TIMESTAMP_BITS`, the model's choice: notes/assumptions/7.md); with it disabled `TS` and the readings are untouched. -/
def Obligations.TransferTakesOneSnapshot : Prop :=
  ∀ (req : BitVec 3) (w : BitVec 32) (db da : Nat) (out : Option (List Byte)) (s t : State),
    exec (.transfer req w db da out) s = .next t →
    (s.params.timestampEnabled = true → ∀ (now : Nat) (later : List Nat), s.env.ticks = now :: later →
      t.env.ticks = later ∧
      ∃ u, exec .getTimestamp t = .next u ∧ u.result = .ticks (now % 2 ^ s.params.timestampBits)) ∧
    (s.params.timestampEnabled = false → t.ts = s.ts ∧ t.env.ticks = s.env.ticks)

/-- spec/10_state.md R40, spec/43_dr_transfer.md R168: no other operation writes `TS` or reads the tick counter. -/
def Obligations.OnlyTransferWritesTimestamp : Prop :=
  ∀ (i : Instr) (s t : State), (∀ req w db da out, i ≠ .transfer req w db da out) → exec i s = .next t →
    t.ts = s.ts ∧ t.tsCaptured = s.tsCaptured ∧ t.env.ticks = s.env.ticks

/-! ### The walk of the target's TAP controller -/

/-- spec/45_tap_state_machine.md R197: the IR frame takes a TAP in Run-Test/Idle through Select-DR, Select-IR, Capture-IR, Shift-IR (for all but
the last of the chain bits), Exit1-IR, Update-IR to Run-Test/Idle, with `bb + L + ba` shift edges. The spec derives the walk; its transition table is
from general knowledge (notes/assumptions/10.md). -/
def Obligations.IrFrameWalksTap : Prop :=
  ∀ (ins : BitVec 32) (len bb ba : Nat), 1 ≤ len → len ≤ 32 → 6 + bb + len + ba ≤ 64 →
    let tms := (List.range (6 + bb + len + ba)).map (encodeIr ins len bb ba).tms.getLsbD
    tapWalk .runTestIdle tms = [.selectDrScan, .selectIrScan, .captureIr] ++ List.replicate (bb + len + ba) .shiftIr ++
      [.exit1Ir, .updateIr, .runTestIdle] ∧
    shiftEdges .runTestIdle tms = bb + len + ba

/-- spec/45_tap_state_machine.md R198, R200: the DR frame takes a TAP in Run-Test/Idle through Select-DR, Capture-DR, Shift-DR, Exit1-DR,
Update-DR to Run-Test/Idle: under the literal layout with `36 + db + da` shift edges and `ic + 1` idle states, under the overlap layout
with `35 + db + da` and `ic + 2`. The spec derives the walk from a table of general knowledge (notes/assumptions/10.md). -/
def Obligations.DrFrameWalksTap : Prop :=
  ∀ (overlap : Bool) (db da ic : Nat), 41 + db + da + ic ≤ 64 →
    let tms := (List.range (41 + db + da + ic)).map (drTms overlap db da).getLsbD
    let extra := if overlap then 0 else 1
    tapWalk .runTestIdle tms = [.selectDrScan, .captureDr] ++ List.replicate (35 + db + da + extra) .shiftDr ++
      [.exit1Dr, .updateDr] ++ List.replicate (ic + 2 - extra) .runTestIdle ∧
    shiftEdges .runTestIdle tms = 35 + db + da + extra

/-- spec/42_ir_scan.md R144, spec/43_dr_transfer.md R170: started with the TAP in Run-Test/Idle and TCK high, LOAD_INSTRUCTION and TRANSFER leave
it in Run-Test/Idle, a TRANSFER however often it retries and under both layouts. Resting on the table of general knowledge
(notes/assumptions/10.md). -/
def Obligations.FramesLeaveTapIdle : Prop :=
  ∀ (i : Instr) (s t : State), s.env.target.tap = .runTestIdle → s.lines.tck = true → exec i s = .next t →
    ((∃ ins len bb ba, i = .loadInstruction ins len bb ba) ∨ (∃ req w db da out, i = .transfer req w db da out)) →
    t.env.target.tap = .runTestIdle

/-- spec/45_tap_state_machine.md R203: `RAW_SHIFT 6, 0x1F, 0x00` from a high clock brings the TAP to Run-Test/Idle whatever state it was in. Resting on
the table of general knowledge (notes/assumptions/10.md). -/
def Obligations.ResetSequenceReachesIdle : Prop :=
  ∀ s : State, ScanReady s → s.lines.tck = true →
    ∃ t, exec (.rawShift 6 [0x1F] [0x00]) s = .next t ∧ t.env.target.tap = .runTestIdle

/-- spec/45_tap_state_machine.md R202, R199: with a standard target on TDO whose TAP is in Run-Test/Idle and whose selected data
registers capture the chain `c`, the samples of a single-attempt TRANSFER from cycle 3 on are the captured bits in order: the acknowledge
is `c[db]`, `c[db+1]`, `c[db+2]` reordered, and the read data is `c[db+3]` to `c[db+34]`. The target's side is the spec's, from general knowledge (notes/assumptions/10.md). -/
def Obligations.TransferReadsCapturedChain : Prop :=
  ∀ (req : BitVec 3) (w : BitVec 32) (db da : Nat) (out : List Byte) (s t : State)
    (path : List Captured) (later : List (List Captured)), s.env.source = .target → s.env.target.tap = .runTestIdle → s.lines.tck = true →
    s.profile.retryLimit = 0 → s.env.drCaptures = path :: later → db + 35 ≤ (pathBits path).length →
    exec (.transfer req w db da (some out)) s = .next t →
      let c := pathBits path
      ∃ code bytes, t.result = .ack code (some bytes) ∧
        code.getLsbD 0 = c.getD (db + 1) false ∧ code.getLsbD 1 = c.getD db false ∧ code.getLsbD 2 = c.getD (db + 2) false ∧
        (req.getLsbD 0 = true → ∀ k, k < 32 → bufBit bytes k = c.getD (db + 3 + k) false)

/-! ### The whole machine -/

/-- spec/10_state.md R39: "written only by INIT and RECONFIGURE_IO, both to 1": those two leave SRST and TRST high, and no other operation but
FINI, which releases the lines, changes either (the spec's decision D27). -/
def Obligations.ResetLinesOnlyDrivenHigh : Prop :=
  ∀ (i : Instr) (s t : State), exec i s = .next t → i ≠ .fini →
    ((i = .init ∨ i = .reconfigureIo) → t.lines.srst = true ∧ t.lines.trst = true) ∧
    (i ≠ .init → i ≠ .reconfigureIo → t.lines.srst = s.lines.srst ∧ t.lines.trst = s.lines.trst)

/-- spec/20_memory.md R62, spec/00_scope.md R12: the pin events of an operation come after every earlier one, and none is taken back. -/
def Obligations.TraceOnlyGrows : Prop :=
  ∀ (i : Instr) (s t : State), exec i s = .next t → ∃ events, t.trace = s.trace ++ events

/-- spec/10_state.md R22, R26, R32, R33, R34: the scratch triplet, the engine's working registers and the retry controller's registers do not carry
anything from one operation to the next: from two states that differ in them alone, every operation has the same outcome but for them. -/
def Obligations.WorkingRegistersCarryNothing : Prop :=
  ∀ (i : Instr) (s s' : State), clearWorking s = clearWorking s' →
    mapNext clearWorking (exec i s) = mapNext clearWorking (exec i s')

/-- spec/60_exceptions.md R213, R226, spec/70_reset_and_hazards.md R234: every operation with operands in its domain ends in a next state: INIT, FINI,
CONFIGURE and GET_TIMESTAMP in every state, RECONFIGURE_IO with the lines owned, a scan when a scan may run and its frame fits. Model's
choices in that domain: a split shift may have longer buffers (notes/assumptions/14.md), an engine entry runs by itself where a scan may
(15.md) and for at most 64 bits (28.md), and CONFIGURE completes at every frequency, 0 among them (17.md, the spec's decision D20). -/
def Obligations.WellFormedOperationsComplete : Prop :=
  ∀ (i : Instr) (s : State), i.wf = true → (isScan i = true → ScanReady s) → (i = .reconfigureIo → s.linesOwned = true) →
    frameFits i s → ∃ t, exec i s = .next t

/-- spec/60_exceptions.md R213: an operation is refused only for a reason that holds: each reason names its case, and the model never refuses an
operation for want of a meaning. The reasons are the spec's decision D17, but for the buffers (a RAW_SHIFT's of other than exactly their
bytes, an engine entry's shorter than their bits) and the tail and the count of an engine entry, which are the model's
(notes/assumptions/14.md, 15.md, 28.md). -/
def Obligations.RefusalsAreJustified : Prop :=
  ∀ (i : Instr) (s : State) (r : Refusal), exec i s = .refused r →
    (r = .notConfigured ∧ isScan i = true ∧ s.profile.cfgValid = false) ∨
    (r = .linesNotOwned ∧ ((isScan i = true ∧ (s.linesOwned = false ∨ s.repurposed = true)) ∨
      (i = .reconfigureIo ∧ s.linesOwned = false))) ∨
    (r = .frameTooLong ∧ ((∃ ins len bb ba, i = .loadInstruction ins len bb ba ∧ 64 < 6 + bb + len + ba) ∨
      (∃ req w db da out, i = .transfer req w db da out ∧ 64 < 41 + db + da + s.profile.idleCycles))) ∨
    (r = .badRegisterLength ∧ ∃ ins len bb ba, i = .loadInstruction ins len bb ba ∧ (len = 0 ∨ 32 < len)) ∨
    (r = .badBitCount ∧ ∃ tms tdi,
      (∃ n, (i = .rawShift n tms tdi ∨ i = .shiftU n tms tdi ∨ i = .shiftT n tms tdi) ∧ (n = 0 ∨ 64 < n)) ∨
      (∃ m k, (i = .shiftDrU m k tms tdi ∨ i = .shiftDrT m k tms tdi) ∧ 64 < 8 + 8 * m + k)) ∨
    (r = .badOutBuffer ∧ ∃ req w db da out, i = .transfer req w db da (some out) ∧ out.length ≠ 4) ∨
    (r = .badBuffer ∧ ∃ tms tdi,
      (∃ n, i = .rawShift n tms tdi ∧ (tms.length ≠ byteCount n ∨ tdi.length ≠ byteCount n)) ∨
      (∃ n, (i = .shiftU n tms tdi ∨ i = .shiftT n tms tdi) ∧ (tms.length < byteCount n ∨ tdi.length < byteCount n)) ∨
      (∃ m k, (i = .shiftDrU m k tms tdi ∨ i = .shiftDrT m k tms tdi) ∧
        (tms.length < byteCount (8 + 8 * m + k) ∨ tdi.length < byteCount (8 + 8 * m + k)))) ∨
    (r = .badTailCount ∧ ∃ m k tms tdi, (i = .shiftDrU m k tms tdi ∨ i = .shiftDrT m k tms tdi) ∧ 8 ≤ k)

/-- spec/10_state.md R29, R37, R46, R22, R40, spec/30_encoding.md R85, spec/00_scope.md R12: every step keeps the invariant, from every state in which it holds:
`VARIANT` matches `TIER`; while the lines are held TCK, SRST and TRST are high and TDO is an input, and the levels are those the pin
trace gives; `BITCNT` is at most 64; `S_TDO` is whole; a captured timestamp fits its width; `ACK_OK` and `ACK_WAIT` differ. The
clauses on a trace, on `S_TDO` and on the captured timestamp are of the model's own fields (notes/assumptions/8.md, 13.md, 24.md); `BITCNT` is
read after the operation, where the model leaves it (12.md), and its bound holds of an engine entry by the model's choice (28.md). -/
def Obligations.StepKeepsInvariant : Prop :=
  ∀ s t : State, Inv s → step s = .next t → Inv t

/-- spec/10_state.md R44: the state after reset meets the invariant. The zeros in it, and the codes 1 and 2, are the model's choices
(notes/assumptions/4.md and 5.md). -/
def Obligations.ResetMeetsInvariant : Prop := Inv State.reset

/-! ### When an operation is refused, and who holds the lines -/

/-- spec/60_exceptions.md R213, spec/10_state.md R28, spec/44_system_ops.md R184: in every state that is not ready for a scan every scan is refused,
as not configured or as not owning the lines; before the first CONFIGURE as not configured, also while the lines are held (D9); once
configured, as not owning the lines whenever they are released or put to another use (D10). Where both reasons apply R215 leaves open which is
reported. That the four engine entries are refused likewise when run by themselves is the model's choice (notes/assumptions/15.md). -/
def Obligations.UnreadyScansAreRefused : Prop :=
  ∀ (i : Instr) (s : State), isScan i = true →
    (¬ ScanReady s → exec i s = .refused .notConfigured ∨ exec i s = .refused .linesNotOwned) ∧
    (s.profile.cfgValid = false → s.linesOwned = true → s.repurposed = false → exec i s = .refused .notConfigured) ∧
    (s.profile.cfgValid = true → s.linesOwned = false ∨ s.repurposed = true → exec i s = .refused .linesNotOwned)

/-- spec/10_state.md R38, spec/44_system_ops.md R183, R184: `LINES_OWNED` is changed by no operation but INIT and FINI, and lines put to another
use stay so until INIT or RECONFIGURE_IO. (The mark of repurposed lines is the model's field for R184, notes/assumptions/9.md.) -/
def Obligations.OwnershipChangesOnlyByLineOperations : Prop :=
  ∀ (i : Instr) (s t : State), exec i s = .next t →
    (i ≠ .init → i ≠ .fini → t.linesOwned = s.linesOwned) ∧
    (i ≠ .init → i ≠ .reconfigureIo → t.repurposed = s.repurposed)

/-- spec/30_encoding.md R72, R89, spec/41_shift_engine.md R119, R121, spec/10_state.md R46: where a scan may run, a RAW_SHIFT of 1 to 64 bits with a buffer of other than
exactly `ceil(n/8)` bytes is refused, an engine entry of 0 or of more than 64 bits (R46), one with a buffer shorter than its bits, and a split shift with a tail of 8 bits or
more. The domains are the spec's, but that an engine entry of more than 64 bits is refused although R119 and R121 name no upper count is the model's
choice (notes/assumptions/28.md), as are the names of these reasons, that a split shift takes a longer buffer, and which reason is reported
where several apply (14.md, 15.md, 16.md). -/
def Obligations.ShiftRefusals : Prop :=
  ∀ (tms tdi : List Byte) (s : State), ScanReady s →
    (∀ n, 1 ≤ n → n ≤ 64 → tms.length ≠ byteCount n ∨ tdi.length ≠ byteCount n →
      exec (.rawShift n tms tdi) s = .refused .badBuffer) ∧
    (∀ n, n = 0 ∨ 64 < n →
      exec (.shiftU n tms tdi) s = .refused .badBitCount ∧ exec (.shiftT n tms tdi) s = .refused .badBitCount) ∧
    (∀ n, 1 ≤ n → n ≤ 64 → tms.length < byteCount n ∨ tdi.length < byteCount n →
      exec (.shiftU n tms tdi) s = .refused .badBuffer ∧ exec (.shiftT n tms tdi) s = .refused .badBuffer) ∧
    (∀ m k, 8 ≤ k →
      exec (.shiftDrU m k tms tdi) s = .refused .badTailCount ∧ exec (.shiftDrT m k tms tdi) s = .refused .badTailCount) ∧
    (∀ m k, k < 8 → 64 < 8 + 8 * m + k →
      exec (.shiftDrU m k tms tdi) s = .refused .badBitCount ∧ exec (.shiftDrT m k tms tdi) s = .refused .badBitCount) ∧
    (∀ m k, k < 8 → 8 + 8 * m + k ≤ 64 → tms.length < byteCount (8 + 8 * m + k) ∨ tdi.length < byteCount (8 + 8 * m + k) →
      exec (.shiftDrU m k tms tdi) s = .refused .badBuffer ∧ exec (.shiftDrT m k tms tdi) s = .refused .badBuffer)

/-! ### The registers of the target -/

/-- spec/45_tap_state_machine.md R199, R200, R202: a TRANSFER through `db` bypass registers, the 35-bit access register and `da` bypass registers,
from Run-Test/Idle and a high clock, that is not answered WAIT or may not be repeated: it returns the acknowledge the access register captured
(reordered, R162) and, for a read with `out`, its data; and in Update-DR the access register latches, under the overlap layout, RnW `req[0]`,
A[3:2] `req[2:1]` and the data sent, but under the literal layout, one place further, RnW `req[1]`, A[3:2] from `req[2]` and data bit 0, and
the data from bit 1 up with `FILL` on top (R200). A read sends `FILL` for data (R169). The target is the spec's, from general knowledge, and
that which registers are selected is given by the environment, and that after Update-DR the target holds the registers of this path alone, are the
model's choice (notes/assumptions/10.md, 30.md). -/
def Obligations.TransferReachesAccessRegister : Prop :=
  ∀ (req : BitVec 3) (w : BitVec 32) (db da : Nat) (out : Option (List Byte)) (s t : State) (ack : BitVec 3) (data : BitVec 32)
    (later : List (List Captured)), s.env.source = .target → s.env.target.tap = .runTestIdle → s.lines.tck = true →
    s.env.drCaptures = (List.replicate db .bypass ++ .access ack data :: List.replicate da .bypass) :: later →
    let code : BitVec 3 := (ack &&& 4) ||| ((ack &&& 2) >>> 1) ||| ((ack &&& 1) <<< 1)
    let sent : BitVec 32 := if req.getLsbD 0 then 0 else w
    (s.profile.retryLimit = 0 ∨ code ≠ s.params.ackWait) → exec (.transfer req w db da out) s = .next t →
      t.result = .ack code (if req.getLsbD 0 then out.map (fun _ => leBytes32 data) else out) ∧
      t.env.drCaptures = later ∧
      t.env.target.drReg.length = db + 1 + da ∧
      t.env.target.drReg[db]? = some (
        if s.params.drExitOverlap then .access (req.getLsbD 0) (req.extractLsb' 1 2) sent
        else .access (req.getLsbD 1) (BitVec.ofBool (sent.getLsbD 0) ++ BitVec.ofBool (req.getLsbD 2)) (sent >>> 1))

/-- spec/45_tap_state_machine.md R197, R199, spec/42_ir_scan.md R147: a LOAD_INSTRUCTION into instruction registers of `bb + L + ba` bits in all, from
Run-Test/Idle and a high clock, leaves ones in the `bb` bits nearest TDO, then the instruction with bit 0 nearest TDO, then ones in the `ba` bits
beyond, whatever was captured; the data registers keep what they hold. The target is the spec's, from general knowledge (notes/assumptions/10.md). -/
def Obligations.LoadInstructionReachesRegister : Prop :=
  ∀ (ins : BitVec 32) (len bb ba : Nat) (s t : State) (captured : List Bool) (later : List (List Bool)),
    s.env.target.tap = .runTestIdle → s.lines.tck = true →
    s.env.irCaptures = captured :: later → captured.length = bb + len + ba →
    exec (.loadInstruction ins len bb ba) s = .next t →
      t.env.target.irReg = List.replicate bb true ++ (List.range len).map ins.getLsbD ++ List.replicate ba true ∧
      t.env.target.drReg = s.env.target.drReg

/-! ### The acknowledge -/

/-- spec/30_encoding.md R84: the raw acknowledge of a scan is the 3-bit window of `S_TDO` from bit `db + 3`, and its bits are the samples of TCK cycles
`db + 3`, `db + 4`, `db + 5` of the scan, as the pin trace of a TRANSFER shows for its last one; the code a TRANSFER returns is the raw value with
bits 0 and 1 swapped: 0 to 0, 1 to 2, 2 to 1, 3 to 3, 4 to 4, 5 to 6, 6 to 5, 7 to 7, its own inverse. -/
def Obligations.AcknowledgeIsReorderedWindow : Prop :=
  (∀ (tdo : List Byte) (db : Nat), ∃ raw : BitVec 3, decodeAck tdo db = ackReorder raw ∧
    ∀ j, j < 3 → raw.getLsbD j = bufBit tdo (db + 3 + j)) ∧
  (∀ raw : BitVec 3, ackReorder raw = (raw &&& 4) ||| ((raw &&& 2) >>> 1) ||| ((raw &&& 1) <<< 1) ∧
    ackReorder (ackReorder raw) = raw) ∧
  ([0, 1, 2, 3, 4, 5, 6, 7].map ackReorder = [0, 2, 1, 3, 4, 6, 5, 7]) ∧
  (∀ (req : BitVec 3) (w : BitVec 32) (db da : Nat) (out : Option (List Byte)) (s t : State),
    exec (.transfer req w db da out) s = .next t →
      ∃ (earlier : List PinEvent) (samples : List Bool) (raw : BitVec 3) (o : Option (List Byte)),
        t.trace = earlier ++ scanEvents (waitEvents s.profile.variant s.profile) (drTms s.params.drExitOverlap db da).getLsbD
          (drTdi req w db da s.profile.idleCycles).getLsbD 0 samples ∧
        samples.length = 41 + db + da + s.profile.idleCycles ∧
        (∀ j, j < 3 → raw.getLsbD j = samples.getD (db + 3 + j) false) ∧ t.result = .ack (ackReorder raw) o)
end

