-- ==== Sys2Proof/Laws/State.lean ====
section
/-! SUPPORT. For every named update of the state, one lemma per field: what it writes there, or that it leaves it alone. True by
rfl; with them no later proof unfolds a record update. -/

namespace Sys2Proof.Machine

variable (s : State)

/-! ### setResult -/

@[simp] theorem setResult_params (r : Result) : (setResult r s).params = s.params := rfl
@[simp] theorem setResult_profile (r : Result) : (setResult r s).profile = s.profile := rfl
@[simp] theorem setResult_linesOwned (r : Result) : (setResult r s).linesOwned = s.linesOwned := rfl
@[simp] theorem setResult_repurposed (r : Result) : (setResult r s).repurposed = s.repurposed := rfl
@[simp] theorem setResult_lines (r : Result) : (setResult r s).lines = s.lines := rfl
@[simp] theorem setResult_ts (r : Result) : (setResult r s).ts = s.ts := rfl
@[simp] theorem setResult_tsCaptured (r : Result) : (setResult r s).tsCaptured = s.tsCaptured := rfl
@[simp] theorem setResult_scratch (r : Result) : (setResult r s).scratch = s.scratch := rfl
@[simp] theorem setResult_engine (r : Result) : (setResult r s).engine = s.engine := rfl
@[simp] theorem setResult_retry (r : Result) : (setResult r s).retry = s.retry := rfl
@[simp] theorem setResult_env (r : Result) : (setResult r s).env = s.env := rfl
@[simp] theorem setResult_draws (r : Result) : (setResult r s).draws = s.draws := rfl
@[simp] theorem setResult_trace (r : Result) : (setResult r s).trace = s.trace := rfl
@[simp] theorem setResult_queue (r : Result) : (setResult r s).queue = s.queue := rfl
@[simp] theorem setResult_result (r : Result) : (setResult r s).result = r := rfl

/-! ### drive -/

@[simp] theorem drive_params (tdi tms : Bool) : (drive tdi tms s).params = s.params := rfl
@[simp] theorem drive_profile (tdi tms : Bool) : (drive tdi tms s).profile = s.profile := rfl
@[simp] theorem drive_linesOwned (tdi tms : Bool) : (drive tdi tms s).linesOwned = s.linesOwned := rfl
@[simp] theorem drive_repurposed (tdi tms : Bool) : (drive tdi tms s).repurposed = s.repurposed := rfl
@[simp] theorem drive_lines (tdi tms : Bool) : (drive tdi tms s).lines = { s.lines with tdi := tdi, tms := tms } := rfl
@[simp] theorem drive_ts (tdi tms : Bool) : (drive tdi tms s).ts = s.ts := rfl
@[simp] theorem drive_tsCaptured (tdi tms : Bool) : (drive tdi tms s).tsCaptured = s.tsCaptured := rfl
@[simp] theorem drive_scratch (tdi tms : Bool) : (drive tdi tms s).scratch = s.scratch := rfl
@[simp] theorem drive_engine (tdi tms : Bool) : (drive tdi tms s).engine = s.engine := rfl
@[simp] theorem drive_retry (tdi tms : Bool) : (drive tdi tms s).retry = s.retry := rfl
@[simp] theorem drive_env (tdi tms : Bool) : (drive tdi tms s).env = s.env := rfl
@[simp] theorem drive_draws (tdi tms : Bool) : (drive tdi tms s).draws = s.draws := rfl
@[simp] theorem drive_trace (tdi tms : Bool) : (drive tdi tms s).trace = s.trace ++ [.drive tdi tms] := rfl
@[simp] theorem drive_queue (tdi tms : Bool) : (drive tdi tms s).queue = s.queue := rfl
@[simp] theorem drive_result (tdi tms : Bool) : (drive tdi tms s).result = s.result := rfl

/-! ### tckLow -/

@[simp] theorem tckLow_params : (tckLow s).params = s.params := rfl
@[simp] theorem tckLow_profile : (tckLow s).profile = s.profile := rfl
@[simp] theorem tckLow_linesOwned : (tckLow s).linesOwned = s.linesOwned := rfl
@[simp] theorem tckLow_repurposed : (tckLow s).repurposed = s.repurposed := rfl
@[simp] theorem tckLow_lines : (tckLow s).lines = { s.lines with tck := false } := rfl
@[simp] theorem tckLow_ts : (tckLow s).ts = s.ts := rfl
@[simp] theorem tckLow_tsCaptured : (tckLow s).tsCaptured = s.tsCaptured := rfl
@[simp] theorem tckLow_scratch : (tckLow s).scratch = s.scratch := rfl
@[simp] theorem tckLow_engine : (tckLow s).engine = s.engine := rfl
@[simp] theorem tckLow_retry : (tckLow s).retry = s.retry := rfl
@[simp] theorem tckLow_env : (tckLow s).env = if s.lines.tck then envFall s.env else s.env := rfl
@[simp] theorem tckLow_draws : (tckLow s).draws = s.draws := rfl
@[simp] theorem tckLow_trace : (tckLow s).trace = s.trace ++ [.tck false] := rfl
@[simp] theorem tckLow_queue : (tckLow s).queue = s.queue := rfl
@[simp] theorem tckLow_result : (tckLow s).result = s.result := rfl

/-! ### tckHigh -/

@[simp] theorem tckHigh_params : (tckHigh s).params = s.params := rfl
@[simp] theorem tckHigh_profile : (tckHigh s).profile = s.profile := rfl
@[simp] theorem tckHigh_linesOwned : (tckHigh s).linesOwned = s.linesOwned := rfl
@[simp] theorem tckHigh_repurposed : (tckHigh s).repurposed = s.repurposed := rfl
@[simp] theorem tckHigh_lines : (tckHigh s).lines = { s.lines with tck := true } := rfl
@[simp] theorem tckHigh_ts : (tckHigh s).ts = s.ts := rfl
@[simp] theorem tckHigh_tsCaptured : (tckHigh s).tsCaptured = s.tsCaptured := rfl
@[simp] theorem tckHigh_scratch : (tckHigh s).scratch = s.scratch := rfl
@[simp] theorem tckHigh_engine : (tckHigh s).engine = s.engine := rfl
@[simp] theorem tckHigh_retry : (tckHigh s).retry = s.retry := rfl
@[simp] theorem tckHigh_env : (tckHigh s).env = if s.lines.tck then s.env else envRise s.lines.tms s.lines.tdi s.draws s.env := rfl
@[simp] theorem tckHigh_draws : (tckHigh s).draws = if s.lines.tck then s.draws else s.draws + (captureDraws s.env).toNat := rfl
@[simp] theorem tckHigh_trace : (tckHigh s).trace = s.trace ++ [.tck true] := rfl
@[simp] theorem tckHigh_queue : (tckHigh s).queue = s.queue := rfl
@[simp] theorem tckHigh_result : (tckHigh s).result = s.result := rfl

/-! ### waitTicks -/

@[simp] theorem waitTicks_params (v : Variant) : (waitTicks v s).params = s.params := rfl
@[simp] theorem waitTicks_profile (v : Variant) : (waitTicks v s).profile = s.profile := rfl
@[simp] theorem waitTicks_linesOwned (v : Variant) : (waitTicks v s).linesOwned = s.linesOwned := rfl
@[simp] theorem waitTicks_repurposed (v : Variant) : (waitTicks v s).repurposed = s.repurposed := rfl
@[simp] theorem waitTicks_lines (v : Variant) : (waitTicks v s).lines = s.lines := rfl
@[simp] theorem waitTicks_ts (v : Variant) : (waitTicks v s).ts = s.ts := rfl
@[simp] theorem waitTicks_tsCaptured (v : Variant) : (waitTicks v s).tsCaptured = s.tsCaptured := rfl
@[simp] theorem waitTicks_scratch (v : Variant) : (waitTicks v s).scratch = s.scratch := rfl
@[simp] theorem waitTicks_engine (v : Variant) : (waitTicks v s).engine = s.engine := rfl
@[simp] theorem waitTicks_retry (v : Variant) : (waitTicks v s).retry = s.retry := rfl
@[simp] theorem waitTicks_env (v : Variant) : (waitTicks v s).env = s.env := rfl
@[simp] theorem waitTicks_draws (v : Variant) : (waitTicks v s).draws = s.draws := rfl
@[simp] theorem waitTicks_trace (v : Variant) : (waitTicks v s).trace = s.trace ++ waitEvents v s.profile := rfl
@[simp] theorem waitTicks_queue (v : Variant) : (waitTicks v s).queue = s.queue := rfl
@[simp] theorem waitTicks_result (v : Variant) : (waitTicks v s).result = s.result := rfl

/-! ### takeSample -/

@[simp] theorem takeSample_params : (takeSample s).params = s.params := rfl
@[simp] theorem takeSample_profile : (takeSample s).profile = s.profile := rfl
@[simp] theorem takeSample_linesOwned : (takeSample s).linesOwned = s.linesOwned := rfl
@[simp] theorem takeSample_repurposed : (takeSample s).repurposed = s.repurposed := rfl
@[simp] theorem takeSample_lines : (takeSample s).lines = s.lines := rfl
@[simp] theorem takeSample_ts : (takeSample s).ts = s.ts := rfl
@[simp] theorem takeSample_tsCaptured : (takeSample s).tsCaptured = s.tsCaptured := rfl
@[simp] theorem takeSample_scratch : (takeSample s).scratch = s.scratch := rfl
@[simp] theorem takeSample_engine : (takeSample s).engine = s.engine := rfl
@[simp] theorem takeSample_retry : (takeSample s).retry = s.retry := rfl
@[simp] theorem takeSample_draws : (takeSample s).draws = s.draws + (sampleDraws s).toNat := rfl
@[simp] theorem takeSample_trace : (takeSample s).trace = s.trace ++ [.sample (tdoLevel s)] := rfl
@[simp] theorem takeSample_queue : (takeSample s).queue = s.queue := rfl
@[simp] theorem takeSample_result : (takeSample s).result = s.result := rfl

/-! ### takeIdleLevels -/

@[simp] theorem takeIdleLevels_params : (takeIdleLevels s).params = s.params := rfl
@[simp] theorem takeIdleLevels_profile : (takeIdleLevels s).profile = s.profile := rfl
@[simp] theorem takeIdleLevels_linesOwned : (takeIdleLevels s).linesOwned = s.linesOwned := rfl
@[simp] theorem takeIdleLevels_repurposed : (takeIdleLevels s).repurposed = false := rfl
@[simp] theorem takeIdleLevels_lines : (takeIdleLevels s).lines = idleLevels := rfl
@[simp] theorem takeIdleLevels_ts : (takeIdleLevels s).ts = s.ts := rfl
@[simp] theorem takeIdleLevels_tsCaptured : (takeIdleLevels s).tsCaptured = s.tsCaptured := rfl
@[simp] theorem takeIdleLevels_scratch : (takeIdleLevels s).scratch = s.scratch := rfl
@[simp] theorem takeIdleLevels_engine : (takeIdleLevels s).engine = s.engine := rfl
@[simp] theorem takeIdleLevels_retry : (takeIdleLevels s).retry = s.retry := rfl
@[simp] theorem takeIdleLevels_env : (takeIdleLevels s).env = { s.env with target := if idleWithoutEdge s then s.env.target else Config.freeTarget s.draws } := rfl
@[simp] theorem takeIdleLevels_draws : (takeIdleLevels s).draws = s.draws + (!idleWithoutEdge s).toNat := rfl
@[simp] theorem takeIdleLevels_trace : (takeIdleLevels s).trace = s.trace ++ [.idle] := rfl
@[simp] theorem takeIdleLevels_queue : (takeIdleLevels s).queue = s.queue := rfl
@[simp] theorem takeIdleLevels_result : (takeIdleLevels s).result = s.result := rfl

/-! ### looseLines -/

@[simp] theorem looseLines_params : (looseLines s).params = s.params := rfl
@[simp] theorem looseLines_profile : (looseLines s).profile = s.profile := rfl
@[simp] theorem looseLines_linesOwned : (looseLines s).linesOwned = s.linesOwned := rfl
@[simp] theorem looseLines_repurposed : (looseLines s).repurposed = s.repurposed := rfl
@[simp] theorem looseLines_lines : (looseLines s).lines = Config.freeLines s.draws := rfl
@[simp] theorem looseLines_ts : (looseLines s).ts = s.ts := rfl
@[simp] theorem looseLines_tsCaptured : (looseLines s).tsCaptured = s.tsCaptured := rfl
@[simp] theorem looseLines_scratch : (looseLines s).scratch = s.scratch := rfl
@[simp] theorem looseLines_engine : (looseLines s).engine = s.engine := rfl
@[simp] theorem looseLines_retry : (looseLines s).retry = s.retry := rfl
@[simp] theorem looseLines_env : (looseLines s).env = { s.env with target := Config.freeTarget s.draws } := rfl
@[simp] theorem looseLines_draws : (looseLines s).draws = s.draws + 1 := rfl
@[simp] theorem looseLines_trace : (looseLines s).trace = s.trace := rfl
@[simp] theorem looseLines_queue : (looseLines s).queue = s.queue := rfl
@[simp] theorem looseLines_result : (looseLines s).result = s.result := rfl

/-! ### repurposeLines -/

@[simp] theorem repurposeLines_params : (repurposeLines s).params = s.params := rfl
@[simp] theorem repurposeLines_profile : (repurposeLines s).profile = s.profile := rfl
@[simp] theorem repurposeLines_linesOwned : (repurposeLines s).linesOwned = s.linesOwned := rfl
@[simp] theorem repurposeLines_repurposed : (repurposeLines s).repurposed = true := rfl
@[simp] theorem repurposeLines_lines : (repurposeLines s).lines = Config.freeLines s.draws := rfl
@[simp] theorem repurposeLines_ts : (repurposeLines s).ts = s.ts := rfl
@[simp] theorem repurposeLines_tsCaptured : (repurposeLines s).tsCaptured = s.tsCaptured := rfl
@[simp] theorem repurposeLines_scratch : (repurposeLines s).scratch = s.scratch := rfl
@[simp] theorem repurposeLines_engine : (repurposeLines s).engine = s.engine := rfl
@[simp] theorem repurposeLines_retry : (repurposeLines s).retry = s.retry := rfl
@[simp] theorem repurposeLines_env : (repurposeLines s).env = { s.env with target := Config.freeTarget s.draws } := rfl
@[simp] theorem repurposeLines_draws : (repurposeLines s).draws = s.draws + 1 := rfl
@[simp] theorem repurposeLines_trace : (repurposeLines s).trace = s.trace := rfl
@[simp] theorem repurposeLines_queue : (repurposeLines s).queue = s.queue := rfl
@[simp] theorem repurposeLines_result : (repurposeLines s).result = s.result := rfl

/-! ### freshScratch -/

@[simp] theorem freshScratch_params (tms tdi : Word64) : (freshScratch tms tdi s).params = s.params := rfl
@[simp] theorem freshScratch_profile (tms tdi : Word64) : (freshScratch tms tdi s).profile = s.profile := rfl
@[simp] theorem freshScratch_linesOwned (tms tdi : Word64) : (freshScratch tms tdi s).linesOwned = s.linesOwned := rfl
@[simp] theorem freshScratch_repurposed (tms tdi : Word64) : (freshScratch tms tdi s).repurposed = s.repurposed := rfl
@[simp] theorem freshScratch_lines (tms tdi : Word64) : (freshScratch tms tdi s).lines = s.lines := rfl
@[simp] theorem freshScratch_ts (tms tdi : Word64) : (freshScratch tms tdi s).ts = s.ts := rfl
@[simp] theorem freshScratch_tsCaptured (tms tdi : Word64) : (freshScratch tms tdi s).tsCaptured = s.tsCaptured := rfl
@[simp] theorem freshScratch_scratch (tms tdi : Word64) : (freshScratch tms tdi s).scratch = { tms := tms, tdi := tdi, tdo := freshTdo s.draws } := rfl
@[simp] theorem freshScratch_engine (tms tdi : Word64) : (freshScratch tms tdi s).engine = s.engine := rfl
@[simp] theorem freshScratch_retry (tms tdi : Word64) : (freshScratch tms tdi s).retry = s.retry := rfl
@[simp] theorem freshScratch_env (tms tdi : Word64) : (freshScratch tms tdi s).env = s.env := rfl
@[simp] theorem freshScratch_draws (tms tdi : Word64) : (freshScratch tms tdi s).draws = s.draws + 1 := rfl
@[simp] theorem freshScratch_trace (tms tdi : Word64) : (freshScratch tms tdi s).trace = s.trace := rfl
@[simp] theorem freshScratch_queue (tms tdi : Word64) : (freshScratch tms tdi s).queue = s.queue := rfl
@[simp] theorem freshScratch_result (tms tdi : Word64) : (freshScratch tms tdi s).result = s.result := rfl

/-! ### storeTdo -/

@[simp] theorem storeTdo_params : (storeTdo s).params = s.params := rfl
@[simp] theorem storeTdo_profile : (storeTdo s).profile = s.profile := rfl
@[simp] theorem storeTdo_linesOwned : (storeTdo s).linesOwned = s.linesOwned := rfl
@[simp] theorem storeTdo_repurposed : (storeTdo s).repurposed = s.repurposed := rfl
@[simp] theorem storeTdo_lines : (storeTdo s).lines = s.lines := rfl
@[simp] theorem storeTdo_ts : (storeTdo s).ts = s.ts := rfl
@[simp] theorem storeTdo_tsCaptured : (storeTdo s).tsCaptured = s.tsCaptured := rfl
@[simp] theorem storeTdo_scratch : (storeTdo s).scratch = { s.scratch with tdo := s.engine.tdo ++ s.scratch.tdo.drop s.engine.tdo.length } := rfl
@[simp] theorem storeTdo_engine : (storeTdo s).engine = s.engine := rfl
@[simp] theorem storeTdo_retry : (storeTdo s).retry = s.retry := rfl
@[simp] theorem storeTdo_env : (storeTdo s).env = s.env := rfl
@[simp] theorem storeTdo_draws : (storeTdo s).draws = s.draws := rfl
@[simp] theorem storeTdo_trace : (storeTdo s).trace = s.trace := rfl
@[simp] theorem storeTdo_queue : (storeTdo s).queue = s.queue := rfl
@[simp] theorem storeTdo_result : (storeTdo s).result = s.result := rfl

/-! ### snapshotTicks -/

@[simp] theorem snapshotTicks_params : (snapshotTicks s).params = s.params := rfl
@[simp] theorem snapshotTicks_profile : (snapshotTicks s).profile = s.profile := rfl
@[simp] theorem snapshotTicks_linesOwned : (snapshotTicks s).linesOwned = s.linesOwned := rfl
@[simp] theorem snapshotTicks_repurposed : (snapshotTicks s).repurposed = s.repurposed := rfl
@[simp] theorem snapshotTicks_lines : (snapshotTicks s).lines = s.lines := rfl
@[simp] theorem snapshotTicks_ts : (snapshotTicks s).ts = if s.params.timestampEnabled then tickReading s % 2 ^ s.params.timestampBits else s.ts := rfl
@[simp] theorem snapshotTicks_tsCaptured : (snapshotTicks s).tsCaptured = (s.tsCaptured || s.params.timestampEnabled) := rfl
@[simp] theorem snapshotTicks_scratch : (snapshotTicks s).scratch = s.scratch := rfl
@[simp] theorem snapshotTicks_engine : (snapshotTicks s).engine = s.engine := rfl
@[simp] theorem snapshotTicks_retry : (snapshotTicks s).retry = s.retry := rfl
@[simp] theorem snapshotTicks_env : (snapshotTicks s).env = { s.env with ticks := if s.params.timestampEnabled then s.env.ticks.tail else s.env.ticks } := rfl
@[simp] theorem snapshotTicks_draws : (snapshotTicks s).draws = s.draws + (s.params.timestampEnabled && s.env.ticks.isEmpty).toNat := rfl
@[simp] theorem snapshotTicks_trace : (snapshotTicks s).trace = s.trace := rfl
@[simp] theorem snapshotTicks_queue : (snapshotTicks s).queue = s.queue := rfl
@[simp] theorem snapshotTicks_result : (snapshotTicks s).result = s.result := rfl

/-! ### loadEngine -/

@[simp] theorem loadEngine_params (tms tdi : Nat) : (loadEngine tms tdi s).params = s.params := rfl
@[simp] theorem loadEngine_profile (tms tdi : Nat) : (loadEngine tms tdi s).profile = s.profile := rfl
@[simp] theorem loadEngine_linesOwned (tms tdi : Nat) : (loadEngine tms tdi s).linesOwned = s.linesOwned := rfl
@[simp] theorem loadEngine_repurposed (tms tdi : Nat) : (loadEngine tms tdi s).repurposed = s.repurposed := rfl
@[simp] theorem loadEngine_lines (tms tdi : Nat) : (loadEngine tms tdi s).lines = s.lines := rfl
@[simp] theorem loadEngine_ts (tms tdi : Nat) : (loadEngine tms tdi s).ts = s.ts := rfl
@[simp] theorem loadEngine_tsCaptured (tms tdi : Nat) : (loadEngine tms tdi s).tsCaptured = s.tsCaptured := rfl
@[simp] theorem loadEngine_scratch (tms tdi : Nat) : (loadEngine tms tdi s).scratch = s.scratch := rfl
@[simp] theorem loadEngine_engine (tms tdi : Nat) : (loadEngine tms tdi s).engine = { srTms := tms, srTdi := tdi, acc := 0, bitCnt := 0, tdo := [] } := rfl
@[simp] theorem loadEngine_retry (tms tdi : Nat) : (loadEngine tms tdi s).retry = s.retry := rfl
@[simp] theorem loadEngine_env (tms tdi : Nat) : (loadEngine tms tdi s).env = s.env := rfl
@[simp] theorem loadEngine_draws (tms tdi : Nat) : (loadEngine tms tdi s).draws = s.draws := rfl
@[simp] theorem loadEngine_trace (tms tdi : Nat) : (loadEngine tms tdi s).trace = s.trace := rfl
@[simp] theorem loadEngine_queue (tms tdi : Nat) : (loadEngine tms tdi s).queue = s.queue := rfl
@[simp] theorem loadEngine_result (tms tdi : Nat) : (loadEngine tms tdi s).result = s.result := rfl

/-! ### shiftWorking -/

@[simp] theorem shiftWorking_params : (shiftWorking s).params = s.params := rfl
@[simp] theorem shiftWorking_profile : (shiftWorking s).profile = s.profile := rfl
@[simp] theorem shiftWorking_linesOwned : (shiftWorking s).linesOwned = s.linesOwned := rfl
@[simp] theorem shiftWorking_repurposed : (shiftWorking s).repurposed = s.repurposed := rfl
@[simp] theorem shiftWorking_lines : (shiftWorking s).lines = s.lines := rfl
@[simp] theorem shiftWorking_ts : (shiftWorking s).ts = s.ts := rfl
@[simp] theorem shiftWorking_tsCaptured : (shiftWorking s).tsCaptured = s.tsCaptured := rfl
@[simp] theorem shiftWorking_scratch : (shiftWorking s).scratch = s.scratch := rfl
@[simp] theorem shiftWorking_engine : (shiftWorking s).engine = { s.engine with srTms := s.engine.srTms >>> 1, srTdi := s.engine.srTdi >>> 1 } := rfl
@[simp] theorem shiftWorking_retry : (shiftWorking s).retry = s.retry := rfl
@[simp] theorem shiftWorking_env : (shiftWorking s).env = s.env := rfl
@[simp] theorem shiftWorking_draws : (shiftWorking s).draws = s.draws := rfl
@[simp] theorem shiftWorking_trace : (shiftWorking s).trace = s.trace := rfl
@[simp] theorem shiftWorking_queue : (shiftWorking s).queue = s.queue := rfl
@[simp] theorem shiftWorking_result : (shiftWorking s).result = s.result := rfl

/-! ### accumulate -/

@[simp] theorem accumulate_params (b : Bool) : (accumulate b s).params = s.params := rfl
@[simp] theorem accumulate_profile (b : Bool) : (accumulate b s).profile = s.profile := rfl
@[simp] theorem accumulate_linesOwned (b : Bool) : (accumulate b s).linesOwned = s.linesOwned := rfl
@[simp] theorem accumulate_repurposed (b : Bool) : (accumulate b s).repurposed = s.repurposed := rfl
@[simp] theorem accumulate_lines (b : Bool) : (accumulate b s).lines = s.lines := rfl
@[simp] theorem accumulate_ts (b : Bool) : (accumulate b s).ts = s.ts := rfl
@[simp] theorem accumulate_tsCaptured (b : Bool) : (accumulate b s).tsCaptured = s.tsCaptured := rfl
@[simp] theorem accumulate_scratch (b : Bool) : (accumulate b s).scratch = s.scratch := rfl
@[simp] theorem accumulate_retry (b : Bool) : (accumulate b s).retry = s.retry := rfl
@[simp] theorem accumulate_env (b : Bool) : (accumulate b s).env = s.env := rfl
@[simp] theorem accumulate_draws (b : Bool) : (accumulate b s).draws = s.draws := rfl
@[simp] theorem accumulate_trace (b : Bool) : (accumulate b s).trace = s.trace := rfl
@[simp] theorem accumulate_queue (b : Bool) : (accumulate b s).queue = s.queue := rfl
@[simp] theorem accumulate_result (b : Bool) : (accumulate b s).result = s.result := rfl

/-! ### finishByte -/

@[simp] theorem finishByte_params (n : Nat) : (finishByte n s).params = s.params := rfl
@[simp] theorem finishByte_profile (n : Nat) : (finishByte n s).profile = s.profile := rfl
@[simp] theorem finishByte_linesOwned (n : Nat) : (finishByte n s).linesOwned = s.linesOwned := rfl
@[simp] theorem finishByte_repurposed (n : Nat) : (finishByte n s).repurposed = s.repurposed := rfl
@[simp] theorem finishByte_lines (n : Nat) : (finishByte n s).lines = s.lines := rfl
@[simp] theorem finishByte_ts (n : Nat) : (finishByte n s).ts = s.ts := rfl
@[simp] theorem finishByte_tsCaptured (n : Nat) : (finishByte n s).tsCaptured = s.tsCaptured := rfl
@[simp] theorem finishByte_scratch (n : Nat) : (finishByte n s).scratch = s.scratch := rfl
@[simp] theorem finishByte_retry (n : Nat) : (finishByte n s).retry = s.retry := rfl
@[simp] theorem finishByte_env (n : Nat) : (finishByte n s).env = s.env := rfl
@[simp] theorem finishByte_draws (n : Nat) : (finishByte n s).draws = s.draws := rfl
@[simp] theorem finishByte_trace (n : Nat) : (finishByte n s).trace = s.trace := rfl
@[simp] theorem finishByte_queue (n : Nat) : (finishByte n s).queue = s.queue := rfl
@[simp] theorem finishByte_result (n : Nat) : (finishByte n s).result = s.result := rfl

/-! ### returnTdo -/

@[simp] theorem returnTdo_params : (returnTdo s).params = s.params := rfl
@[simp] theorem returnTdo_profile : (returnTdo s).profile = s.profile := rfl
@[simp] theorem returnTdo_linesOwned : (returnTdo s).linesOwned = s.linesOwned := rfl
@[simp] theorem returnTdo_repurposed : (returnTdo s).repurposed = s.repurposed := rfl
@[simp] theorem returnTdo_lines : (returnTdo s).lines = s.lines := rfl
@[simp] theorem returnTdo_ts : (returnTdo s).ts = s.ts := rfl
@[simp] theorem returnTdo_tsCaptured : (returnTdo s).tsCaptured = s.tsCaptured := rfl
@[simp] theorem returnTdo_scratch : (returnTdo s).scratch = s.scratch := rfl
@[simp] theorem returnTdo_engine : (returnTdo s).engine = s.engine := rfl
@[simp] theorem returnTdo_retry : (returnTdo s).retry = s.retry := rfl
@[simp] theorem returnTdo_env : (returnTdo s).env = s.env := rfl
@[simp] theorem returnTdo_draws : (returnTdo s).draws = s.draws := rfl
@[simp] theorem returnTdo_trace : (returnTdo s).trace = s.trace := rfl
@[simp] theorem returnTdo_queue : (returnTdo s).queue = s.queue := rfl
@[simp] theorem returnTdo_result : (returnTdo s).result = .tdo s.engine.tdo := rfl

/-! ### clearAttempts -/

@[simp] theorem clearAttempts_params : (clearAttempts s).params = s.params := rfl
@[simp] theorem clearAttempts_profile : (clearAttempts s).profile = s.profile := rfl
@[simp] theorem clearAttempts_linesOwned : (clearAttempts s).linesOwned = s.linesOwned := rfl
@[simp] theorem clearAttempts_repurposed : (clearAttempts s).repurposed = s.repurposed := rfl
@[simp] theorem clearAttempts_lines : (clearAttempts s).lines = s.lines := rfl
@[simp] theorem clearAttempts_ts : (clearAttempts s).ts = s.ts := rfl
@[simp] theorem clearAttempts_tsCaptured : (clearAttempts s).tsCaptured = s.tsCaptured := rfl
@[simp] theorem clearAttempts_scratch : (clearAttempts s).scratch = s.scratch := rfl
@[simp] theorem clearAttempts_engine : (clearAttempts s).engine = s.engine := rfl
@[simp] theorem clearAttempts_retry : (clearAttempts s).retry = { s.retry with attempt := 0 } := rfl
@[simp] theorem clearAttempts_env : (clearAttempts s).env = s.env := rfl
@[simp] theorem clearAttempts_draws : (clearAttempts s).draws = s.draws := rfl
@[simp] theorem clearAttempts_trace : (clearAttempts s).trace = s.trace := rfl
@[simp] theorem clearAttempts_queue : (clearAttempts s).queue = s.queue := rfl
@[simp] theorem clearAttempts_result : (clearAttempts s).result = s.result := rfl

/-! ### issueNext -/

@[simp] theorem issueNext_params (word : IssueWord) : (issueNext word s).params = s.params := rfl
@[simp] theorem issueNext_profile (word : IssueWord) : (issueNext word s).profile = s.profile := rfl
@[simp] theorem issueNext_linesOwned (word : IssueWord) : (issueNext word s).linesOwned = s.linesOwned := rfl
@[simp] theorem issueNext_repurposed (word : IssueWord) : (issueNext word s).repurposed = s.repurposed := rfl
@[simp] theorem issueNext_lines (word : IssueWord) : (issueNext word s).lines = s.lines := rfl
@[simp] theorem issueNext_ts (word : IssueWord) : (issueNext word s).ts = s.ts := rfl
@[simp] theorem issueNext_tsCaptured (word : IssueWord) : (issueNext word s).tsCaptured = s.tsCaptured := rfl
@[simp] theorem issueNext_scratch (word : IssueWord) : (issueNext word s).scratch = s.scratch := rfl
@[simp] theorem issueNext_engine (word : IssueWord) : (issueNext word s).engine = s.engine := rfl
@[simp] theorem issueNext_retry (word : IssueWord) : (issueNext word s).retry = s.retry := rfl
@[simp] theorem issueNext_env (word : IssueWord) : (issueNext word s).env = s.env := rfl
@[simp] theorem issueNext_draws (word : IssueWord) : (issueNext word s).draws = s.draws := rfl
@[simp] theorem issueNext_trace (word : IssueWord) : (issueNext word s).trace = s.trace := rfl
@[simp] theorem issueNext_queue (word : IssueWord) : (issueNext word s).queue = .issue word :: s.queue := rfl
@[simp] theorem issueNext_result (word : IssueWord) : (issueNext word s).result = s.result := rfl

/-! ### Parts of the environment that a sample and a clock edge leave alone -/

@[simp] theorem takeSample_env_source : (takeSample s).env.source = s.env.source := rfl
@[simp] theorem takeSample_env_ticks : (takeSample s).env.ticks = s.env.ticks := rfl
@[simp] theorem takeSample_env_target : (takeSample s).env.target = s.env.target := rfl
@[simp] theorem takeSample_env_drCaptures : (takeSample s).env.drCaptures = s.env.drCaptures := rfl
@[simp] theorem takeSample_env_irCaptures : (takeSample s).env.irCaptures = s.env.irCaptures := rfl
@[simp] theorem envFall_source (e : Env) : (envFall e).source = e.source := rfl
@[simp] theorem envFall_answers (e : Env) : (envFall e).answers = e.answers := rfl
@[simp] theorem envFall_ticks (e : Env) : (envFall e).ticks = e.ticks := rfl
@[simp] theorem envFall_drCaptures (e : Env) : (envFall e).drCaptures = e.drCaptures := rfl
@[simp] theorem envFall_irCaptures (e : Env) : (envFall e).irCaptures = e.irCaptures := rfl
@[simp] theorem envFall_target (e : Env) : (envFall e).target = targetFall e.target := rfl
@[simp] theorem targetFall_tap (t : Target) : (targetFall t).tap = t.tap := rfl
@[simp] theorem targetFall_drPath (t : Target) : (targetFall t).drPath = t.drPath := rfl
@[simp] theorem targetFall_drChain (t : Target) : (targetFall t).drChain = t.drChain := rfl
@[simp] theorem targetFall_irChain (t : Target) : (targetFall t).irChain = t.irChain := rfl
@[simp] theorem envRise_source (m d : Bool) (k : Nat) (e : Env) : (envRise m d k e).source = e.source := rfl
@[simp] theorem envRise_answers (m d : Bool) (k : Nat) (e : Env) : (envRise m d k e).answers = e.answers := rfl
@[simp] theorem envRise_ticks (m d : Bool) (k : Nat) (e : Env) : (envRise m d k e).ticks = e.ticks := rfl
@[simp] theorem envRise_target (m d : Bool) (k : Nat) (e : Env) : (envRise m d k e).target = targetRise m d k e := rfl
@[simp] theorem targetRise_tap (m d : Bool) (k : Nat) (e : Env) : (targetRise m d k e).tap = tapNext e.target.tap m := rfl

end Sys2Proof.Machine
end

