-- ==== Sys2Proof/Laws/Engine.lean ====
section
/-! SUPPORT. What the shift engine can do, said once: the samples a shift takes, the pin events it makes, the levels it leaves, what
it leaves alone, and that the split shift is the flat shift (spec/41_shift_engine.md R116, R119, R121, R123, R128). -/

namespace Sys2Proof.Machine

/-! ### One bit cycle -/

/-- The state of a bit cycle at its sample. -/
def atSample (v : Variant) (s : State) : State :=
  waitTicks v (tckHigh (shiftWorking (waitTicks v (tckLow
    (drive (s.engine.srTdi.testBit 0) (s.engine.srTms.testBit 0) s)))))

/-- The sample a bit cycle takes. -/
def cycleSample (v : Variant) (s : State) : Bool := tdoLevel (atSample v s)

/-- What a bit cycle does to the working registers. -/
def engineCycle (b : Bool) (e : EngineRegs) : EngineRegs :=
  { srTms := e.srTms >>> 1
    srTdi := e.srTdi >>> 1
    acc := accShift e.acc b
    bitCnt := e.bitCnt + 1
    tdo := if e.bitCnt % 8 = 7 then e.tdo ++ [accShift e.acc b] else e.tdo }

theorem bitCycle_eq (v : Variant) (s : State) :
    bitCycle v s = accumulate (cycleSample v s) (takeSample (atSample v s)) := rfl

section
variable (v : Variant) (s : State)

@[simp] theorem bitCycle_params : (bitCycle v s).params = s.params := by simp [bitCycle_eq, atSample]
@[simp] theorem bitCycle_profile : (bitCycle v s).profile = s.profile := by simp [bitCycle_eq, atSample]
@[simp] theorem bitCycle_linesOwned : (bitCycle v s).linesOwned = s.linesOwned := by simp [bitCycle_eq, atSample]
@[simp] theorem bitCycle_repurposed : (bitCycle v s).repurposed = s.repurposed := by simp [bitCycle_eq, atSample]
@[simp] theorem bitCycle_ts : (bitCycle v s).ts = s.ts := by simp [bitCycle_eq, atSample]
@[simp] theorem bitCycle_tsCaptured : (bitCycle v s).tsCaptured = s.tsCaptured := by simp [bitCycle_eq, atSample]
@[simp] theorem bitCycle_scratch : (bitCycle v s).scratch = s.scratch := by simp [bitCycle_eq, atSample]
@[simp] theorem bitCycle_retry : (bitCycle v s).retry = s.retry := by simp [bitCycle_eq, atSample]
@[simp] theorem bitCycle_queue : (bitCycle v s).queue = s.queue := by simp [bitCycle_eq, atSample]
@[simp] theorem bitCycle_result : (bitCycle v s).result = s.result := by simp [bitCycle_eq, atSample]
@[simp] theorem bitCycle_engine : (bitCycle v s).engine = engineCycle (cycleSample v s) s.engine := by
  simp [bitCycle_eq, atSample, accumulate, engineCycle]
@[simp] theorem bitCycle_lines : (bitCycle v s).lines =
    { s.lines with tck := true, tms := s.engine.srTms.testBit 0, tdi := s.engine.srTdi.testBit 0 } := by
  simp [bitCycle_eq, atSample]

@[simp] theorem bitCycle_env_source : (bitCycle v s).env.source = s.env.source := by
  cases h : s.lines.tck <;> simp [bitCycle_eq, atSample, accumulate, h]

@[simp] theorem bitCycle_env_ticks : (bitCycle v s).env.ticks = s.env.ticks := by
  cases h : s.lines.tck <;> simp [bitCycle_eq, atSample, accumulate, h]

@[simp] theorem bitCycle_trace : (bitCycle v s).trace =
    s.trace ++ cycleEvents (waitEvents v s.profile) (s.engine.srTms.testBit 0) (s.engine.srTdi.testBit 0)
      (cycleSample v s) := by
  simp [bitCycle_eq, accumulate, cycleEvents, atSample, cycleSample]

/-- From a high clock, a bit cycle takes the target over one falling and one rising edge. -/
theorem bitCycle_target (h : s.lines.tck = true) : (bitCycle v s).env.target =
    targetRise (s.engine.srTms.testBit 0) (s.engine.srTdi.testBit 0) s.draws (envFall s.env) := by
  simp [bitCycle_eq, accumulate, atSample, h]

theorem bitCycle_drCaptures (h : s.lines.tck = true) : (bitCycle v s).env.drCaptures =
    if s.env.target.tap = .captureDr then s.env.drCaptures.tail else s.env.drCaptures := by
  simp [bitCycle_eq, accumulate, atSample, h, envRise]

theorem bitCycle_irCaptures (h : s.lines.tck = true) : (bitCycle v s).env.irCaptures =
    if s.env.target.tap = .captureIr then s.env.irCaptures.tail else s.env.irCaptures := by
  simp [bitCycle_eq, accumulate, atSample, h, envRise]

end

/-! ### `n` bit cycles -/

/-- The samples `n` bit cycles take, the first first. -/
def scanSamples (v : Variant) : Nat → State → List Bool
  | 0, _ => []
  | n + 1, s => cycleSample v s :: scanSamples v n (bitCycle v s)

/-- The working registers at the start of a shift. -/
def freshEngine (tms tdi : Nat) : EngineRegs := { srTms := tms, srTdi := tdi, acc := 0, bitCnt := 0, tdo := [] }

/-- What the end of a shift of `n` bits does to the working registers (R118). -/
def lastByte (n : Nat) (e : EngineRegs) : EngineRegs :=
  { e with
    acc := if n % 8 = 0 then e.acc else e.acc >>> (8 - n % 8)
    tdo := if n % 8 = 0 then e.tdo else e.tdo ++ [e.acc >>> (8 - n % 8)] }

/-- What the samples of a shift do to the working registers. -/
def feed (e : EngineRegs) (samples : List Bool) : EngineRegs := samples.foldl (fun e b => engineCycle b e) e

@[simp] theorem scanSamples_length (v : Variant) (n : Nat) (s : State) : (scanSamples v n s).length = n := by
  induction n generalizing s with
  | zero => rfl
  | succ n ih => simp [scanSamples, ih]

theorem bitCycles_add (v : Variant) (a b : Nat) (s : State) :
    bitCycles v (a + b) s = bitCycles v b (bitCycles v a s) := by
  induction a generalizing s with
  | zero => simp [bitCycles]
  | succ a ih => rw [Nat.add_right_comm]; exact ih _

section
variable (v : Variant) (n : Nat) (s : State)

@[simp] theorem bitCycles_params : (bitCycles v n s).params = s.params := by
  induction n generalizing s with
  | zero => rfl
  | succ n ih => simp [bitCycles, ih]

@[simp] theorem bitCycles_profile : (bitCycles v n s).profile = s.profile := by
  induction n generalizing s with
  | zero => rfl
  | succ n ih => simp [bitCycles, ih]

@[simp] theorem bitCycles_linesOwned : (bitCycles v n s).linesOwned = s.linesOwned := by
  induction n generalizing s with
  | zero => rfl
  | succ n ih => simp [bitCycles, ih]

@[simp] theorem bitCycles_repurposed : (bitCycles v n s).repurposed = s.repurposed := by
  induction n generalizing s with
  | zero => rfl
  | succ n ih => simp [bitCycles, ih]

@[simp] theorem bitCycles_ts : (bitCycles v n s).ts = s.ts := by
  induction n generalizing s with
  | zero => rfl
  | succ n ih => simp [bitCycles, ih]

@[simp] theorem bitCycles_tsCaptured : (bitCycles v n s).tsCaptured = s.tsCaptured := by
  induction n generalizing s with
  | zero => rfl
  | succ n ih => simp [bitCycles, ih]

@[simp] theorem bitCycles_scratch : (bitCycles v n s).scratch = s.scratch := by
  induction n generalizing s with
  | zero => rfl
  | succ n ih => simp [bitCycles, ih]

@[simp] theorem bitCycles_retry : (bitCycles v n s).retry = s.retry := by
  induction n generalizing s with
  | zero => rfl
  | succ n ih => simp [bitCycles, ih]

@[simp] theorem bitCycles_queue : (bitCycles v n s).queue = s.queue := by
  induction n generalizing s with
  | zero => rfl
  | succ n ih => simp [bitCycles, ih]

@[simp] theorem bitCycles_result : (bitCycles v n s).result = s.result := by
  induction n generalizing s with
  | zero => rfl
  | succ n ih => simp [bitCycles, ih]

@[simp] theorem bitCycles_env_source : (bitCycles v n s).env.source = s.env.source := by
  induction n generalizing s with
  | zero => rfl
  | succ n ih => simp [bitCycles, ih]

@[simp] theorem bitCycles_env_ticks : (bitCycles v n s).env.ticks = s.env.ticks := by
  induction n generalizing s with
  | zero => rfl
  | succ n ih => simp [bitCycles, ih]

theorem bitCycles_engine : (bitCycles v n s).engine = feed s.engine (scanSamples v n s) := by
  induction n generalizing s with
  | zero => rfl
  | succ n ih => simp [bitCycles, ih, scanSamples, feed]

/-- At least one bit cycle leaves TCK high and TMS and TDI at the last bit (R128); the other lines are not touched. -/
theorem bitCycles_lines : (bitCycles v (n + 1) s).lines =
    { s.lines with tck := true, tms := s.engine.srTms.testBit n, tdi := s.engine.srTdi.testBit n } := by
  induction n generalizing s with
  | zero => simp [bitCycles]
  | succ n ih => rw [bitCycles, ih]; simp [engineCycle, Nat.testBit_shiftRight, Nat.add_comm]

end

theorem scanEvents_shift (w : List PinEvent) (tms tdi : Nat → Bool) (i : Nat) (l : List Bool) :
    scanEvents w tms tdi (i + 1) l = scanEvents w (fun k => tms (k + 1)) (fun k => tdi (k + 1)) i l := by
  induction l generalizing i with
  | nil => rfl
  | cons b l ih => simp [scanEvents, ih]

theorem bitCycles_trace (v : Variant) (n : Nat) (s : State) : (bitCycles v n s).trace =
    s.trace ++ scanEvents (waitEvents v s.profile) s.engine.srTms.testBit s.engine.srTdi.testBit 0 (scanSamples v n s) := by
  induction n generalizing s with
  | zero => simp [bitCycles, scanSamples, scanEvents]
  | succ n ih =>
    have e (x : Nat) : (x >>> 1).testBit = fun k => x.testBit (k + 1) := by
      funext k; rw [Nat.testBit_shiftRight, Nat.add_comm]
    rw [bitCycles, ih]
    simp [scanSamples, scanEvents, scanEvents_shift, engineCycle, e]

/-! ### The two shapes -/

/-- R123: the split shift is the flat shift of `8 + 8 m + t` bits, for a tail of fewer than 8 bits. -/
theorem shiftSplit_eq (v : Variant) (m t tms tdi : Nat) (s : State) (ht : t < 8) :
    shiftSplit v m t tms tdi s = shiftFlat v (splitLength m t) tms tdi s := by
  have e : splitLength m t % 8 = t := by simp only [splitLength, Config.headBits]; omega
  have e' : t % 8 = t := by omega
  simp only [shiftSplit, shiftFlat, splitLength, ← bitCycles_add] at *
  unfold finishByte
  simp only [e, e']

section
variable (v : Variant) (n tms tdi : Nat) (s : State)

/-- The samples a shift takes. -/
def shiftSamples : List Bool := scanSamples v n (loadEngine tms tdi s)

@[simp] theorem shiftSamples_length : (shiftSamples v n tms tdi s).length = n := scanSamples_length _ _ _

@[simp] theorem shiftFlat_params : (shiftFlat v n tms tdi s).params = s.params := by simp [shiftFlat]
@[simp] theorem shiftFlat_profile : (shiftFlat v n tms tdi s).profile = s.profile := by simp [shiftFlat]
@[simp] theorem shiftFlat_linesOwned : (shiftFlat v n tms tdi s).linesOwned = s.linesOwned := by simp [shiftFlat]
@[simp] theorem shiftFlat_repurposed : (shiftFlat v n tms tdi s).repurposed = s.repurposed := by simp [shiftFlat]
@[simp] theorem shiftFlat_ts : (shiftFlat v n tms tdi s).ts = s.ts := by simp [shiftFlat]
@[simp] theorem shiftFlat_tsCaptured : (shiftFlat v n tms tdi s).tsCaptured = s.tsCaptured := by simp [shiftFlat]
@[simp] theorem shiftFlat_scratch : (shiftFlat v n tms tdi s).scratch = s.scratch := by simp [shiftFlat]
@[simp] theorem shiftFlat_retry : (shiftFlat v n tms tdi s).retry = s.retry := by simp [shiftFlat]
@[simp] theorem shiftFlat_queue : (shiftFlat v n tms tdi s).queue = s.queue := by simp [shiftFlat]
@[simp] theorem shiftFlat_result : (shiftFlat v n tms tdi s).result = s.result := by simp [shiftFlat]
@[simp] theorem shiftFlat_env_source : (shiftFlat v n tms tdi s).env.source = s.env.source := by simp [shiftFlat]
@[simp] theorem shiftFlat_env_ticks : (shiftFlat v n tms tdi s).env.ticks = s.env.ticks := by simp [shiftFlat]

/-- The pin events of a shift are those of its bits in order (R116, R119, R120). -/
theorem shiftFlat_trace : (shiftFlat v n tms tdi s).trace =
    s.trace ++ scanEvents (waitEvents v s.profile) tms.testBit tdi.testBit 0 (shiftSamples v n tms tdi s) := by
  simp [shiftFlat, bitCycles_trace, shiftSamples]

theorem shiftFlat_lines (h : 1 ≤ n) : (shiftFlat v n tms tdi s).lines =
    { s.lines with tck := true, tms := tms.testBit (n - 1), tdi := tdi.testBit (n - 1) } := by
  obtain ⟨k, rfl⟩ : ∃ k, n = k + 1 := ⟨n - 1, by omega⟩
  simp [shiftFlat, bitCycles_lines]

/-- A shift overwrites every working register, so what they held before does not matter (R32, R33). -/
theorem shiftFlat_engine : (shiftFlat v n tms tdi s).engine =
    lastByte n (feed (freshEngine tms tdi) (shiftSamples v n tms tdi s)) := by
  simp [shiftFlat, finishByte, bitCycles_engine, shiftSamples, lastByte, freshEngine]

end

end Sys2Proof.Machine
end

