-- ==== Sys2Proof/Laws/Buffers.lean ====
section
/-! SUPPORT. Buffers as bits and as numbers (spec/00_scope.md R9, R10), and what a shift's output bytes hold (spec/41_shift_engine.md
R117, R118). -/

namespace Sys2Proof.Machine

/-! ### Bits of buffers -/

theorem testBit_bitsNat (l : List Bool) (j : Nat) : (bitsNat l).testBit j = l.getD j false := by
  induction l generalizing j with
  | nil => simp [bitsNat]
  | cons b l ih =>
    cases j with
    | zero => cases b <;> simp [bitsNat, Nat.testBit_zero]
    | succ j =>
      rw [Nat.testBit_succ]
      have : (bitsNat (b :: l)) / 2 = bitsNat l := by cases b <;> (simp [bitsNat]; try omega)
      simp [this, ih]

theorem testBit_bufNat (buf : List Byte) (i : Nat) : (bufNat buf).testBit i = bufBit buf i := by
  induction buf generalizing i with
  | nil => simp [bufNat, bufBit]
  | cons b buf ih =>
    have hb : b.toNat < 2 ^ 8 := b.isLt
    have e : bufNat (b :: buf) = 2 ^ 8 * bufNat buf + b.toNat := by simp [bufNat]; omega
    rw [e, Nat.testBit_two_pow_mul_add _ hb]
    by_cases h : i < 8
    · simp [h, bufBit, Nat.div_eq_of_lt h, Nat.mod_eq_of_lt h, BitVec.getLsbD]
    · have h1 : i / 8 = (i - 8) / 8 + 1 := by omega
      have h2 : (i - 8) % 8 = i % 8 := by omega
      simp [h, ih, bufBit, h1, h2]

theorem getLsbD_bufSlice (buf : List Byte) (lo w j : Nat) :
    (bufSlice buf lo w).getLsbD j = (decide (j < w) && bufBit buf (lo + j)) := by
  rw [bufSlice, BitVec.getLsbD_ofNat, testBit_bitsNat]
  by_cases h : j < w <;> simp [h, List.getD_eq_getElem?_getD]

theorem bufBit_append_left (a b : List Byte) (i : Nat) (h : i < 8 * a.length) : bufBit (a ++ b) i = bufBit a i := by
  have : i / 8 < a.length := by omega
  simp [bufBit, List.getD_eq_getElem?_getD, List.getElem?_append_left this]

theorem bufBit_append_right (a b : List Byte) (i : Nat) (h : 8 * a.length ≤ i) :
    bufBit (a ++ b) i = bufBit b (i - 8 * a.length) := by
  have h1 : a.length ≤ i / 8 := by omega
  have h2 : (i - 8 * a.length) / 8 = i / 8 - a.length := by omega
  have h3 : (i - 8 * a.length) % 8 = i % 8 := by omega
  simp [bufBit, List.getD_eq_getElem?_getD, List.getElem?_append_right h1, h2, h3]

theorem bufBit_past_end (a : List Byte) (i : Nat) (h : 8 * a.length ≤ i) : bufBit a i = false := by
  have h1 : a.length ≤ i / 8 := by omega
  simp [bufBit, List.getD_eq_getElem?_getD, List.getElem?_eq_none h1]

/-! ### The accumulator and the output bytes -/

theorem getLsbD_accShift (acc : Byte) (b : Bool) (j : Nat) (h : j < 8) :
    (accShift acc b).getLsbD j = if j = 7 then b else acc.getLsbD (j + 1) := by
  have hj : (7 - j = 0 ↔ j = 7) := by omega
  by_cases h7 : j = 7
  · subst h7; cases b <;> simp [accShift]
  · have : j < 7 := by omega
    simp [accShift, h7, this, Nat.add_comm 1]

/-- After `k` samples: `k` bits counted, `k / 8` bytes written with the samples in order, and the top `k mod 8` bits of the
accumulator are the samples since. -/
structure Fed (samples : List Bool) (e : EngineRegs) : Prop where
  count : e.bitCnt = samples.length
  bytes : e.tdo.length = samples.length / 8
  written : ∀ i, i < 8 * (samples.length / 8) → bufBit e.tdo i = samples.getD i false
  pending : ∀ j, j < samples.length % 8 →
    e.acc.getLsbD (8 - samples.length % 8 + j) = samples.getD (8 * (samples.length / 8) + j) false

theorem getD_append_left (l : List Bool) (b : Bool) (i : Nat) (h : i < l.length) :
    (l ++ [b]).getD i false = l.getD i false := by
  simp [List.getD_eq_getElem?_getD, List.getElem?_append_left h]

theorem getD_append_last (l : List Bool) (b : Bool) : (l ++ [b]).getD l.length false = b := by
  simp [List.getD_eq_getElem?_getD]

theorem fed_push {samples : List Bool} {e : EngineRegs} (b : Bool) (h : Fed samples e) :
    Fed (samples ++ [b]) (engineCycle b e) := by
  obtain ⟨hc, hb, hw, hp⟩ := h
  set k := samples.length with hk
  have hlen : (samples ++ [b]).length = k + 1 := by simp [hk]
  have top (j : Nat) (hj : j < k % 8 + 1) :
      (accShift e.acc b).getLsbD (8 - (k % 8 + 1) + j) = (samples ++ [b]).getD (8 * (k / 8) + j) false := by
    rw [getLsbD_accShift _ _ _ (by omega)]
    by_cases hl : j = k % 8
    · have e1 : 8 - (k % 8 + 1) + j = 7 := by omega
      have e2 : 8 * (k / 8) + j = k := by omega
      rw [if_pos e1, e2, hk, getD_append_last]
    · have e1 : ¬ (8 - (k % 8 + 1) + j = 7) := by omega
      rw [if_neg e1, getD_append_left _ _ _ (by omega), ← hp j (by omega)]
      congr 1; omega
  by_cases h7 : k % 8 = 7
  · have q : (k + 1) / 8 = k / 8 + 1 := by omega
    have r : (k + 1) % 8 = 0 := by omega
    refine ⟨by simp [engineCycle, hc, hlen], ?_, ?_, ?_⟩
    · simp [engineCycle, hc, h7, hlen, hb, q]
    · intro i hi
      rw [hlen, q] at hi
      simp only [engineCycle, hc, h7, if_true]
      by_cases hlt : i < 8 * (k / 8)
      · rw [bufBit_append_left _ _ _ (by omega), hw i hlt, getD_append_left _ _ _ (by omega)]
      · rw [bufBit_append_right _ _ _ (by omega), hb]
        have e1 : (i - 8 * (k / 8)) / 8 = 0 := by omega
        have e2 : (i - 8 * (k / 8)) % 8 = i - 8 * (k / 8) := by omega
        have := top (i - 8 * (k / 8)) (by omega)
        rw [h7] at this
        simp only [bufBit, e1, e2, List.getD_cons_zero]
        rw [show i = 8 * (k / 8) + (i - 8 * (k / 8)) by omega]
        simpa using this
    · intro j hj
      rw [hlen] at hj; omega
  · have q : (k + 1) / 8 = k / 8 := by omega
    have r : (k + 1) % 8 = k % 8 + 1 := by omega
    refine ⟨by simp [engineCycle, hc, hlen], ?_, ?_, ?_⟩
    · simp [engineCycle, hc, h7, hlen, hb, q]
    · intro i hi
      rw [hlen, q] at hi
      simp only [engineCycle, hc, h7, if_false]
      rw [hw i hi, getD_append_left _ _ _ (by omega)]
    · intro j hj
      rw [hlen, q, r] at *
      exact top j hj

theorem feed_append (e : EngineRegs) (l : List Bool) (b : Bool) : feed e (l ++ [b]) = engineCycle b (feed e l) := by
  simp [feed]

theorem fed_feed (tms tdi : Nat) (samples : List Bool) : Fed samples (feed (freshEngine tms tdi) samples) := by
  induction samples using List.reverseRecOn with
  | nil => exact ⟨rfl, rfl, by simp, by simp⟩
  | append_singleton l b ih => rw [feed_append]; exact fed_push b ih

section
variable (v : Variant) (n tms tdi : Nat) (s : State)

/-- A shift of `n` bits counts to `n` (R32, R119). -/
@[simp] theorem shiftFlat_bitCnt : (shiftFlat v n tms tdi s).engine.bitCnt = n := by
  rw [shiftFlat_engine, lastByte]
  simpa using (fed_feed tms tdi (shiftSamples v n tms tdi s)).count

/-- R118: a shift of `n` bits writes `ceil(n / 8)` bytes. -/
theorem shiftFlat_tdo_length : (shiftFlat v n tms tdi s).engine.tdo.length = byteCount n := by
  have h := (fed_feed tms tdi (shiftSamples v n tms tdi s)).bytes
  rw [shiftSamples_length] at h
  rw [shiftFlat_engine, lastByte, byteCount]
  by_cases h0 : n % 8 = 0
  · simp [h0, h]; omega
  · simp [h0, h]; omega

/-- R118: output bit `i` is sample `i`; bits of the last byte from `n` up are 0. -/
theorem shiftFlat_tdo_bit (i : Nat) :
    bufBit (shiftFlat v n tms tdi s).engine.tdo i = (shiftSamples v n tms tdi s).getD i false := by
  obtain ⟨-, hb, hw, hp⟩ := fed_feed tms tdi (shiftSamples v n tms tdi s)
  set sm := shiftSamples v n tms tdi s with hsm
  have hlen : sm.length = n := shiftSamples_length _ _ _ _ _
  rw [hlen] at hb hw hp
  set e := feed (freshEngine tms tdi) sm with he
  have hend : n ≤ i → sm.getD i false = false := fun h => by
    simp [List.getD_eq_getElem?_getD, List.getElem?_eq_none (hlen ▸ h)]
  rw [shiftFlat_engine, ← hsm, ← he, lastByte]
  by_cases h0 : n % 8 = 0
  · simp only [h0, if_true]
    by_cases hi : i < n
    · exact hw i (by omega)
    · rw [bufBit_past_end _ _ (by omega), hend (by omega)]
  · simp only [h0, if_false]
    by_cases hi : i < 8 * (n / 8)
    · rw [bufBit_append_left _ _ _ (by omega), hw i hi]
    · by_cases hi8 : i < 8 * (n / 8) + 8
      · rw [bufBit_append_right _ _ _ (by omega), hb]
        have e1 : (i - 8 * (n / 8)) / 8 = 0 := by omega
        have e2 : (i - 8 * (n / 8)) % 8 = i - 8 * (n / 8) := by omega
        simp only [bufBit, e1, e2, List.getD_cons_zero, BitVec.getLsbD_ushiftRight]
        by_cases hn : i < n
        · rw [hp (i - 8 * (n / 8)) (by omega)]; congr 1; omega
        · rw [hend (by omega)]; exact BitVec.getLsbD_of_ge _ _ (by omega)
      · rw [bufBit_past_end _ _ (by simp [hb]; omega), hend (by omega)]

end

end Sys2Proof.Machine
end

