-- ==== Sys2Proof/Laws/Decoding.lean ====
section
/-! SUPPORT. What the decoder of the command port does with each code (spec/30_encoding.md R71, R89). -/

namespace Sys2Proof

theorem code_cases : ∀ op : BitVec 4, op = 0 ∨ op = 1 ∨ op = 2 ∨ op = 3 ∨ op = 4 ∨ op = 5 ∨ op = 6 ∨ op = 7 ∨ op = 8 ∨
    op = 9 ∨ op = 10 ∨ op = 11 ∨ op = 12 ∨ op = 13 ∨ op = 14 ∨ op = 15 := by decide

/-- R89: a code of 8 or more selects nothing. -/
theorem decode_reserved (op : BitVec 4) (p : CmdPorts) (h : 8 ≤ op.toNat) :
    decode (.cmd op p) = .error (.reservedOpcode op) := by
  revert h
  rcases code_cases op with rfl | rfl | rfl | rfl | rfl | rfl | rfl | rfl | rfl | rfl | rfl | rfl | rfl | rfl | rfl | rfl <;>
    first | (intro h; rfl) | (intro h; exact absurd h (by decide))

/-- R71: a code below 8 selects the operation whose own command has that code. -/
theorem decode_selects (op : BitVec 4) (p : CmdPorts) (h : op.toNat < 8) :
    ∃ i q, decode (.cmd op p) = .ok i ∧ encode i = .cmd op q := by
  revert h
  rcases code_cases op with rfl | rfl | rfl | rfl | rfl | rfl | rfl | rfl | rfl | rfl | rfl | rfl | rfl | rfl | rfl | rfl <;>
    first | (intro h; exact ⟨_, _, rfl, rfl⟩) | (intro h; exact absurd h (by decide))

end Sys2Proof
end

