-- ==== Sys2Proof/Laws/Frames.lean ====
section
/-! SUPPORT. The two frames as numbers and as bits (spec/30_encoding.md R78, R82): a bit set above everything already in the scratch
adds its power of two. -/

namespace Sys2Proof.Machine

theorem filled_eq : filled = 0#64 := rfl

theorem getLsbD_setBit (b : Word64) (p : Nat) (v : Bool) (i : Nat) :
    (setBit b p v).getLsbD i = if i = p ∧ i < 64 then v else b.getLsbD i := by
  have hp : (1#64 <<< p).getLsbD i = decide (i = p ∧ i < 64) := by
    simp only [BitVec.getLsbD_shiftLeft, BitVec.getLsbD_one]
    by_cases h : i < 64 <;> by_cases h' : i = p <;> (simp [h, h']; try omega)
  by_cases hc : i = p ∧ i < 64
  · cases v <;> simp [setBit, hc.1.symm, hc.2, -BitVec.getLsbD_eq_getElem]
  · rw [if_neg hc]
    cases v
    · simp only [setBit, Bool.false_eq_true, if_false, BitVec.getLsbD_and, BitVec.getLsbD_not, hp, hc, decide_false]
      by_cases h : i < 64
      · simp [h]
      · simp [BitVec.getLsbD_of_ge b i (by omega)]
    · simp only [setBit, if_true, BitVec.getLsbD_or, hp, hc, decide_false, Bool.or_false]

/-- Setting a bit above everything already there adds its power of two. -/
theorem toNat_setBit (b : Word64) (p : Nat) (v : Bool) (hp : p < 64) (hb : b.toNat < 2 ^ p) :
    (setBit b p v).toNat = b.toNat + v.toNat * 2 ^ p := by
  have e : b.toNat + v.toNat * 2 ^ p = 2 ^ p * v.toNat + b.toNat := by rw [Nat.mul_comm, Nat.add_comm]
  have hlt : b.toNat + v.toNat * 2 ^ p < 2 ^ 64 := by
    have : 2 ^ p * 2 ≤ 2 ^ 64 := by rw [← Nat.pow_succ]; exact Nat.pow_le_pow_right (by norm_num) hp
    cases v <;> simp <;> omega
  have key : setBit b p v = BitVec.ofNat 64 (b.toNat + v.toNat * 2 ^ p) := by
    apply BitVec.eq_of_getLsbD_eq
    intro i hi
    rw [getLsbD_setBit, BitVec.getLsbD_ofNat, e, Nat.testBit_two_pow_mul_add _ hb]
    by_cases h1 : i < p
    · have : ¬ (i = p ∧ i < 64) := by omega
      rw [if_neg this, if_pos h1]; simp [hi, BitVec.getLsbD]
    · have hz : b.getLsbD i = false := by
        rw [BitVec.getLsbD]; exact Nat.testBit_lt_two_pow (lt_of_lt_of_le hb (Nat.pow_le_pow_right (by norm_num) (by omega)))
      by_cases h2 : i = p
      · subst h2; cases v <;> simp [hi]
      · have h3 : i - p ≠ 0 := by omega
        have : v.toNat.testBit (i - p) = false := by
          cases v
          · simp
          · rw [Bool.toNat_true, ← Nat.pow_zero 2, Nat.testBit_two_pow]; simp; omega
        rw [if_neg (by simp [h2]), hz, if_neg h1, this]; simp
  rw [key, BitVec.toNat_ofNat, Nat.mod_eq_of_lt hlt]

theorem toNat_setBit_lt (b : Word64) (p : Nat) (v : Bool) (hp : p < 64) (hb : b.toNat < 2 ^ p) :
    (setBit b p v).toNat < 2 ^ (p + 1) := by
  rw [toNat_setBit b p v hp hb, Nat.pow_succ]; cases v <;> simp <;> omega

/-! ### The IR frame -/

/-- The cursor is in the scratch and nothing is set at or above it in TDI. -/
structure AtCursor (c : Cursor) (tdi p : Nat) : Prop where
  pos : c.p = p
  num : c.tdi.toNat = tdi
  low : tdi < 2 ^ p

theorem atCursor_put {c : Cursor} {tdi p : Nat} (v : Bool) (h : AtCursor c tdi p) (hp : p < 64) :
    AtCursor (advance 1 (putTdi v c)) (tdi + v.toNat * 2 ^ p) (p + 1) := by
  obtain ⟨rfl, rfl, hl⟩ := h
  refine ⟨rfl, toNat_setBit _ _ _ hp hl, ?_⟩
  have := toNat_setBit_lt _ _ v hp hl
  rwa [toNat_setBit _ _ _ hp hl] at this

theorem atCursor_skip {c : Cursor} {tdi p : Nat} (n : Nat) (h : AtCursor c tdi p) : AtCursor (advance n c) tdi (p + n) := by
  obtain ⟨rfl, rfl, hl⟩ := h
  exact ⟨rfl, rfl, lt_of_lt_of_le hl (Nat.pow_le_pow_right (by norm_num) (by omega))⟩

theorem atCursor_putTms {c : Cursor} {tdi p : Nat} (v : Bool) (h : AtCursor c tdi p) : AtCursor (putTms v c) tdi p := by
  obtain ⟨rfl, rfl, hl⟩ := h; exact ⟨rfl, rfl, hl⟩

theorem atCursor_ones (n : Nat) {c : Cursor} {tdi p : Nat} (h : AtCursor c tdi p) (hp : p + n ≤ 64) :
    AtCursor (putOnes n c) (tdi + (2 ^ n - 1) * 2 ^ p) (p + n) := by
  induction n generalizing c tdi p with
  | zero => simpa [putOnes] using h
  | succ n ih =>
    have h1 := ih (atCursor_put true h (by omega)) (by omega)
    have e : tdi + true.toNat * 2 ^ p + (2 ^ n - 1) * 2 ^ (p + 1) = tdi + (2 ^ (n + 1) - 1) * 2 ^ p := by
      have : 1 ≤ 2 ^ n := Nat.one_le_two_pow
      obtain ⟨k, hk⟩ : ∃ k, 2 ^ n = k + 1 := ⟨2 ^ n - 1, by omega⟩
      rw [Nat.pow_succ 2 n, Nat.pow_succ 2 p, hk]
      simp only [Bool.toNat_true, Nat.add_sub_cancel, one_mul]
      rw [show (k + 1) * 2 - 1 = 2 * k + 1 by omega]; ring
    rw [e, show p + 1 + n = p + (n + 1) by omega] at h1
    exact h1

theorem mod_two_pow_succ_bit (x n : Nat) : x % 2 ^ (n + 1) = x % 2 ^ n + (x.testBit n).toNat * 2 ^ n := by
  rw [Nat.pow_succ, Nat.mod_mul, Nat.testBit_eq_decide_div_mod_eq]
  rcases Nat.mod_two_eq_zero_or_one (x / 2 ^ n) with h | h <;> simp [h]

theorem shiftRight_mod_succ (x n : Nat) : x % 2 ^ (n + 1) = (x.testBit 0).toNat + 2 * ((x >>> 1) % 2 ^ n) := by
  have h : (x.testBit 0).toNat = x % 2 := by
    rw [Nat.testBit_zero]; rcases Nat.mod_two_eq_zero_or_one x with h | h <;> simp [h]
  rw [h, Nat.shiftRight_one, Nat.pow_succ, Nat.mul_comm (2 ^ n) 2, Nat.mod_mul]

theorem atCursor_instr (ins : BitVec 32) (k0 n : Nat) {c : Cursor} {tdi p : Nat} (h : AtCursor c tdi p) (hp : p + n ≤ 64) :
    AtCursor (putInstr ins k0 n c) (tdi + ((ins.toNat >>> k0) % 2 ^ n) * 2 ^ p) (p + n) := by
  induction n generalizing c tdi p k0 with
  | zero => simpa [putInstr, Nat.mod_one] using h
  | succ n ih =>
    have h1 := ih (k0 + 1) (atCursor_put (ins.getLsbD k0) h (by omega)) (by omega)
    have e : tdi + (ins.getLsbD k0).toNat * 2 ^ p + ((ins.toNat >>> (k0 + 1)) % 2 ^ n) * 2 ^ (p + 1) =
        tdi + ((ins.toNat >>> k0) % 2 ^ (n + 1)) * 2 ^ p := by
      rw [shiftRight_mod_succ, Nat.testBit_shiftRight, Nat.add_zero, ← Nat.shiftRight_add, BitVec.getLsbD, Nat.pow_succ]
      ring_nf
    rw [e, show p + 1 + n = p + (n + 1) by omega] at h1
    exact h1

/-- R78: the TDI number of an IR frame, and its length R77. -/
theorem encodeIr_atCursor (ins : BitVec 32) (len bb ba : Nat) (hl : 1 ≤ len) (h : irLength len bb ba ≤ 64) :
    AtCursor (encodeIr ins len bb ba)
      ((2 ^ bb - 1) * 2 ^ 4 + (ins.toNat % 2 ^ len) * 2 ^ (4 + bb) + (2 ^ ba - 1) * 2 ^ (4 + bb + len) +
        2 ^ (irLength len bb ba - 1)) (irLength len bb ba) := by
  simp only [irLength, Config.irFixedBits] at h ⊢
  obtain ⟨l, rfl⟩ : ∃ l, len = l + 1 := ⟨len - 1, by omega⟩
  have h0 : AtCursor irStart 0 4 := ⟨rfl, by simp [irStart, filled_eq], by norm_num⟩
  have h1 := atCursor_ones bb h0 (by omega)
  have h2 := atCursor_instr ins 0 l h1 (by omega)
  have hm : ins.toNat % 2 ^ (l + 1) = ins.toNat % 2 ^ l + (ins.getLsbD l).toNat * 2 ^ l := mod_two_pow_succ_bit _ _
  simp only [encodeIr, irTail, irTop, Nat.add_sub_cancel]
  by_cases hba : 0 < ba
  · obtain ⟨a, rfl⟩ : ∃ a, ba = a + 1 := ⟨ba - 1, by omega⟩
    rw [if_pos hba]
    have h3 := atCursor_put (ins.getLsbD l) h2 (by omega)
    have h4 := atCursor_ones a h3 (by omega)
    have h5 := atCursor_put true (atCursor_putTms true h4) (by omega)
    have h6 := atCursor_put true (atCursor_skip 1 (atCursor_putTms true h5)) (by omega)
    simp only [Nat.add_sub_cancel]
    convert h6 using 1
    · have hb : (2 ^ (a + 1) - 1) = (2 ^ a - 1) + 2 ^ a := by
        have : 1 ≤ 2 ^ a := Nat.one_le_two_pow
        rw [Nat.pow_succ]; omega
      rw [hm, hb, show 6 + bb + (l + 1) + (a + 1) - 1 = 4 + bb + l + 1 + a + 1 + 1 by omega]
      simp only [Nat.shiftRight_zero, Bool.toNat_true, Nat.pow_add]
      ring
    · omega
  · obtain rfl : ba = 0 := by omega
    rw [if_neg hba]
    have h5 := atCursor_put (ins.getLsbD l) (atCursor_putTms true h2) (by omega)
    have h6 := atCursor_put true (atCursor_skip 1 (atCursor_putTms true h5)) (by omega)
    convert h6 using 1
    · rw [hm, show 6 + bb + (l + 1) + 0 - 1 = 4 + bb + l + 1 + 1 by omega]
      simp only [Nat.shiftRight_zero, Bool.toNat_true, Nat.pow_add]
      ring
    · omega

theorem putOnes_tms (n : Nat) (c : Cursor) : (putOnes n c).tms = c.tms := by
  induction n generalizing c with
  | zero => rfl
  | succ n ih => rw [putOnes, ih]; rfl

theorem putInstr_tms (ins : BitVec 32) (k0 n : Nat) (c : Cursor) : (putInstr ins k0 n c).tms = c.tms := by
  induction n generalizing c k0 with
  | zero => rfl
  | succ n ih => rw [putInstr, ih]; rfl

/-- The TMS buffer of an IR frame: ones at bits 0, 1, `T - 3`, `T - 2` (R78). -/
def irTmsBits (total : Nat) : Word64 :=
  setBit (setBit (setBit (setBit filled 0 true) 1 true) (total - 3) true) (total - 2) true

theorem encodeIr_tms (ins : BitVec 32) (len bb ba : Nat) (hl : 1 ≤ len) (h : irLength len bb ba ≤ 64) :
    (encodeIr ins len bb ba).tms = irTmsBits (irLength len bb ba) := by
  simp only [irLength, Config.irFixedBits] at h ⊢
  obtain ⟨l, rfl⟩ : ∃ l, len = l + 1 := ⟨len - 1, by omega⟩
  have h0 : AtCursor irStart 0 4 := ⟨rfl, by simp [irStart, filled_eq], by norm_num⟩
  have h2 := atCursor_instr ins 0 l (atCursor_ones bb h0 (by omega)) (by omega)
  simp only [encodeIr, irTail, irTop, Nat.add_sub_cancel]
  by_cases hba : 0 < ba
  · obtain ⟨a, rfl⟩ : ∃ a, ba = a + 1 := ⟨ba - 1, by omega⟩
    rw [if_pos hba]
    have h4 := atCursor_ones a (atCursor_put (ins.getLsbD l) h2 (by omega)) (by omega)
    have p4 := h4.pos
    simp only [advance, putTdi, putTms, Nat.add_sub_cancel] at p4 ⊢
    rw [p4, putOnes_tms]
    simp only [putInstr_tms, putOnes_tms, irStart, irTmsBits]
    rw [show 6 + bb + (l + 1) + (a + 1) - 3 = 4 + bb + l + 1 + a by omega,
      show 6 + bb + (l + 1) + (a + 1) - 2 = 4 + bb + l + 1 + a + 1 by omega]
  · obtain rfl : ba = 0 := by omega
    rw [if_neg hba]
    have p2 := h2.pos
    simp only [advance, putTdi, putTms] at p2 ⊢
    rw [p2, putInstr_tms, putOnes_tms]
    simp only [irStart, irTmsBits]
    rw [show 6 + bb + (l + 1) + 0 - 3 = 4 + bb + l by omega, show 6 + bb + (l + 1) + 0 - 2 = 4 + bb + l + 1 by omega]

theorem irTmsBits_toNat (total : Nat) (h : 7 ≤ total) (h' : total ≤ 64) :
    (irTmsBits total).toNat = 3 + 3 * 2 ^ (total - 3) := by
  obtain ⟨k, rfl⟩ : ∃ k, total = k + 3 := ⟨total - 3, by omega⟩
  have e3 : (setBit (setBit filled 0 true) 1 true).toNat = 3 := by decide
  have l3 : (setBit (setBit filled 0 true) 1 true).toNat < 2 ^ k := by
    rw [e3]; calc 3 < 2 ^ 4 := by norm_num
      _ ≤ 2 ^ k := Nat.pow_le_pow_right (by norm_num) (by omega)
  have l4 := toNat_setBit_lt _ k true (by omega) l3
  rw [irTmsBits, show k + 3 - 3 = k by omega, show k + 3 - 2 = k + 1 by omega,
    toNat_setBit _ (k + 1) true (by omega) l4, toNat_setBit _ k true (by omega) l3, e3]
  simp only [Bool.toNat_true, Nat.pow_succ]; ring

/-! ### The DR frame -/

/-- R82: the TMS number of a DR frame. -/
theorem drTms_toNat (overlap : Bool) (db da : Nat) (h : 41 + db + da ≤ 64) :
    (drTms overlap db da).toNat = 1 + 3 * 2 ^ exitBit overlap db da := by
  have he : exitBit overlap db da + 1 < 64 := by cases overlap <;> simp [exitBit] <;> omega
  have he' : 1 ≤ exitBit overlap db da := by cases overlap <;> simp [exitBit] <;> omega
  have e1 : (setBit filled 0 true).toNat = 1 := by decide
  have l1 : (setBit filled 0 true).toNat < 2 ^ exitBit overlap db da := by
    rw [e1]; exact Nat.one_lt_two_pow (by omega)
  have l2 := toNat_setBit_lt _ _ true (by omega) l1
  rw [drTms, toNat_setBit _ _ true he l2, toNat_setBit _ _ true (by omega) l1, e1]
  simp only [Bool.toNat_true, Nat.pow_succ]; ring

theorem putField_toNat (pos n w : Nat) (x : BitVec w) (b : Word64) (hp : pos + n ≤ 64) (hb : b.toNat < 2 ^ pos) :
    (putField pos x.getLsbD n b).toNat = b.toNat + (x.toNat % 2 ^ n) * 2 ^ pos ∧
      (putField pos x.getLsbD n b).toNat < 2 ^ (pos + n) := by
  induction n with
  | zero => simpa [putField, Nat.mod_one] using hb
  | succ n ih =>
    obtain ⟨e, l⟩ := ih (by omega)
    rw [putField]
    refine ⟨?_, toNat_setBit_lt _ _ _ (by omega) l⟩
    rw [toNat_setBit _ _ _ (by omega) l, e, mod_two_pow_succ_bit, Nat.pow_add, BitVec.getLsbD]
    ring

/-- R82: the TDI number of a DR frame. -/
theorem drTdi_toNat (req : BitVec 3) (w : BitVec 32) (db da ic : Nat) (h : drLength db da ic ≤ 64) :
    (drTdi req w db da ic).toNat = req.toNat * 2 ^ (3 + db) + (if isRead req then 0 else w.toNat) * 2 ^ (6 + db) +
      2 ^ (drLength db da ic - 1) := by
  simp only [drLength, Config.drFixedBits] at h ⊢
  obtain ⟨e1, l1⟩ := putField_toNat (ackOffset db) 3 3 req filled (by simp [ackOffset, Config.drNavBits]; omega)
    (by rw [filled_eq]; simp)
  have hreq : req.toNat % 2 ^ 3 = req.toNat := Nat.mod_eq_of_lt req.isLt
  have hw : w.toNat % 2 ^ 32 = w.toNat := Nat.mod_eq_of_lt w.isLt
  have a3 : ackOffset db = 3 + db := by simp [ackOffset, Config.drNavBits, Nat.add_comm]
  have a6 : dataOffset db = 6 + db := by simp [dataOffset, Config.drNavBits, Config.headerBits]; omega
  rw [a3, hreq, filled_eq] at e1
  rw [a3, filled_eq] at l1
  simp only [BitVec.toNat_ofNat, Nat.zero_mod, Nat.zero_add] at e1
  have l1' : (putField (3 + db) req.getLsbD 3 0#64).toNat < 2 ^ (6 + db) := lt_of_lt_of_le l1 (Nat.pow_le_pow_right (by norm_num) (by omega))
  simp only [drTdi, a3, a6, filled_eq, Config.headerBits, Config.dataBits]
  rw [show 41 + db + da + ic - 1 = 40 + db + da + ic by omega]
  by_cases hr : isRead req
  · simp only [hr, if_true]
    rw [toNat_setBit _ _ true (by omega) (lt_of_lt_of_le l1' (Nat.pow_le_pow_right (by norm_num) (by omega))), e1]
    simp
  · simp only [hr, if_false, Bool.false_eq_true]
    obtain ⟨e2, l2⟩ := putField_toNat (6 + db) 32 32 w _ (by omega) l1'
    rw [toNat_setBit _ _ true (by omega) (lt_of_lt_of_le l2 (Nat.pow_le_pow_right (by norm_num) (by omega))), e2, e1, hw]
    simp

/-! ### The TMS strings bit by bit (spec/45_tap_state_machine.md R196) -/

theorem map_range_add (f : Nat → Bool) (a b : Nat) :
    (List.range (a + b)).map f = (List.range a).map f ++ (List.range b).map fun i => f (a + i) := by
  rw [List.range_add]; simp

theorem map_range_false (f : Nat → Bool) (n : Nat) (h : ∀ i, i < n → f i = false) :
    (List.range n).map f = List.replicate n false := by
  apply List.eq_replicate_iff.2
  refine ⟨by simp, fun b hb => ?_⟩
  obtain ⟨i, hi, rfl⟩ := List.mem_map.1 hb
  exact h i (by simpa using hi)

/-- TMS of an IR frame is 1 at exactly the bits 0, 1, `T - 3`, `T - 2`. -/
theorem getLsbD_irTmsBits (T i : Nat) (h : T ≤ 64) (h7 : 7 ≤ T) :
    (irTmsBits T).getLsbD i = decide (i < 2 ∨ i = T - 3 ∨ i = T - 2) := by
  simp only [irTmsBits, getLsbD_setBit, filled_eq]
  by_cases h1 : i = T - 2
  · simp [h1]; omega
  by_cases h2 : i = T - 3
  · simp [h2]; omega
  by_cases h3 : i = 1
  · simp [h3]
  by_cases h4 : i = 0
  · simp [h4]
  have : ¬ i < 2 := by omega
  simp [h1, h2, h3, h4, this]

/-- The TMS string of an IR frame of `k + 7` bits. -/
theorem irTms_list (k : Nat) (h : k + 7 ≤ 64) :
    (List.range (4 + k + 3)).map (irTmsBits (4 + k + 3)).getLsbD =
    [true, true, false, false] ++ List.replicate k false ++ [true, true, false] := by
  have g := fun i => getLsbD_irTmsBits (4 + k + 3) i (by omega) (by omega)
  rw [map_range_add, map_range_add, map_range_false (fun i => (irTmsBits (4 + k + 3)).getLsbD (4 + i)) k]
  · have r4 : List.range 4 = [0, 1, 2, 3] := rfl
    have r3 : List.range 3 = [0, 1, 2] := rfl
    simp only [r4, r3, List.map_cons, List.map_nil, g]
    congr 1
    · congr 1
      simp; omega
    · simp
  · intro i hi; rw [g]; simp; omega

/-- TMS of a DR frame is 1 at exactly bit 0, the Exit1 bit and the bit after it. -/
theorem getLsbD_drTms (o : Bool) (db da i : Nat) (h : 41 + db + da ≤ 64) :
    (drTms o db da).getLsbD i = decide (i = 0 ∨ i = exitBit o db da ∨ i = exitBit o db da + 1) := by
  have he : exitBit o db da ≤ 38 + db + da := by cases o <;> simp [exitBit]
  have he' : 1 ≤ exitBit o db da := by cases o <;> simp [exitBit] <;> omega
  simp only [drTms, getLsbD_setBit, filled_eq]
  by_cases h1 : i = exitBit o db da + 1
  · simp [h1]; omega
  by_cases h2 : i = exitBit o db da
  · simp [h2]; omega
  by_cases h3 : i = 0
  · simp [h3]
  simp [h1, h2, h3]

/-- The TMS string of a DR frame, with `k` zeros before Exit1 and `j` after Update. -/
theorem drTms_list (o : Bool) (db da ic k j : Nat) (h : 41 + db + da + ic ≤ 64) (hk : 3 + k = exitBit o db da)
    (hj : 3 + k + 2 + j = 41 + db + da + ic) : (List.range (41 + db + da + ic)).map (drTms o db da).getLsbD =
    [true, false, false] ++ List.replicate k false ++ [true, true] ++ List.replicate j false := by
  have g := fun i => getLsbD_drTms o db da i (by omega)
  rw [← hk] at g
  rw [← hj, map_range_add, map_range_add, map_range_add, map_range_false (fun i => (drTms o db da).getLsbD (3 + i)) k,
    map_range_false (fun i => (drTms o db da).getLsbD (3 + k + 2 + i)) j]
  · have r2 : List.range 2 = [0, 1] := rfl
    have r3 : List.range 3 = [0, 1, 2] := rfl
    simp only [r2, r3, List.map_cons, List.map_nil, g]
    congr 1; congr 1; congr 1
    · simp; omega
    · simp
  · intro i hi; rw [g]; simp; omega
  · intro i hi; rw [g]; simp; omega

end Sys2Proof.Machine
end

