-- ==== Sys2Proof/Laws/Exec.lean ====
section
/-! SUPPORT. When each operation completes and with which state, said once per operation: an operation is the checks of
spec/60_exceptions.md R213 followed by its effect. -/

namespace Sys2Proof.Machine

/-! ### Checks -/

theorem unlessRefused_next {checks : List (Option Refusal)} {t u : State} :
    unlessRefused checks t = .next u ↔ firstRefusal checks = none ∧ t = u := by
  unfold unlessRefused; split <;> simp_all

theorem unlessRefused_refused {checks : List (Option Refusal)} {t : State} {r : Refusal} :
    unlessRefused checks t = .refused r ↔ firstRefusal checks = some r := by
  unfold unlessRefused; split <;> simp_all

theorem firstRefusal_none {checks : List (Option Refusal)} : firstRefusal checks = none ↔ ∀ c ∈ checks, c = none := by
  induction checks with
  | nil => simp [firstRefusal]
  | cons c rest ih => cases c <;> simp [firstRefusal, ih]

theorem firstRefusal_some {checks : List (Option Refusal)} {r : Refusal} (h : firstRefusal checks = some r) :
    some r ∈ checks := by
  induction checks with
  | nil => simp [firstRefusal] at h
  | cons c rest ih => cases c <;> simp_all [firstRefusal]

/-- A check passes exactly when its condition does not hold. -/
theorem check_none {p : Prop} [Decidable p] {r : Refusal} : (if p then some r else none) = none ↔ ¬ p := by
  split <;> simp_all

theorem linesHeld_iff {s : State} : linesHeld s = true ↔ s.linesOwned = true ∧ s.repurposed = false := by
  simp [linesHeld]

theorem scanRefusal_none {s : State} : scanRefusal s = none ↔ ScanReady s := by
  unfold scanRefusal ScanReady
  cases s.profile.cfgValid <;> cases h : linesHeld s <;> simp_all [linesHeld]

theorem scanRefusal_some {s : State} {r : Refusal} (h : scanRefusal s = some r) :
    (r = .notConfigured ∧ s.profile.cfgValid = false) ∨
      (r = .linesNotOwned ∧ (s.linesOwned = false ∨ s.repurposed = true)) := by
  unfold scanRefusal at h
  cases hc : s.profile.cfgValid <;> cases hl : linesHeld s <;> cases ho : s.linesOwned <;>
    simp_all [linesHeld]

/-- While no scan may run, one of the two reasons is reported. -/
theorem scanRefusal_of_not_held {s : State} (h : linesHeld s = false) :
    scanRefusal s = some .notConfigured ∨ scanRefusal s = some .linesNotOwned := by
  unfold scanRefusal; cases s.profile.cfgValid <;> simp [h]

theorem bitCountRefusal_none {limit n : Nat} : bitCountRefusal limit n = none ↔ 1 ≤ n ∧ n ≤ limit := by
  rw [bitCountRefusal, check_none]; omega

theorem bitCountRefusal_some {limit n : Nat} (h : n = 0 ∨ limit < n) : bitCountRefusal limit n = some .badBitCount := by
  rw [bitCountRefusal, if_pos h]

theorem bufferRefusal_none {n : Nat} {tms tdi : List Byte} :
    bufferRefusal n tms tdi = none ↔ byteCount n ≤ tms.length ∧ byteCount n ≤ tdi.length := by
  simp [bufferRefusal, buffersHold, bufferHolds]

theorem exactBufferRefusal_none {n : Nat} {tms tdi : List Byte} :
    exactBufferRefusal n tms tdi = none ↔ tms.length = byteCount n ∧ tdi.length = byteCount n := by
  simp [exactBufferRefusal, buffersExact, bufferExact]

theorem one_le_splitLength (m k : Nat) : 1 ≤ splitLength m k := by simp only [splitLength, Config.headBits]; omega

/-! ### Operations -/

theorem execShiftU_next {n : Nat} {tms tdi : List Byte} {s t : State} : execShiftU n tms tdi s = .next t ↔
    (ScanReady s ∧ (1 ≤ n ∧ n ≤ 64) ∧ byteCount n ≤ tms.length ∧ byteCount n ≤ tdi.length) ∧
      flatFromBuffers .unthrottled n tms tdi s = t := by
  simp [execShiftU, unlessRefused_next, firstRefusal_none, flatChecks, scanRefusal_none, bitCountRefusal_none,
    bufferRefusal_none, Config.scratchBits]

theorem execShiftT_next {n : Nat} {tms tdi : List Byte} {s t : State} : execShiftT n tms tdi s = .next t ↔
    (ScanReady s ∧ (1 ≤ n ∧ n ≤ 64) ∧ byteCount n ≤ tms.length ∧ byteCount n ≤ tdi.length) ∧
      flatFromBuffers .throttled n tms tdi s = t := by
  simp [execShiftT, unlessRefused_next, firstRefusal_none, flatChecks, scanRefusal_none, bitCountRefusal_none,
    bufferRefusal_none, Config.scratchBits]

theorem execShiftDrU_next {m k : Nat} {tms tdi : List Byte} {s t : State} : execShiftDrU m k tms tdi s = .next t ↔
    (ScanReady s ∧ k < 8 ∧ splitLength m k ≤ 64 ∧ byteCount (splitLength m k) ≤ tms.length ∧ byteCount (splitLength m k) ≤ tdi.length) ∧
      splitFromBuffers .unthrottled m k tms tdi s = t := by
  simp [execShiftDrU, unlessRefused_next, firstRefusal_none, splitChecks, scanRefusal_none, bitCountRefusal_none,
    bufferRefusal_none, one_le_splitLength, Config.scratchBits]

theorem execShiftDrT_next {m k : Nat} {tms tdi : List Byte} {s t : State} : execShiftDrT m k tms tdi s = .next t ↔
    (ScanReady s ∧ k < 8 ∧ splitLength m k ≤ 64 ∧ byteCount (splitLength m k) ≤ tms.length ∧ byteCount (splitLength m k) ≤ tdi.length) ∧
      splitFromBuffers .throttled m k tms tdi s = t := by
  simp [execShiftDrT, unlessRefused_next, firstRefusal_none, splitChecks, scanRefusal_none, bitCountRefusal_none,
    bufferRefusal_none, one_le_splitLength, Config.scratchBits]

theorem execRawShift_next {n : Nat} {tms tdi : List Byte} {s t : State} : execRawShift n tms tdi s = .next t ↔
    (ScanReady s ∧ (1 ≤ n ∧ n ≤ 64) ∧ tms.length = byteCount n ∧ tdi.length = byteCount n) ∧
      flatFromBuffers .throttled n tms tdi s = t := by
  simp only [execRawShift, unlessRefused_next, firstRefusal_none, List.forall_mem_cons, scanRefusal_none, bitCountRefusal_none,
    exactBufferRefusal_none]
  simp [Config.rawMaxBits]

theorem execLoadInstruction_next {ins : BitVec 32} {len bb ba : Nat} {s t : State} :
    execLoadInstruction ins len bb ba s = .next t ↔
      (ScanReady s ∧ (1 ≤ len ∧ len ≤ 32) ∧ irLength len bb ba ≤ 64) ∧
        setResult .nothing (irScan ins len bb ba s) = t := by
  simp only [execLoadInstruction, unlessRefused_next, firstRefusal_none, List.forall_mem_cons, scanRefusal_none, check_none]
  simp [Config.irOperandBits, Config.scratchBits, Nat.one_le_iff_ne_zero]

theorem execTransfer_next {req : BitVec 3} {w : BitVec 32} {db da : Nat} {out : Option (List Byte)} {s t : State} :
    execTransfer req w db da out s = .next t ↔
      (ScanReady s ∧ drLength db da s.profile.idleCycles ≤ 64 ∧ outBufferOk out = true) ∧
        runTransfer req w db da out s = t := by
  simp only [execTransfer, unlessRefused_next, firstRefusal_none, List.forall_mem_cons, scanRefusal_none, check_none]
  simp [Config.scratchBits]

theorem execReconfigureIo_next {s t : State} : execReconfigureIo s = .next t ↔
    s.linesOwned = true ∧ setResult .nothing (takeIdleLevels s) = t := by
  simp [execReconfigureIo, unlessRefused_next, firstRefusal_none]

/-! ### What the shifts of the caller's buffers leave alone -/

section
variable (v : Variant) (n : Nat) (tms tdi : List Byte) (s : State)

theorem flatFromBuffers_scanFrame (h : 1 ≤ n) : ShiftFrame s (flatFromBuffers v n tms tdi s) := by
  simp [ShiftFrame, ScanFrame, flatFromBuffers, shiftFlat_lines v n _ _ s h]

theorem flatFromBuffers_trace : (flatFromBuffers v n tms tdi s).trace = s.trace ++
    scanEvents (waitEvents v s.profile) (bufBit tms) (bufBit tdi) 0 (shiftSamples v n (bufNat tms) (bufNat tdi) s) := by
  simp only [flatFromBuffers, returnTdo_trace, shiftFlat_trace]
  congr 2 <;> funext i <;> exact testBit_bufNat _ _

theorem flatFromBuffers_lines (h : 1 ≤ n) : (flatFromBuffers v n tms tdi s).lines =
    { s.lines with tck := true, tms := bufBit tms (n - 1), tdi := bufBit tdi (n - 1) } := by
  simp [flatFromBuffers, shiftFlat_lines v n _ _ s h, testBit_bufNat]

theorem splitFromBuffers_eq (m k : Nat) (hk : k < 8) :
    splitFromBuffers v m k tms tdi s = flatFromBuffers v (splitLength m k) tms tdi s := by
  simp only [splitFromBuffers, flatFromBuffers, shiftSplit_eq v m k _ _ s hk]

end

/-! ### One IR scan and one attempt of a DR scan -/

section
variable (ins : BitVec 32) (len bb ba : Nat) (s : State)

/-- The samples of an IR scan. -/
def irSamples : List Bool :=
  shiftSamples s.profile.variant (encodeIr ins len bb ba).p (encodeIr ins len bb ba).tms.toNat
    (encodeIr ins len bb ba).tdi.toNat (freshScratch (encodeIr ins len bb ba).tms (encodeIr ins len bb ba).tdi s)

theorem irScan_trace : (irScan ins len bb ba s).trace = s.trace ++
    scanEvents (waitEvents s.profile.variant s.profile) (encodeIr ins len bb ba).tms.getLsbD
      (encodeIr ins len bb ba).tdi.getLsbD 0 (irSamples ins len bb ba s) := by
  simp only [irScan, storeTdo_trace, shiftFlat_trace, freshScratch_trace, freshScratch_profile, irSamples]
  rfl

theorem irScan_frame (h : 1 ≤ (encodeIr ins len bb ba).p) : ShiftFrame s (irScan ins len bb ba s) := by
  simp [ShiftFrame, ScanFrame, irScan, shiftFlat_lines _ _ _ _ _ h, freshScratch]

end

section
variable (req : BitVec 3) (w : BitVec 32) (db da : Nat) (s : State)

/-- The samples of one attempt. -/
def drSamples : List Bool :=
  shiftSamples s.profile.variant (drLength db da s.profile.idleCycles) (drTms s.params.drExitOverlap db da).toNat
    (drTdi req w db da s.profile.idleCycles).toNat
    (freshScratch (drTms s.params.drExitOverlap db da) (drTdi req w db da s.profile.idleCycles) s)

@[simp] theorem drSamples_length : (drSamples req w db da s).length = drLength db da s.profile.idleCycles := by
  simp [drSamples]

theorem splitLength_of_total (total : Nat) (h : 8 ≤ total) : splitLength (bulkBytes total) (tailBits total) = total := by
  simp only [splitLength, bulkBytes, tailBits, Config.headBits]; omega

theorem drLength_ge (ic : Nat) : 41 ≤ drLength db da ic := by simp only [drLength, Config.drFixedBits]; omega

/-- The scan of one attempt is the flat shift of the whole frame (R123, R159). -/
theorem drAttempt_eq : drAttempt req w db da s =
    let t := storeTdo (shiftFlat s.profile.variant (drLength db da s.profile.idleCycles)
      (drTms s.params.drExitOverlap db da).toNat (drTdi req w db da s.profile.idleCycles).toNat
      (freshScratch (drTms s.params.drExitOverlap db da) (drTdi req w db da s.profile.idleCycles) s))
    { t with retry := { attempt := t.retry.attempt + 1, ack := decodeAck t.scratch.tdo db } } := by
  have h41 := drLength_ge db da s.profile.idleCycles
  simp only [drAttempt]
  rw [shiftSplit_eq _ _ _ _ _ _ (by simp only [tailBits]; omega), splitLength_of_total _ (by omega)]

@[simp] theorem drAttempt_params : (drAttempt req w db da s).params = s.params := by simp [drAttempt_eq]
@[simp] theorem drAttempt_profile : (drAttempt req w db da s).profile = s.profile := by simp [drAttempt_eq]
@[simp] theorem drAttempt_linesOwned : (drAttempt req w db da s).linesOwned = s.linesOwned := by simp [drAttempt_eq]
@[simp] theorem drAttempt_repurposed : (drAttempt req w db da s).repurposed = s.repurposed := by simp [drAttempt_eq]
@[simp] theorem drAttempt_ts : (drAttempt req w db da s).ts = s.ts := by simp [drAttempt_eq]
@[simp] theorem drAttempt_tsCaptured : (drAttempt req w db da s).tsCaptured = s.tsCaptured := by simp [drAttempt_eq]
@[simp] theorem drAttempt_queue : (drAttempt req w db da s).queue = s.queue := by simp [drAttempt_eq]
@[simp] theorem drAttempt_result : (drAttempt req w db da s).result = s.result := by simp [drAttempt_eq]
@[simp] theorem drAttempt_env_source : (drAttempt req w db da s).env.source = s.env.source := by simp [drAttempt_eq]
@[simp] theorem drAttempt_env_ticks : (drAttempt req w db da s).env.ticks = s.env.ticks := by simp [drAttempt_eq]
@[simp] theorem drAttempt_attempt : (drAttempt req w db da s).retry.attempt = s.retry.attempt + 1 := by
  simp [drAttempt_eq]
@[simp] theorem drAttempt_bitCnt : (drAttempt req w db da s).engine.bitCnt = drLength db da s.profile.idleCycles := by
  simp [drAttempt_eq]
@[simp] theorem drAttempt_scratch_tms : (drAttempt req w db da s).scratch.tms = drTms s.params.drExitOverlap db da := by
  simp [drAttempt_eq]
@[simp] theorem drAttempt_scratch_tdi :
    (drAttempt req w db da s).scratch.tdi = drTdi req w db da s.profile.idleCycles := by
  simp [drAttempt_eq]

theorem drAttempt_trace : (drAttempt req w db da s).trace = s.trace ++
    scanEvents (waitEvents s.profile.variant s.profile) (drTms s.params.drExitOverlap db da).getLsbD
      (drTdi req w db da s.profile.idleCycles).getLsbD 0 (drSamples req w db da s) := by
  simp only [drAttempt_eq, storeTdo_trace, shiftFlat_trace, freshScratch_trace, freshScratch_profile, drSamples]
  rfl

theorem drAttempt_lines : (drAttempt req w db da s).lines =
    { s.lines with
      tck := true
      tms := (drTms s.params.drExitOverlap db da).getLsbD (drLength db da s.profile.idleCycles - 1)
      tdi := (drTdi req w db da s.profile.idleCycles).getLsbD (drLength db da s.profile.idleCycles - 1) } := by
  have h41 := drLength_ge db da s.profile.idleCycles
  simp only [drAttempt_eq, storeTdo_lines]
  rw [shiftFlat_lines _ _ _ _ _ (by omega)]
  rfl

/-- `S_TDO` after an attempt holds its samples (R118, R160). -/
theorem drAttempt_tdo_bit (i : Nat) (h : i < drLength db da s.profile.idleCycles) :
    bufBit (drAttempt req w db da s).scratch.tdo i = (drSamples req w db da s).getD i false := by
  simp only [drAttempt_eq, storeTdo_scratch]
  rw [bufBit_append_left _ _ _ (by rw [shiftFlat_tdo_length, byteCount]; omega), shiftFlat_tdo_bit]
  rfl

theorem drAttempt_ack_eq : (drAttempt req w db da s).retry.ack = decodeAck (drAttempt req w db da s).scratch.tdo db := by
  simp [drAttempt_eq]

end

/-- R161, R162 in terms of the bits of the window. -/
theorem decodeAck_eq (tdo : List Byte) (db : Nat) (samples : List Bool)
    (h : ∀ j, j < 3 → bufBit tdo (db + 3 + j) = samples.getD (db + 3 + j) false) :
    decodeAck tdo db = ackOfScan db samples := by
  have h0 : (rawAckWindow tdo db).getLsbD 0 = samples.getD (db + 3) false := by
    rw [rawAckWindow, getLsbD_bufSlice]; exact h 0 (by norm_num)
  have h1 : (rawAckWindow tdo db).getLsbD 1 = samples.getD (db + 4) false := by
    rw [rawAckWindow, getLsbD_bufSlice]; exact h 1 (by norm_num)
  have h2 : (rawAckWindow tdo db).getLsbD 2 = samples.getD (db + 5) false := by
    rw [rawAckWindow, getLsbD_bufSlice]; exact h 2 (by norm_num)
  rw [decodeAck, ackOfScan, ← h0, ← h1, ← h2]
  generalize rawAckWindow tdo db = raw
  revert raw; decide

theorem drAttempt_ack (req : BitVec 3) (w : BitVec 32) (db da : Nat) (s : State) :
    (drAttempt req w db da s).retry.ack = ackOfScan db (drSamples req w db da s) := by
  rw [drAttempt_ack_eq]
  exact decodeAck_eq _ _ _ fun j hj =>
    drAttempt_tdo_bit req w db da s _ (by simp only [drLength, Config.drFixedBits]; omega)

end Sys2Proof.Machine
end

