-- ==== Sys2Proof/Laws/Transfer.lean ====
section
/-! SUPPORT. The retry loop, said once (spec/43_dr_transfer.md R160, R163, R164): which scans it makes, what ends it, what it leaves. -/

namespace Sys2Proof.Machine

/-- What every attempt keeps, the loop keeps. -/
theorem drAttempts_induct {req : BitVec 3} {w : BitVec 32} {db da : Nat} (P : State → Prop)
    (step : ∀ s, P s → P (drAttempt req w db da s)) (k : Nat) (s : State) (h : P s) :
    P (drAttempts req w db da k s) := by
  induction k generalizing s with
  | zero => exact step s h
  | succ k ih =>
    simp only [drAttempts]
    split
    · exact ih _ (step s h)
    · exact step s h

/-- What every attempt establishes from a state in which `P` holds, the loop establishes: there is at least one attempt. -/
theorem drAttempts_last {req : BitVec 3} {w : BitVec 32} {db da : Nat} (P Q : State → Prop)
    (keep : ∀ s, P s → P (drAttempt req w db da s)) (establish : ∀ s, P s → Q (drAttempt req w db da s))
    (k : Nat) (s : State) (h : P s) : Q (drAttempts req w db da k s) := by
  induction k generalizing s with
  | zero => exact establish s h
  | succ k ih =>
    simp only [drAttempts]
    split
    · exact ih _ (keep s h)
    · exact establish s h

/-- What the loop leaves unchanged. -/
def LoopFrame (s t : State) : Prop :=
  t.params = s.params ∧ t.profile = s.profile ∧ t.linesOwned = s.linesOwned ∧ t.repurposed = s.repurposed ∧ t.ts = s.ts ∧
  t.tsCaptured = s.tsCaptured ∧ t.queue = s.queue ∧ t.env.source = s.env.source ∧ t.env.ticks = s.env.ticks ∧
  t.lines.srst = s.lines.srst ∧ t.lines.trst = s.lines.trst ∧ t.lines.tdoInput = s.lines.tdoInput

theorem drAttempts_frame (req : BitVec 3) (w : BitVec 32) (db da k : Nat) (s : State) :
    LoopFrame s (drAttempts req w db da k s) := by
  refine drAttempts_induct (LoopFrame s) (fun t h => ?_) k s ?_
  · obtain ⟨h1, h2, h3, h4, h5, h6, h7, h8, h9, h10, h11, h12⟩ := h
    simp [LoopFrame, drAttempt_lines, *]
  · simp [LoopFrame]

/-- The last bit of a DR frame: TMS low, TDI high (R80 HOLD). -/
theorem drFrame_lastBit (overlap : Bool) (req : BitVec 3) (w : BitVec 32) (db da ic : Nat) (h : drLength db da ic ≤ 64) :
    (drTms overlap db da).getLsbD (drLength db da ic - 1) = false ∧
      (drTdi req w db da ic).getLsbD (drLength db da ic - 1) = true := by
  simp only [drLength, Config.drFixedBits] at h ⊢
  constructor
  · have he : exitBit overlap db da ≤ 38 + db + da := by cases overlap <;> simp [exitBit]
    rw [drTms, getLsbD_setBit, getLsbD_setBit, getLsbD_setBit, if_neg (by omega), if_neg (by omega), if_neg (by omega)]
    simp [filled_eq]
  · rw [drTdi, getLsbD_setBit, if_pos (by omega)]

theorem drAttempts_lines (req : BitVec 3) (w : BitVec 32) (db da k : Nat) (s : State)
    (h : drLength db da s.profile.idleCycles ≤ 64) :
    (drAttempts req w db da k s).lines = { s.lines with tck := true, tms := false, tdi := true } := by
  refine drAttempts_last (fun t => t.profile = s.profile ∧ t.lines.srst = s.lines.srst ∧ t.lines.trst = s.lines.trst ∧
    t.lines.tdoInput = s.lines.tdoInput) (fun t => t.lines = { s.lines with tck := true, tms := false, tdi := true })
    ?_ ?_ k s (by simp)
  · rintro t ⟨h1, h2, h3, h4⟩
    simp [drAttempt_lines, *]
  · rintro t ⟨h1, h2, h3, h4⟩
    obtain ⟨b1, b2⟩ := drFrame_lastBit t.params.drExitOverlap req w db da _ h
    rw [drAttempt_lines, h1, b1, b2]
    simp [h2, h3, h4]

/-- The scans a run of the loop made, the first first, and what they say of the state it ends in. -/
structure LoopScans (req : BitVec 3) (w : BitVec 32) (db da k : Nat) (s t : State) (scans : List (List Bool))
    (last : List Bool) : Prop where
  ends : scans.getLast? = some last
  bound : scans.length ≤ k + 1
  lengths : ∀ sc ∈ scans, sc.length = drLength db da s.profile.idleCycles
  trace : t.trace = s.trace ++ (scans.map (scanEvents (waitEvents s.profile.variant s.profile)
    (drTms s.params.drExitOverlap db da).getLsbD (drTdi req w db da s.profile.idleCycles).getLsbD 0)).flatten
  waits : ∀ sc ∈ scans.dropLast, ackOfScan db sc = s.params.ackWait
  exhausted : ackOfScan db last = s.params.ackWait → scans.length = k + 1
  ack : t.retry.ack = ackOfScan db last
  attempt : t.retry.attempt = s.retry.attempt + scans.length
  tdo : ∀ i, i < drLength db da s.profile.idleCycles → bufBit t.scratch.tdo i = last.getD i false

theorem loopScans_one (req : BitVec 3) (w : BitVec 32) (db da k : Nat) (s : State)
    (h : (drAttempt req w db da s).retry.ack ≠ s.params.ackWait ∨ k = 0) :
    LoopScans req w db da k s (drAttempt req w db da s) [drSamples req w db da s] (drSamples req w db da s) where
  ends := rfl
  bound := by simp
  lengths := by simp
  trace := by simp [drAttempt_trace]
  waits := by simp
  exhausted := by
    intro hw; rw [drAttempt_ack] at h
    rcases h with h | h
    · exact absurd hw h
    · simp [h]
  ack := drAttempt_ack _ _ _ _ _
  attempt := by simp
  tdo := drAttempt_tdo_bit _ _ _ _ _

/-- The loop makes between 1 and `k + 1` scans of the same frame; all but the last answered WAIT, and the last did not
unless it was the last allowed (R160, R163). -/
theorem drAttempts_scans (req : BitVec 3) (w : BitVec 32) (db da k : Nat) (s : State) :
    ∃ scans last, LoopScans req w db da k s (drAttempts req w db da k s) scans last := by
  induction k generalizing s with
  | zero => exact ⟨_, _, loopScans_one req w db da 0 s (.inr rfl)⟩
  | succ k ih =>
    simp only [drAttempts]
    split
    next hw =>
      obtain ⟨scans, last, hs⟩ := ih (drAttempt req w db da s)
      have hne : scans ≠ [] := by rintro rfl; simpa using hs.ends
      have hack : ackOfScan db (drSamples req w db da s) = s.params.ackWait := by
        simpa [isWait, drAttempt_ack] using hw
      refine ⟨drSamples req w db da s :: scans, last, ?_⟩
      refine ⟨?_, ?_, ?_, ?_, ?_, ?_, hs.ack, ?_, ?_⟩
      · rw [List.getLast?_cons, hs.ends]; rfl
      · have := hs.bound; simp; omega
      · intro sc hsc
        rcases List.mem_cons.1 hsc with rfl | hsc
        · simp
        · simpa using hs.lengths sc hsc
      · rw [hs.trace, drAttempt_trace]; simp
      · rw [List.dropLast_cons_of_ne_nil hne]
        intro sc hsc
        rcases List.mem_cons.1 hsc with rfl | hsc
        · exact hack
        · simpa using hs.waits sc hsc
      · intro hl
        have := hs.exhausted (by simpa using hl)
        simp [this]
      · rw [hs.attempt]; simp; omega
      · intro i hi; exact hs.tdo i (by simpa using hi)
    next hw =>
      refine ⟨_, _, loopScans_one req w db da (k + 1) s (.inl ?_)⟩
      simpa [isWait] using hw

/-- R166: the four bytes written to `out` are the samples of the data window, the first sample the least significant bit. -/
theorem writeOut_eq (out tdo : List Byte) (db n : Nat) (samples : List Bool) (hn : db + 38 ≤ n)
    (h : ∀ i, i < n → bufBit tdo i = samples.getD i false) :
    writeOut out (dataWindow tdo db) = outOfScan db samples out := by
  have byte (k : Nat) (hk : k < 4) : (dataWindow tdo db).extractLsb' (8 * k) 8 = dataByteOfScan db samples k := by
    apply BitVec.eq_of_getLsbD_eq
    intro j hj
    rw [BitVec.getLsbD_extractLsb', dataWindow, getLsbD_bufSlice, dataByteOfScan, BitVec.getLsbD_ofNat, testBit_bitsNat]
    have e : dataOffset db + (8 * k + j) = db + 6 + 8 * k + j := by
      simp only [dataOffset, Config.drNavBits, Config.headerBits]; omega
    have h32 : 8 * k + j < 32 := by omega
    rw [e, h _ (by omega)]
    simp [hj, h32, List.getD_eq_getElem?_getD]
  have b0 := byte 0 (by norm_num)
  have b1 := byte 1 (by norm_num)
  have b2 := byte 2 (by norm_num)
  have b3 := byte 3 (by norm_num)
  simp only [writeOut, leBytes32, outOfScan, ← b0, ← b1, ← b2, ← b3]

end Sys2Proof.Machine
end

