-- ==== Sys2Proof/Laws/Walk.lean ====
section
/-! SUPPORT. What the environment does in a shift: the oracle's answers in order (D29), the loop-back (spec/41_shift_engine.md R127), the
walk of the target's TAP controller and its data chain (spec/45_tap_state_machine.md R192, R195, R199, R202). -/

namespace Sys2Proof.Machine

/-! ### The oracle -/

theorem atSample_answers (v : Variant) (s : State) : (atSample v s).env.answers = s.env.answers := by
  cases h : s.lines.tck <;> simp [atSample, h]

theorem atSample_source (v : Variant) (s : State) : (atSample v s).env.source = s.env.source := by
  cases h : s.lines.tck <;> simp [atSample, h]

theorem cycleSample_oracle (v : Variant) (s : State) (b : Bool) (rest : List Bool) (h : s.env.source = .oracle)
    (ha : s.env.answers = b :: rest) : cycleSample v s = b := by
  simp [cycleSample, tdoLevel, atSample_source, atSample_answers, h, ha]

theorem bitCycle_answers_oracle (v : Variant) (s : State) (h : s.env.source = .oracle) :
    (bitCycle v s).env.answers = s.env.answers.tail := by
  have : (takeSample (atSample v s)).env.answers = s.env.answers.tail := by
    simp [takeSample, atSample_source, atSample_answers, h]
  simpa [bitCycle_eq] using this

theorem bitCycles_oracle (v : Variant) (n : Nat) (s : State) (h : s.env.source = .oracle) (hn : n ≤ s.env.answers.length) :
    scanSamples v n s = s.env.answers.take n ∧ (bitCycles v n s).env.answers = s.env.answers.drop n := by
  induction n generalizing s with
  | zero => simp [scanSamples, bitCycles]
  | succ n ih =>
    cases ha : s.env.answers with
    | nil => simp [ha] at hn
    | cons b rest =>
      have e := bitCycle_answers_oracle v s h
      have hn' : n ≤ (bitCycle v s).env.answers.length := by rw [e, ha]; simpa [ha] using hn
      obtain ⟨h1, h2⟩ := ih (bitCycle v s) (by simpa using h) hn'
      rw [e, ha] at h1 h2
      simp [scanSamples, bitCycles, h1, h2, cycleSample_oracle v s b rest h ha]

theorem shiftFlat_oracle (v : Variant) (n tms tdi : Nat) (s : State) (h : s.env.source = .oracle)
    (hn : n ≤ s.env.answers.length) :
    shiftSamples v n tms tdi s = s.env.answers.take n ∧
      (shiftFlat v n tms tdi s).env.answers = s.env.answers.drop n := by
  simpa [shiftSamples, shiftFlat] using bitCycles_oracle v n (loadEngine tms tdi s) (by simpa using h) (by simpa using hn)

/-! ### Loop-back -/

theorem cycleSample_loopback (v : Variant) (s : State) (h : s.env.source = .loopback) :
    cycleSample v s = s.engine.srTdi.testBit 0 := by
  simp only [cycleSample, tdoLevel, atSample_source, h]
  simp [atSample]

theorem bitCycles_loopback (v : Variant) (n : Nat) (s : State) (h : s.env.source = .loopback) (i : Nat) (hi : i < n) :
    (scanSamples v n s).getD i false = s.engine.srTdi.testBit i := by
  induction n generalizing s i with
  | zero => omega
  | succ n ih =>
    cases i with
    | zero => simpa [scanSamples] using cycleSample_loopback v s h
    | succ i =>
      have := ih (bitCycle v s) (by simpa using h) i (by omega)
      simpa [scanSamples, engineCycle, Nat.testBit_shiftRight, Nat.add_comm 1] using this

theorem shiftFlat_loopback (v : Variant) (n tms tdi : Nat) (s : State) (h : s.env.source = .loopback) (i : Nat) (hi : i < n) :
    (shiftSamples v n tms tdi s).getD i false = tdi.testBit i := by
  simpa [shiftSamples] using bitCycles_loopback v n (loadEngine tms tdi s) (by simpa using h) i hi

/-! ### The TAP controller -/

theorem range_succ_map {α : Type} (f : Nat → α) (n : Nat) :
    (List.range (n + 1)).map f = f 0 :: (List.range n).map fun i => f (i + 1) := by
  simp [List.range_succ_eq_map, Function.comp_def]

/-- From a high clock, each bit cycle moves the target's controller by its TMS bit (R192). -/
theorem bitCycles_tap (v : Variant) (n : Nat) (s : State) (h : s.lines.tck = true) :
    (bitCycles v n s).env.target.tap =
      tapAfter s.env.target.tap ((List.range n).map s.engine.srTms.testBit) := by
  induction n generalizing s with
  | zero => rfl
  | succ n ih =>
    have e : (fun i => s.engine.srTms.testBit (i + 1)) = (s.engine.srTms >>> 1).testBit := by
      funext i; rw [Nat.testBit_shiftRight, Nat.add_comm]
    rw [bitCycles, ih (bitCycle v s) (by simp), range_succ_map, e, bitCycle_target v s h]
    simp [tapAfter, engineCycle]

theorem shiftFlat_tap (v : Variant) (n tms tdi : Nat) (s : State) (h : s.lines.tck = true) :
    (shiftFlat v n tms tdi s).env.target.tap = tapAfter s.env.target.tap ((List.range n).map tms.testBit) := by
  simpa [shiftFlat, finishByte] using bitCycles_tap v n (loadEngine tms tdi s) (by simpa using h)

theorem tapAfter_eq_walk (s : TapState) (tms : List Bool) : tapAfter s tms = (tapWalk s tms).getLastD s := by
  induction tms generalizing s with
  | nil => rfl
  | cons b rest ih => simp only [tapAfter, List.foldl_cons, tapWalk, List.getLastD_cons] at ih ⊢; exact ih _

theorem tapWalk_append (s : TapState) (a b : List Bool) : tapWalk s (a ++ b) = tapWalk s a ++ tapWalk (tapAfter s a) b := by
  induction a generalizing s with
  | nil => rfl
  | cons t rest ih => simp [tapWalk, ih, tapAfter]

theorem shiftEdges_append (s : TapState) (a b : List Bool) :
    shiftEdges s (a ++ b) = shiftEdges s a + shiftEdges (tapAfter s a) b := by
  induction a generalizing s with
  | nil => simp [shiftEdges, tapAfter]
  | cons t rest ih => simp [shiftEdges, ih, tapAfter, Nat.add_assoc]

/-- A state that TMS 0 keeps: the walk stays there, and every edge is a shift edge or none is. -/
theorem tapWalk_stay (s : TapState) (n : Nat) (h : tapNext s false = s) :
    tapWalk s (List.replicate n false) = List.replicate n s ∧ tapAfter s (List.replicate n false) = s ∧
      shiftEdges s (List.replicate n false) = n * (isShiftState s).toNat := by
  induction n with
  | zero => simp [tapWalk, tapAfter, shiftEdges]
  | succ n ih =>
    obtain ⟨h1, h2, h3⟩ := ih
    simp only [tapAfter] at h2
    simp [List.replicate_succ, tapWalk, tapAfter, shiftEdges, h, h1, h2, h3]
    ring

/-! ### The data chain -/

/-- In Shift-DR with a high clock, the samples are the chain's bits from the one nearest TDO, as long as TMS stays 0 before
each of them (R199, R202). -/
theorem bitCycles_chain (v : Variant) (n : Nat) (s : State) (h : s.lines.tck = true) (hs : s.env.source = .target)
    (ht : s.env.target.tap = .shiftDr) (i : Nat) (hi : i < n) (hc : i < s.env.target.drChain.length)
    (hz : ∀ k, k < i → s.engine.srTms.testBit k = false) :
    (scanSamples v n s).getD i false = s.env.target.drChain.getD i false := by
  induction n generalizing s i with
  | zero => omega
  | succ n ih =>
    cases hch : s.env.target.drChain with
    | nil => simp [hch] at hc
    | cons b rest =>
      cases i with
      | zero =>
        have hf : (targetFall s.env.target).tdo = some b := by simp [targetFall, ht, hch]
        have e : (atSample v s).env.target.tdo = some b := by
          simp only [← hf]; simp [atSample, h, targetRise]
        simp [scanSamples, cycleSample, tdoLevel, atSample_source, hs, e]
      | succ i =>
        have e := bitCycle_target v s h
        have etap : (bitCycle v s).env.target.tap = .shiftDr := by
          simpa [e, ht, tapNext] using congrArg (tapNext .shiftDr) (hz 0 (by omega))
        have ech : (bitCycle v s).env.target.drChain = rest ++ [s.engine.srTdi.testBit 0] := by
          simp [e, targetRise, ht, chainShift, hch]
        have hlen : i < rest.length := by simp [hch] at hc; omega
        have := ih (bitCycle v s) (by simp) (by simpa using hs) etap i (by omega) (by rw [ech]; simp; omega)
          (fun k hk => by
            have := hz (k + 1) (by omega)
            simpa [engineCycle, Nat.testBit_shiftRight, Nat.add_comm 1] using this)
        rw [ech] at this
        simpa [scanSamples, List.getD_eq_getElem?_getD, List.getElem?_append_left hlen] using this

/-- A DR scan from Run-Test/Idle: the samples from cycle 3 on are the captured value (R202). -/
theorem shiftFlat_captured (v : Variant) (n tms tdi : Nat) (s : State) (h : s.lines.tck = true)
    (hs : s.env.source = .target) (ht : s.env.target.tap = .runTestIdle) (path : List Captured)
    (later : List (List Captured)) (hcap : s.env.drCaptures = path :: later) (h0 : tms.testBit 0 = true) (i : Nat) (hi : 3 + i < n) (hc : i < (pathBits path).length)
    (hz : ∀ k, 1 ≤ k → k < 3 + i → tms.testBit k = false) :
    (shiftSamples v n tms tdi s).getD (3 + i) false = (pathBits path).getD i false := by
  obtain ⟨m, rfl⟩ : ∃ m, n = m + 3 := ⟨n - 3, by omega⟩
  set s0 := loadEngine tms tdi s with hs0
  set s1 := bitCycle v s0 with hs1
  set s2 := bitCycle v s1 with hs2
  set s3 := bitCycle v s2 with hs3
  have hk : ∀ k x : Nat, (x >>> 1).testBit k = x.testBit (k + 1) := fun k x => by rw [Nat.testBit_shiftRight, Nat.add_comm]
  have t0 : s0.env.target.tap = .runTestIdle := by simpa [hs0] using ht
  have e1 := bitCycle_target v s0 (by simpa [hs0] using h)
  have t1 : s1.env.target.tap = .selectDrScan := by
    simp only [hs1, e1, targetRise_tap, envFall_target, targetFall_tap, t0]
    simp [hs0, h0, tapNext]
  have e2 := bitCycle_target v s1 (by simp [hs1])
  have t2 : s2.env.target.tap = .captureDr := by
    simp only [hs2, e2, targetRise_tap, envFall_target, targetFall_tap, t1]
    simp [hs1, hs0, engineCycle, hk, hz 1 (by omega) (by omega), tapNext]
  have c1 : s1.env.drCaptures = path :: later := by
    rw [hs1, bitCycle_drCaptures v s0 (by simpa [hs0] using h), t0]; simpa [hs0] using hcap
  have c2 : s2.env.drCaptures = path :: later := by
    rw [hs2, bitCycle_drCaptures v s1 (by simp [hs1]), t1]; simpa using c1
  have e3 := bitCycle_target v s2 (by simp [hs2])
  have t3 : s3.env.target.tap = .shiftDr := by
    simp only [hs3, e3, targetRise_tap, envFall_target, targetFall_tap, t2]
    simp [hs2, hs1, hs0, engineCycle, hk, hz 2 (by omega) (by omega), tapNext]
  have ch3 : s3.env.target.drChain = pathBits path := by
    simp [hs3, e3, targetRise, t2, drCapture, c2]
  have key := bitCycles_chain v m s3 (by simp [hs3]) (by simpa [hs3, hs2, hs1, hs0] using hs) t3 i (by omega)
    (by rw [ch3]; exact hc) (fun k hk' => by
      have := hz (k + 3) (by omega) (by omega)
      simpa [hs3, hs2, hs1, hs0, engineCycle, hk] using this)
  rw [ch3] at key
  rw [show 3 + i = i + 1 + 1 + 1 by omega]
  simpa [shiftSamples, scanSamples] using key

/-! ### Whole frames -/

/-- TMS 1, 1, 1, 1, 1, 0 leads to Run-Test/Idle from every state (R203). -/
theorem tapAfter_reset (s : TapState) : tapAfter s [true, true, true, true, true, false] = .runTestIdle := by
  cases s <;> rfl

/-- The IR frame leads from Run-Test/Idle back to it (R197). -/
theorem tapAfter_irFrame (k : Nat) :
    tapAfter .runTestIdle ([true, true, false, false] ++ List.replicate k false ++ [true, true, false]) = .runTestIdle := by
  have h := (tapWalk_stay .shiftIr k rfl).2.1
  simp only [tapAfter, List.foldl_append] at h ⊢
  rw [show [true, true, false, false].foldl tapNext .runTestIdle = .shiftIr from rfl, h]; rfl

/-- The DR frame leads from Run-Test/Idle back to it, with at least one bit after Update (R198). -/
theorem tapAfter_drFrame (k j : Nat) :
    tapAfter .runTestIdle ([true, false, false] ++ List.replicate k false ++ [true, true] ++ List.replicate (j + 1) false) =
      .runTestIdle := by
  have h := (tapWalk_stay .shiftDr k rfl).2.1
  have h' := (tapWalk_stay .runTestIdle j rfl).2.1
  simp only [tapAfter, List.foldl_append] at h h' ⊢
  rw [show [true, false, false].foldl tapNext .runTestIdle = .shiftDr from rfl, h, List.replicate_succ]
  exact h'

/-- An attempt with enough answers left takes the next `T_DR` of them (R160). -/
theorem drAttempt_oracle (req : BitVec 3) (w : BitVec 32) (db da : Nat) (s : State) (h : s.env.source = .oracle)
    (hn : drLength db da s.profile.idleCycles ≤ s.env.answers.length) :
    drSamples req w db da s = s.env.answers.take (drLength db da s.profile.idleCycles) ∧
      (drAttempt req w db da s).env.answers = s.env.answers.drop (drLength db da s.profile.idleCycles) := by
  obtain ⟨h1, h2⟩ := shiftFlat_oracle s.profile.variant (drLength db da s.profile.idleCycles)
    (drTms s.params.drExitOverlap db da).toNat (drTdi req w db da s.profile.idleCycles).toNat
    (freshScratch (drTms s.params.drExitOverlap db da) (drTdi req w db da s.profile.idleCycles) s)
    (by simpa using h) (by simpa using hn)
  exact ⟨by simpa [drSamples] using h1, by simpa [drAttempt_eq] using h2⟩

end Sys2Proof.Machine
end

