-- ==== Sys2Proof/Laws/Invariant.lean ====
section
/-! SUPPORT. The pin trace gives the levels (spec/00_scope.md R12, spec/10_state.md R37): what each shared operation does to both, so that the
invariant of Safety.lean is kept operation by operation; and the canonical form of `S_TDO`, which every buffer operation keeps. -/

namespace Sys2Proof.Machine

/-! ### Replaying a trace -/

theorem replayLevels_append (a b : List PinEvent) : replayLevels (a ++ b) = b.foldl levelsAfter (replayLevels a) := by
  simp [replayLevels]

theorem replay_waitEvents (v : Variant) (p : Profile) (l : Levels) : (waitEvents v p).foldl levelsAfter l = l := by
  cases v <;> rfl

/-- A bit cycle's events leave TCK high and TMS, TDI at its bits. -/
theorem replay_cycle (v : Variant) (p : Profile) (t d b : Bool) (l : Levels) :
    (cycleEvents (waitEvents v p) t d b).foldl levelsAfter l = { tck := true, tms := t, tdi := d } := by
  simp [cycleEvents, levelsAfter, replay_waitEvents]

/-- After at least one bit cycle the trace gives the levels, whatever it gave before. -/
theorem bitCycles_replay (v : Variant) (n : Nat) (s : State) (h : 1 ≤ n ∨ replayLevels s.trace = levelsOf s.lines) :
    replayLevels (bitCycles v n s).trace = levelsOf (bitCycles v n s).lines := by
  induction n generalizing s with
  | zero => simpa [bitCycles] using h
  | succ n ih =>
    refine ih (bitCycle v s) (.inr ?_)
    rw [bitCycle_trace, replayLevels_append, replay_cycle, bitCycle_lines]
    rfl

theorem shiftFlat_replay (v : Variant) (n tms tdi : Nat) (s : State) (h : 1 ≤ n) :
    replayLevels (shiftFlat v n tms tdi s).trace = levelsOf (shiftFlat v n tms tdi s).lines := by
  simpa [shiftFlat] using bitCycles_replay v n (loadEngine tms tdi s) (.inl h)

/-! ### The scratch stays whole -/

theorem freshTdo_length (draw : Nat) : (freshTdo draw).length = Config.scratchBytes := by simp [freshTdo]

/-- `S_TDO <- tdo` keeps the 8 bytes, for a shift of at most 64 bits. -/
theorem storeTdo_length (s : State) (h : s.scratch.tdo.length = Config.scratchBytes)
    (he : s.engine.tdo.length ≤ Config.scratchBytes) : (storeTdo s).scratch.tdo.length = Config.scratchBytes := by
  simp only [storeTdo_scratch, List.length_append, List.length_drop, h]; omega

theorem drAttempt_tdo_length (req : BitVec 3) (w : BitVec 32) (db da : Nat) (s : State)
    (h : drLength db da s.profile.idleCycles ≤ 64) :
    (drAttempt req w db da s).scratch.tdo.length = Config.scratchBytes := by
  rw [drAttempt_eq]
  refine storeTdo_length _ (by simpa using freshTdo_length _) ?_
  rw [shiftFlat_tdo_length, byteCount, Config.scratchBytes]; omega

theorem irScan_tdo_length (ins : BitVec 32) (len bb ba : Nat) (s : State) (h : (encodeIr ins len bb ba).p ≤ 64) :
    (irScan ins len bb ba s).scratch.tdo.length = Config.scratchBytes := by
  refine storeTdo_length _ (by simpa using freshTdo_length _) ?_
  rw [shiftFlat_tdo_length, byteCount, Config.scratchBytes]; omega

theorem drAttempt_replay (req : BitVec 3) (w : BitVec 32) (db da : Nat) (s : State) :
    replayLevels (drAttempt req w db da s).trace = levelsOf (drAttempt req w db da s).lines := by
  have h41 := drLength_ge db da s.profile.idleCycles
  have := shiftFlat_replay s.profile.variant (drLength db da s.profile.idleCycles) (drTms s.params.drExitOverlap db da).toNat
    (drTdi req w db da s.profile.idleCycles).toNat
    (freshScratch (drTms s.params.drExitOverlap db da) (drTdi req w db da s.profile.idleCycles) s) (by omega)
  simpa [drAttempt_eq] using this

/-! ### The invariant of a state that an operation has left mostly alone -/

/-- An operation keeps the invariant if it leaves parameters, profile and ownership alone, the scratch whole and the timestamp
fitting, counts at most 64 bits, and leaves TCK high with the levels its trace gives. -/
theorem inv_of_scan {s t : State} (h : Inv s) (hf : ScanFrame s t) (hr : replayLevels t.trace = levelsOf t.lines)
    (hk : t.lines.tck = true) (hb : t.engine.bitCnt ≤ Config.scratchBits) (hw : t.scratch.tdo.length = Config.scratchBytes)
    (ht : t.tsCaptured = true → t.params.timestampEnabled = true ∧ t.ts < 2 ^ t.params.timestampBits) : Inv t := by
  obtain ⟨h1, h2, h3, h4, h5, h6, h7, -, -⟩ := hf
  have hl : linesHeld t = linesHeld s := by simp [linesHeld, h3, h4]
  refine ⟨h1 ▸ h.codesDiffer, h2 ▸ h.variantMatchesTier, ?_, fun _ => hr, hb, hw, ht⟩
  intro hh
  obtain ⟨-, a, b, c⟩ := h.heldLevels (hl ▸ hh)
  exact ⟨hk, h5 ▸ a, h6 ▸ b, h7 ▸ c⟩

end Sys2Proof.Machine
end

