-- ==== Sys2Proof/Laws/PerInstr.lean ====
section
/-! SUPPORT. Statements about every instruction as syntax, one lemma per constructor: its row of spec/opcode_table.json. -/

namespace Sys2Proof.Laws.TableRow

/-- The format and the code an instruction's row gives it (spec/30_encoding.md R71, R73). -/
def codeOf : Instr → Bool × Nat
  | .init => (false, 0)
  | .fini => (false, 1)
  | .reconfigureIo => (false, 2)
  | .configure _ _ _ => (false, 3)
  | .rawShift _ _ _ => (false, 4)
  | .loadInstruction _ _ _ _ => (false, 5)
  | .transfer _ _ _ _ _ => (false, 6)
  | .getTimestamp => (false, 7)
  | .shiftU _ _ _ => (true, 0)
  | .shiftT _ _ _ => (true, 1)
  | .shiftDrU _ _ _ _ => (true, 2)
  | .shiftDrT _ _ _ _ => (true, 3)

/-- The format and the code of an issued word: CMD is false, ENG is true. -/
def issuedCode : IssueWord → Bool × Nat
  | .cmd op _ => (false, op.toNat)
  | .eng sel _ => (true, sel.toNat)

/-- The command that issues an instruction has the format and the code of its row, and decodes to it. -/
def Statement (i : Instr) : Prop := issuedCode (encode i) = codeOf i ∧ decode (encode i) = .ok i

theorem init : Statement .init := ⟨rfl, rfl⟩
theorem fini : Statement .fini := ⟨rfl, rfl⟩
theorem reconfigureIo : Statement .reconfigureIo := ⟨rfl, rfl⟩
theorem configure (f r c : Nat) : Statement (.configure f r c) := ⟨rfl, rfl⟩
theorem rawShift (n : Nat) (tms tdi : List Byte) : Statement (.rawShift n tms tdi) := ⟨rfl, rfl⟩
theorem loadInstruction (ins : BitVec 32) (len bb ba : Nat) : Statement (.loadInstruction ins len bb ba) := ⟨rfl, rfl⟩
theorem transfer (req : BitVec 3) (w : BitVec 32) (db da : Nat) (out : Option (List Byte)) :
    Statement (.transfer req w db da out) := ⟨rfl, rfl⟩
theorem getTimestamp : Statement .getTimestamp := ⟨rfl, rfl⟩
theorem shiftU (n : Nat) (tms tdi : List Byte) : Statement (.shiftU n tms tdi) := ⟨rfl, rfl⟩
theorem shiftT (n : Nat) (tms tdi : List Byte) : Statement (.shiftT n tms tdi) := ⟨rfl, rfl⟩
theorem shiftDrU (m t : Nat) (tms tdi : List Byte) : Statement (.shiftDrU m t tms tdi) := ⟨rfl, rfl⟩
theorem shiftDrT (m t : Nat) (tms tdi : List Byte) : Statement (.shiftDrT m t tms tdi) := ⟨rfl, rfl⟩

end Sys2Proof.Laws.TableRow
end

