-- ==== Sys2Proof/Laws/Scans.lean ====
section
/-! SUPPORT. What holds of every scan, said once (spec/60_exceptions.md R213, spec/70_reset_and_hazards.md R234). -/

namespace Sys2Proof.Machine

/-- Every scan is refused first of all for what the state lacks (R213). -/
theorem scan_refused {s : State} {r : Refusal} (h : scanRefusal s = some r) (i : Instr) (hi : isScan i = true) :
    exec i s = .refused r := by
  have key (rest : List (Option Refusal)) (t : State) : unlessRefused (scanRefusal s :: rest) t = .refused r := by
    simp [unlessRefused, firstRefusal, h]
  cases i <;> simp [isScan] at hi <;> exact key _ _

/-- While the lines are not held every scan is refused (R213). -/
theorem scan_refused_of_not_held {s : State} (h : linesHeld s = false) (i : Instr) (hi : isScan i = true) :
    exec i s = .refused .notConfigured ∨ exec i s = .refused .linesNotOwned :=
  (scanRefusal_of_not_held h).imp (fun e => scan_refused e i hi) fun e => scan_refused e i hi

/-- What every scan but TRANSFER leaves unchanged. -/
theorem scan_shiftFrame {i : Instr} {s t : State} (h : exec i s = .next t) (hi : isScan i = true)
   (hnt : ∀ req w db da out, i ≠ .transfer req w db da out) : ShiftFrame s t := by
  cases i with
  | configure f r c => simp [isScan] at hi
  | init => simp [isScan] at hi
  | fini => simp [isScan] at hi
  | getTimestamp => simp [isScan] at hi
  | reconfigureIo => simp [isScan] at hi
  | rawShift n a b => obtain ⟨⟨-, hn, -⟩, rfl⟩ := execRawShift_next.1 h; exact flatFromBuffers_scanFrame _ _ _ _ _ hn.1
  | shiftU n a b => obtain ⟨⟨-, hn, -⟩, rfl⟩ := execShiftU_next.1 h; exact flatFromBuffers_scanFrame _ _ _ _ _ hn.1
  | shiftT n a b => obtain ⟨⟨-, hn, -⟩, rfl⟩ := execShiftT_next.1 h; exact flatFromBuffers_scanFrame _ _ _ _ _ hn.1
  | shiftDrU m k a b =>
    obtain ⟨⟨-, hk, -⟩, rfl⟩ := execShiftDrU_next.1 h
    rw [splitFromBuffers_eq _ _ _ _ _ _ hk]
    exact flatFromBuffers_scanFrame _ _ _ _ _ (by simp [splitLength, Config.headBits]; omega)
  | shiftDrT m k a b =>
    obtain ⟨⟨-, hk, -⟩, rfl⟩ := execShiftDrT_next.1 h
    rw [splitFromBuffers_eq _ _ _ _ _ _ hk]
    exact flatFromBuffers_scanFrame _ _ _ _ _ (by simp [splitLength, Config.headBits]; omega)
  | loadInstruction a b c d =>
    obtain ⟨⟨-, hl, hf⟩, rfl⟩ := execLoadInstruction_next.1 h
    have := (encodeIr_atCursor a b c d hl.1 hf).pos
    have := irScan_frame a b c d s (by rw [this]; simp [irLength, Config.irFixedBits]; omega)
    simpa [ShiftFrame, ScanFrame] using this
  | transfer req w db da out => exact absurd rfl (hnt _ _ _ _ _)

end Sys2Proof.Machine
end

