-- ==== Sys2Proof/Laws/Target.lean ====
section
/-! SUPPORT. What a scan leaves in the target's registers (spec/45_tap_state_machine.md R199, R200): the chain after each part of a frame, and
what is latched in the Update state. -/

namespace Sys2Proof.Machine

theorem chainShift_eq (c : List Bool) (d : Bool) : chainShift c d = (c ++ [d]).drop 1 := by cases c <;> rfl

/-- One more bit before `n` others: shifting them in one by one is shifting them in together. -/
theorem drop_shift (c l : List Bool) (d : Bool) (n : Nat) : ((c ++ [d]).drop 1 ++ l).drop n = (c ++ d :: l).drop (n + 1) := by
  rw [← List.drop_append_of_le_length (by simp), List.drop_drop, List.append_assoc, Nat.add_comm 1 n]; rfl

theorem testBit_shiftRight_one (x k : Nat) : (x >>> 1).testBit k = x.testBit (k + 1) := by
  rw [Nat.testBit_shiftRight, Nat.add_comm]

theorem bitCycle_srTms_testBit (v : Variant) (s : State) (k : Nat) :
    (bitCycle v s).engine.srTms.testBit k = s.engine.srTms.testBit (k + 1) := by
  rw [bitCycle_engine]; exact testBit_shiftRight_one _ _

theorem bitCycle_srTdi_testBit (v : Variant) (s : State) (k : Nat) :
    (bitCycle v s).engine.srTdi.testBit k = s.engine.srTdi.testBit (k + 1) := by
  rw [bitCycle_engine]; exact testBit_shiftRight_one _ _

@[simp] theorem bitCycles_srTms (v : Variant) (n : Nat) (s : State) :
    (bitCycles v n s).engine.srTms = s.engine.srTms >>> n := by
  induction n generalizing s with
  | zero => rfl
  | succ n ih => rw [bitCycles, ih, bitCycle_engine, engineCycle, ← Nat.shiftRight_add, Nat.add_comm]

@[simp] theorem bitCycles_srTdi (v : Variant) (n : Nat) (s : State) :
    (bitCycles v n s).engine.srTdi = s.engine.srTdi >>> n := by
  induction n generalizing s with
  | zero => rfl
  | succ n ih => rw [bitCycles, ih, bitCycle_engine, engineCycle, ← Nat.shiftRight_add, Nat.add_comm]

theorem bitCycles_tck (v : Variant) (n : Nat) (s : State) (h : s.lines.tck = true) : (bitCycles v n s).lines.tck = true := by
  cases n with
  | zero => exact h
  | succ n => rw [bitCycles_lines]

/-! ### Paths of data registers -/

theorem capturedBits_length (c : Captured) : (capturedBits c).length = registerWidth (registerOf c) := by
  cases c <;> simp [capturedBits, registerWidth, registerOf]

theorem pathBits_length (path : List Captured) :
    (pathBits path).length = ((path.map registerOf).map registerWidth).sum := by
  induction path with
  | nil => rfl
  | cons c rest ih => simp only [pathBits] at ih; simp [pathBits, capturedBits_length, ih]

@[simp] theorem latchPath_length (path : List DataRegister) (chain : List Bool) :
    (latchPath path chain).length = path.length := by
  induction path generalizing chain with
  | nil => rfl
  | cons r rest ih => simp [latchPath, ih]

/-- A register of a path latches the chain bits at its place: those past the registers nearer TDO. -/
theorem latchPath_getElem? (path : List DataRegister) (chain : List Bool) (i : Nat) :
    (latchPath path chain)[i]? =
      path[i]?.map fun r => latchRegister r (chain.drop ((path.take i).map registerWidth).sum) := by
  induction path generalizing chain i with
  | nil => rfl
  | cons r rest ih =>
    cases i with
    | zero => simp [latchPath]
    | succ i => simp [latchPath, ih]

/-! ### One bit cycle in each state -/

/-- The data registers and their captures to come are the same. -/
structure SameDr (s t : State) : Prop where
  path : t.env.target.drPath = s.env.target.drPath
  chain : t.env.target.drChain = s.env.target.drChain
  reg : t.env.target.drReg = s.env.target.drReg
  captures : t.env.drCaptures = s.env.drCaptures

/-- The instruction register and its captures to come are the same. -/
structure SameIr (s t : State) : Prop where
  chain : t.env.target.irChain = s.env.target.irChain
  reg : t.env.target.irReg = s.env.target.irReg
  captures : t.env.irCaptures = s.env.irCaptures

theorem sameDr_trans {s t u : State} (a : SameDr s t) (b : SameDr t u) : SameDr s u :=
  ⟨b.path.trans a.path, b.chain.trans a.chain, b.reg.trans a.reg, b.captures.trans a.captures⟩

theorem sameIr_trans {s t u : State} (a : SameIr s t) (b : SameIr t u) : SameIr s u :=
  ⟨b.chain.trans a.chain, b.reg.trans a.reg, b.captures.trans a.captures⟩

section
variable (v : Variant) (s : State) (h : s.lines.tck = true)

include h

/-- A bit cycle moves the controller by its TMS bit (R192). -/
theorem bitCycle_tap : (bitCycle v s).env.target.tap = tapNext s.env.target.tap (s.engine.srTms.testBit 0) := by
  simp [bitCycle_target v s h]

/-- Outside Capture-DR, Shift-DR and Update-DR a bit cycle leaves the data registers alone. -/
theorem bitCycle_sameDr (h1 : s.env.target.tap ≠ .captureDr) (h2 : s.env.target.tap ≠ .shiftDr)
    (h3 : s.env.target.tap ≠ .updateDr) : SameDr s (bitCycle v s) := by
  constructor <;> simp [bitCycle_target v s h, bitCycle_drCaptures v s h, targetRise, targetFall, h1, h2, h3]

/-- Outside Capture-IR, Shift-IR and Update-IR a bit cycle leaves the instruction register alone. -/
theorem bitCycle_sameIr (h1 : s.env.target.tap ≠ .captureIr) (h2 : s.env.target.tap ≠ .shiftIr)
    (h3 : s.env.target.tap ≠ .updateIr) : SameIr s (bitCycle v s) := by
  constructor <;> simp [bitCycle_target v s h, bitCycle_irCaptures v s h, targetRise, targetFall, h1, h2, h3]

/-- Capture-DR loads the chain (R199). -/
theorem bitCycle_captureDr (ht : s.env.target.tap = .captureDr) (path : List Captured) (later : List (List Captured))
    (hc : s.env.drCaptures = path :: later) :
    (bitCycle v s).env.target.drPath = path.map registerOf ∧ (bitCycle v s).env.target.drChain = pathBits path ∧
      (bitCycle v s).env.target.drReg = s.env.target.drReg ∧ (bitCycle v s).env.drCaptures = later := by
  simp [bitCycle_target v s h, bitCycle_drCaptures v s h, targetRise, targetFall, ht, hc, drCapture]

/-- Capture-IR loads the chain (R199). -/
theorem bitCycle_captureIr (ht : s.env.target.tap = .captureIr) (c : List Bool) (later : List (List Bool))
    (hc : s.env.irCaptures = c :: later) :
    (bitCycle v s).env.target.irChain = c ∧ (bitCycle v s).env.target.irReg = s.env.target.irReg := by
  simp [bitCycle_target v s h, targetRise, targetFall, ht, hc, irCapture]

/-- Update-DR latches the chain into the registers of the path (R199). -/
theorem bitCycle_updateDr (ht : s.env.target.tap = .updateDr) :
    (bitCycle v s).env.target.drReg = latchPath s.env.target.drPath s.env.target.drChain ∧
      (bitCycle v s).env.drCaptures = s.env.drCaptures := by
  simp [bitCycle_target v s h, bitCycle_drCaptures v s h, targetRise, targetFall, ht]

/-- Update-IR latches the chain (R199). -/
theorem bitCycle_updateIr (ht : s.env.target.tap = .updateIr) :
    (bitCycle v s).env.target.irReg = s.env.target.irChain := by
  simp [bitCycle_target v s h, targetRise, targetFall, ht]

/-- One shift edge (R199). -/
theorem bitCycle_shiftDr (ht : s.env.target.tap = .shiftDr) :
    (bitCycle v s).env.target.drPath = s.env.target.drPath ∧
      (bitCycle v s).env.target.drChain = (s.env.target.drChain ++ [s.engine.srTdi.testBit 0]).drop 1 ∧
      (bitCycle v s).env.target.drReg = s.env.target.drReg ∧ (bitCycle v s).env.drCaptures = s.env.drCaptures := by
  simp [bitCycle_target v s h, bitCycle_drCaptures v s h, targetRise, targetFall, ht, chainShift_eq]

theorem bitCycle_shiftIr (ht : s.env.target.tap = .shiftIr) :
    (bitCycle v s).env.target.irChain = (s.env.target.irChain ++ [s.engine.srTdi.testBit 0]).drop 1 := by
  simp [bitCycle_target v s h, targetRise, targetFall, ht, chainShift_eq]

end

/-! ### Runs of bit cycles in one state -/

/-- In Run-Test/Idle with TMS low nothing happens to the registers. -/
theorem bitCycles_idle (v : Variant) (n : Nat) (s : State) (h : s.lines.tck = true) (ht : s.env.target.tap = .runTestIdle)
    (hz : ∀ k, k < n → s.engine.srTms.testBit k = false) : SameDr s (bitCycles v n s) ∧ SameIr s (bitCycles v n s) := by
  induction n generalizing s with
  | zero => exact ⟨⟨rfl, rfl, rfl, rfl⟩, ⟨rfl, rfl, rfl⟩⟩
  | succ n ih =>
    have t1 : (bitCycle v s).env.target.tap = .runTestIdle := by rw [bitCycle_tap v s h, ht, hz 0 (by omega)]; rfl
    obtain ⟨a, b⟩ := ih (bitCycle v s) (by simp) t1 (fun k hk => by rw [bitCycle_srTms_testBit]; exact hz (k + 1) (by omega))
    exact ⟨sameDr_trans (bitCycle_sameDr v s h (by simp [ht]) (by simp [ht]) (by simp [ht])) a,
      sameIr_trans (bitCycle_sameIr v s h (by simp [ht]) (by simp [ht]) (by simp [ht])) b⟩

/-- `n + 1` edges taken in Shift-DR, the last with TMS high: the bits driven follow the chain, and as many bits have left it. -/
theorem bitCycles_shiftDr (v : Variant) (n : Nat) (s : State) (h : s.lines.tck = true) (ht : s.env.target.tap = .shiftDr)
    (hz : ∀ k, k < n → s.engine.srTms.testBit k = false) (h1 : s.engine.srTms.testBit n = true) :
    (bitCycles v (n + 1) s).env.target.tap = .exit1Dr ∧
      (bitCycles v (n + 1) s).env.target.drPath = s.env.target.drPath ∧
      (bitCycles v (n + 1) s).env.target.drChain =
        (s.env.target.drChain ++ (List.range (n + 1)).map s.engine.srTdi.testBit).drop (n + 1) ∧
      (bitCycles v (n + 1) s).env.drCaptures = s.env.drCaptures := by
  induction n generalizing s with
  | zero =>
    obtain ⟨a, b, -, d⟩ := bitCycle_shiftDr v s h ht
    exact ⟨by rw [bitCycles, bitCycles, bitCycle_tap v s h, ht, h1]; rfl, a, b, d⟩
  | succ n ih =>
    obtain ⟨a, b, -, d⟩ := bitCycle_shiftDr v s h ht
    have t1 : (bitCycle v s).env.target.tap = .shiftDr := by rw [bitCycle_tap v s h, ht, hz 0 (by omega)]; rfl
    obtain ⟨i1, i2, i3, i4⟩ := ih (bitCycle v s) (by simp) t1 (fun k hk => by rw [bitCycle_srTms_testBit]; exact hz (k + 1) (by omega))
      (by rw [bitCycle_srTms_testBit]; exact h1)
    have e : (bitCycle v s).engine.srTdi.testBit = fun i => s.engine.srTdi.testBit (i + 1) := by
      funext i; exact bitCycle_srTdi_testBit v s i
    refine ⟨i1, i2.trans a, ?_, i4.trans d⟩
    rw [bitCycles, i3, b, e, drop_shift, range_succ_map s.engine.srTdi.testBit (n + 1)]

/-- The same in Shift-IR, where the data registers are not touched. -/
theorem bitCycles_shiftIr (v : Variant) (n : Nat) (s : State) (h : s.lines.tck = true) (ht : s.env.target.tap = .shiftIr)
    (hz : ∀ k, k < n → s.engine.srTms.testBit k = false) (h1 : s.engine.srTms.testBit n = true) :
    (bitCycles v (n + 1) s).env.target.tap = .exit1Ir ∧
      (bitCycles v (n + 1) s).env.target.irChain =
        (s.env.target.irChain ++ (List.range (n + 1)).map s.engine.srTdi.testBit).drop (n + 1) ∧
      SameDr s (bitCycles v (n + 1) s) := by
  induction n generalizing s with
  | zero =>
    exact ⟨by rw [bitCycles, bitCycles, bitCycle_tap v s h, ht, h1]; rfl, bitCycle_shiftIr v s h ht,
      bitCycle_sameDr v s h (by simp [ht]) (by simp [ht]) (by simp [ht])⟩
  | succ n ih =>
    have t1 : (bitCycle v s).env.target.tap = .shiftIr := by rw [bitCycle_tap v s h, ht, hz 0 (by omega)]; rfl
    obtain ⟨i1, i2, i3⟩ := ih (bitCycle v s) (by simp) t1 (fun k hk => by rw [bitCycle_srTms_testBit]; exact hz (k + 1) (by omega))
      (by rw [bitCycle_srTms_testBit]; exact h1)
    have e : (bitCycle v s).engine.srTdi.testBit = fun i => s.engine.srTdi.testBit (i + 1) := by
      funext i; exact bitCycle_srTdi_testBit v s i
    refine ⟨i1, ?_, sameDr_trans (bitCycle_sameDr v s h (by simp [ht]) (by simp [ht]) (by simp [ht])) i3⟩
    rw [bitCycles, i2, bitCycle_shiftIr v s h ht, e, drop_shift, range_succ_map s.engine.srTdi.testBit (n + 1)]

/-! ### Whole frames from Run-Test/Idle -/

/-- The shape of a frame from Run-Test/Idle that enters a Shift state after `nav` bits, takes `k + 1` edges in it, and comes back. -/
structure FrameShape (nav k n : Nat) (tms : Nat → Bool) : Prop where
  low : ∀ i, i < k → tms (nav + i) = false
  exit : tms (nav + k) = true
  update : tms (nav + k + 1) = true
  idle : ∀ i, nav + k + 2 ≤ i → i < n → tms i = false
  fits : nav + k + 2 < n

/-- R199, R200: what a DR frame leaves in the data registers. -/
theorem shiftFlat_drReg (v : Variant) (n k tms tdi : Nat) (s : State) (h : s.lines.tck = true)
    (ht : s.env.target.tap = .runTestIdle) (path : List Captured) (later : List (List Captured))
    (hcap : s.env.drCaptures = path :: later) (h0 : tms.testBit 0 = true) (h1 : tms.testBit 1 = false)
    (h2 : tms.testBit 2 = false) (hf : FrameShape 3 k n tms.testBit) :
    (shiftFlat v n tms tdi s).env.target.drReg = latchPath (path.map registerOf)
        ((pathBits path ++ (List.range (k + 1)).map fun j => tdi.testBit (3 + j)).drop (k + 1)) ∧
      (shiftFlat v n tms tdi s).env.drCaptures = later := by
  obtain ⟨m, rfl⟩ : ∃ m, n = 3 + (k + 1) + 1 + 1 + m := ⟨n - (k + 6), by have := hf.fits; omega⟩
  set s0 := loadEngine tms tdi s with hs0
  set s1 := bitCycle v s0 with hs1
  set s2 := bitCycle v s1 with hs2
  set s3 := bitCycle v s2 with hs3
  set s4 := bitCycles v (k + 1) s3 with hs4
  set s5 := bitCycle v s4 with hs5
  set s6 := bitCycle v s5 with hs6
  have run : bitCycles v (3 + (k + 1) + 1 + 1 + m) s0 = bitCycles v m s6 := by
    rw [bitCycles_add, bitCycles_add, bitCycles_add, bitCycles_add]; rfl
  have c0 : s0.lines.tck = true := h
  have c1 : s1.lines.tck = true := by simp [hs1]
  have c2 : s2.lines.tck = true := by simp [hs2]
  have c3 : s3.lines.tck = true := by simp [hs3]
  have c4 : s4.lines.tck = true := bitCycles_tck v _ _ c3
  have c5 : s5.lines.tck = true := by simp [hs5]
  have c6 : s6.lines.tck = true := by simp [hs6]
  have r1 : s1.engine.srTms = tms >>> 1 := by simp [hs1, engineCycle, hs0]
  have r2 : s2.engine.srTms = tms >>> 2 := by simp [hs2, engineCycle, r1, ← Nat.shiftRight_add]
  have r3 : s3.engine.srTms = tms >>> 3 := by simp [hs3, engineCycle, r2, ← Nat.shiftRight_add]
  have d3 : s3.engine.srTdi = tdi >>> 3 := by simp [hs3, hs2, hs1, hs0, engineCycle, ← Nat.shiftRight_add]
  have r4 : s4.engine.srTms = tms >>> (3 + (k + 1)) := by rw [hs4, bitCycles_srTms, r3, ← Nat.shiftRight_add]
  have r5 : s5.engine.srTms = tms >>> (3 + (k + 1) + 1) := by
    simp only [hs5, bitCycle_engine, engineCycle, r4, ← Nat.shiftRight_add]
  have r6 : s6.engine.srTms = tms >>> (3 + (k + 1) + 1 + 1) := by
    simp only [hs6, bitCycle_engine, engineCycle, r5, ← Nat.shiftRight_add]
  have t0 : s0.env.target.tap = .runTestIdle := ht
  have t1 : s1.env.target.tap = .selectDrScan := by
    rw [hs1, bitCycle_tap v s0 c0, t0, show s0.engine.srTms.testBit 0 = true from h0]; rfl
  have t2 : s2.env.target.tap = .captureDr := by
    rw [hs2, bitCycle_tap v s1 c1, t1, r1, testBit_shiftRight_one, h1]; rfl
  have t3 : s3.env.target.tap = .shiftDr := by
    rw [hs3, bitCycle_tap v s2 c2, t2, r2, Nat.testBit_shiftRight, h2]; rfl
  have q1 := bitCycle_sameDr v s0 c0 (by simp [t0]) (by simp [t0]) (by simp [t0])
  have q2 := bitCycle_sameDr v s1 c1 (by simp [t1]) (by simp [t1]) (by simp [t1])
  obtain ⟨p3, ch3, -, cap3⟩ := bitCycle_captureDr v s2 c2 t2 path later ((q2.captures.trans q1.captures).trans hcap)
  obtain ⟨(t4 : s4.env.target.tap = .exit1Dr), p4, ch4, cap4⟩ := bitCycles_shiftDr v k s3 c3 t3
    (fun i hi => by rw [r3, Nat.testBit_shiftRight]; exact hf.low i hi) (by rw [r3, Nat.testBit_shiftRight]; exact hf.exit)
  have t5 : s5.env.target.tap = .updateDr := by
    rw [hs5, bitCycle_tap v s4 c4, t4, r4, Nat.testBit_shiftRight, Nat.add_zero, ← Nat.add_assoc, hf.update]; rfl
  have q5 := bitCycle_sameDr v s4 c4 (by simp [t4]) (by simp [t4]) (by simp [t4])
  obtain ⟨g6, cap6⟩ := bitCycle_updateDr v s5 c5 t5
  have t6 : s6.env.target.tap = .runTestIdle := by
    rw [hs6, bitCycle_tap v s5 c5, t5, r5, Nat.testBit_shiftRight, hf.idle _ (by omega) (by omega)]; rfl
  obtain ⟨q7, -⟩ := bitCycles_idle v m s6 c6 t6 fun i hi => by
    rw [r6, Nat.testBit_shiftRight]; exact hf.idle _ (by omega) (by omega)
  have e : s3.engine.srTdi.testBit = fun j => tdi.testBit (3 + j) := by
    funext j; rw [d3, Nat.testBit_shiftRight]
  refine ⟨?_, ?_⟩
  · simp only [shiftFlat, finishByte, ← hs0, run]
    rw [q7.reg, hs6, g6, hs5, q5.path, q5.chain, hs4, p4, ch4, e, hs3, p3, ch3]
  · simp only [shiftFlat, finishByte, ← hs0, run]
    rw [q7.captures, hs6, cap6, hs5, q5.captures, hs4, cap4, hs3, cap3]

/-- R199: what an IR frame leaves in the instruction register; the data registers are not touched. -/
theorem shiftFlat_irReg (v : Variant) (n k tms tdi : Nat) (s : State) (h : s.lines.tck = true)
    (ht : s.env.target.tap = .runTestIdle) (c : List Bool) (later : List (List Bool))
    (hcap : s.env.irCaptures = c :: later) (h0 : tms.testBit 0 = true) (h1 : tms.testBit 1 = true)
    (h2 : tms.testBit 2 = false) (h3 : tms.testBit 3 = false) (hf : FrameShape 4 k n tms.testBit) :
    (shiftFlat v n tms tdi s).env.target.irReg =
        (c ++ (List.range (k + 1)).map fun j => tdi.testBit (4 + j)).drop (k + 1) ∧
      (shiftFlat v n tms tdi s).env.target.drReg = s.env.target.drReg := by
  obtain ⟨m, rfl⟩ : ∃ m, n = 4 + (k + 1) + 1 + 1 + m := ⟨n - (k + 7), by have := hf.fits; omega⟩
  set s0 := loadEngine tms tdi s with hs0
  set s1 := bitCycle v s0 with hs1
  set s2 := bitCycle v s1 with hs2
  set s3 := bitCycle v s2 with hs3
  set s4 := bitCycle v s3 with hs4
  set s5 := bitCycles v (k + 1) s4 with hs5
  set s6 := bitCycle v s5 with hs6
  set s7 := bitCycle v s6 with hs7
  have run : bitCycles v (4 + (k + 1) + 1 + 1 + m) s0 = bitCycles v m s7 := by
    rw [bitCycles_add, bitCycles_add, bitCycles_add, bitCycles_add]; rfl
  have c0 : s0.lines.tck = true := h
  have c1 : s1.lines.tck = true := by simp [hs1]
  have c2 : s2.lines.tck = true := by simp [hs2]
  have c3 : s3.lines.tck = true := by simp [hs3]
  have c4 : s4.lines.tck = true := by simp [hs4]
  have c5 : s5.lines.tck = true := bitCycles_tck v _ _ c4
  have c6 : s6.lines.tck = true := by simp [hs6]
  have c7 : s7.lines.tck = true := by simp [hs7]
  have r1 : s1.engine.srTms = tms >>> 1 := by simp [hs1, engineCycle, hs0]
  have r2 : s2.engine.srTms = tms >>> 2 := by simp [hs2, engineCycle, r1, ← Nat.shiftRight_add]
  have r3 : s3.engine.srTms = tms >>> 3 := by simp [hs3, engineCycle, r2, ← Nat.shiftRight_add]
  have r4 : s4.engine.srTms = tms >>> 4 := by simp [hs4, engineCycle, r3, ← Nat.shiftRight_add]
  have d4 : s4.engine.srTdi = tdi >>> 4 := by simp [hs4, hs3, hs2, hs1, hs0, engineCycle, ← Nat.shiftRight_add]
  have r5 : s5.engine.srTms = tms >>> (4 + (k + 1)) := by rw [hs5, bitCycles_srTms, r4, ← Nat.shiftRight_add]
  have r6 : s6.engine.srTms = tms >>> (4 + (k + 1) + 1) := by
    simp only [hs6, bitCycle_engine, engineCycle, r5, ← Nat.shiftRight_add]
  have r7 : s7.engine.srTms = tms >>> (4 + (k + 1) + 1 + 1) := by
    simp only [hs7, bitCycle_engine, engineCycle, r6, ← Nat.shiftRight_add]
  have t0 : s0.env.target.tap = .runTestIdle := ht
  have t1 : s1.env.target.tap = .selectDrScan := by
    rw [hs1, bitCycle_tap v s0 c0, t0, show s0.engine.srTms.testBit 0 = true from h0]; rfl
  have t2 : s2.env.target.tap = .selectIrScan := by
    rw [hs2, bitCycle_tap v s1 c1, t1, r1, testBit_shiftRight_one, h1]; rfl
  have t3 : s3.env.target.tap = .captureIr := by
    rw [hs3, bitCycle_tap v s2 c2, t2, r2, Nat.testBit_shiftRight, h2]; rfl
  have t4 : s4.env.target.tap = .shiftIr := by
    rw [hs4, bitCycle_tap v s3 c3, t3, r3, Nat.testBit_shiftRight, h3]; rfl
  have q1 := bitCycle_sameIr v s0 c0 (by simp [t0]) (by simp [t0]) (by simp [t0])
  have q2 := bitCycle_sameIr v s1 c1 (by simp [t1]) (by simp [t1]) (by simp [t1])
  have q3 := bitCycle_sameIr v s2 c2 (by simp [t2]) (by simp [t2]) (by simp [t2])
  have w1 := bitCycle_sameDr v s0 c0 (by simp [t0]) (by simp [t0]) (by simp [t0])
  have w2 := bitCycle_sameDr v s1 c1 (by simp [t1]) (by simp [t1]) (by simp [t1])
  have w3 := bitCycle_sameDr v s2 c2 (by simp [t2]) (by simp [t2]) (by simp [t2])
  have w4 := bitCycle_sameDr v s3 c3 (by simp [t3]) (by simp [t3]) (by simp [t3])
  obtain ⟨ch4, -⟩ := bitCycle_captureIr v s3 c3 t3 c later
    (((q3.captures.trans q2.captures).trans q1.captures).trans hcap)
  obtain ⟨(t5 : s5.env.target.tap = .exit1Ir), ch5, w5⟩ := bitCycles_shiftIr v k s4 c4 t4
    (fun i hi => by rw [r4, Nat.testBit_shiftRight]; exact hf.low i hi) (by rw [r4, Nat.testBit_shiftRight]; exact hf.exit)
  have t6 : s6.env.target.tap = .updateIr := by
    rw [hs6, bitCycle_tap v s5 c5, t5, r5, Nat.testBit_shiftRight, Nat.add_zero, ← Nat.add_assoc, hf.update]; rfl
  have q6 := bitCycle_sameIr v s5 c5 (by simp [t5]) (by simp [t5]) (by simp [t5])
  have w6 := bitCycle_sameDr v s5 c5 (by simp [t5]) (by simp [t5]) (by simp [t5])
  have g7 := bitCycle_updateIr v s6 c6 t6
  have w7 := bitCycle_sameDr v s6 c6 (by simp [t6]) (by simp [t6]) (by simp [t6])
  have t7 : s7.env.target.tap = .runTestIdle := by
    rw [hs7, bitCycle_tap v s6 c6, t6, r6, Nat.testBit_shiftRight, hf.idle _ (by omega) (by omega)]; rfl
  obtain ⟨w8, q8⟩ := bitCycles_idle v m s7 c7 t7 fun i hi => by
    rw [r7, Nat.testBit_shiftRight]; exact hf.idle _ (by omega) (by omega)
  have e : s4.engine.srTdi.testBit = fun j => tdi.testBit (4 + j) := by
    funext j; rw [d4, Nat.testBit_shiftRight]
  refine ⟨?_, ?_⟩
  · simp only [shiftFlat, finishByte, ← hs0, run]
    rw [q8.reg, hs7, g7, hs6, q6.chain, hs5, ch5, e, hs4, ch4]
  · simp only [shiftFlat, finishByte, ← hs0, run]
    rw [w8.reg, w7.reg, w6.reg, w5.reg, w4.reg, w3.reg, w2.reg, w1.reg]; rfl

end Sys2Proof.Machine
end

