-- ==== Sys2Proof/Laws/Waits.lean ====
section
/-! SUPPORT. The two variants of the engine differ in waits alone (spec/40_speed_profile.md R104): bit cycles of either variant keep
two states alike but for the waits on their pin traces. -/

namespace Sys2Proof.Machine

/-- Two states that bit cycles cannot tell apart but for the waits on their traces. -/
structure AlikeButWaits (s u : State) : Prop where
  lines : s.lines = u.lines
  env : s.env = u.env
  draws : s.draws = u.draws
  engine : s.engine = u.engine
  trace : withoutWaits s.trace = withoutWaits u.trace

theorem withoutWaits_append (a b : List PinEvent) : withoutWaits (a ++ b) = withoutWaits a ++ withoutWaits b := by
  simp [withoutWaits]

/-- The events of a bit cycle but for its waits are the same in both variants (R104). -/
theorem withoutWaits_cycle (v : Variant) (p : Profile) (t d b : Bool) : withoutWaits (cycleEvents (waitEvents v p) t d b) =
    [.drive d t, .tck false, .tck true, .sample b] := by cases v <;> rfl

theorem alike_bitCycle {s u : State} (v v' : Variant) (h : AlikeButWaits s u) :
    AlikeButWaits (bitCycle v s) (bitCycle v' u) := by
  obtain ⟨h1, h2, h3, h4, h5⟩ := h
  have d : tdoLevel (atSample v s) = tdoLevel (atSample v' u) := by
    simp only [tdoLevel, atSample]; simp [h1, h2, h3, h4]; rfl
  have e : (atSample v s).env = (atSample v' u).env := by simp [atSample, h1, h2, h3, h4]; rfl
  have f : (atSample v s).draws = (atSample v' u).draws := by simp [atSample, h1, h2, h3, h4]; rfl
  have g : (takeSample (atSample v s)).env = (takeSample (atSample v' u)).env := by simp [takeSample, e]
  have l : (takeSample (atSample v s)).draws = (takeSample (atSample v' u)).draws := by simp [sampleDraws, e, f]
  refine ⟨by simp [h1, h4], by simpa [bitCycle_eq] using g, ?_, by simp [h4, cycleSample, d], ?_⟩
  · simpa [bitCycle_eq] using l
  · simp only [bitCycle_trace, withoutWaits_append, h5, h4, cycleSample, d, withoutWaits_cycle]

/-- Either variant keeps two states alike. -/
theorem alike_bitCycles (n : Nat) {s u : State} (v v' : Variant) (h : AlikeButWaits s u) :
    AlikeButWaits (bitCycles v n s) (bitCycles v' n u) := by
  induction n generalizing s u with
  | zero => exact h
  | succ n ih => exact ih (alike_bitCycle v v' h)

end Sys2Proof.Machine
end

