-- ==== Sys2Proof/Laws/Working.lean ====
section
/-! SUPPORT. The working registers carry nothing from one operation to the next (spec/10_state.md R22, R26, R32 to R34): what they held
before does not reach what a shift, a scan or a TRANSFER leaves elsewhere. -/

namespace Sys2Proof.Machine

/-- A state with other working registers. -/
def withWorking (a : Scratch) (e : EngineRegs) (r : RetryRegs) (s : State) :
    State := { s with scratch := a, engine := e, retry := r }

theorem bitCycle_other (v : Variant) (a : Scratch) (r : RetryRegs) (s : State) :
    bitCycle v { s with scratch := a, retry := r } = { bitCycle v s with scratch := a, retry := r } := by
  cases v <;> rfl

theorem bitCycles_other (v : Variant) (a : Scratch) (r : RetryRegs) (n : Nat) (s : State) :
    bitCycles v n { s with scratch := a, retry := r } = { bitCycles v n s with scratch := a, retry := r } := by
  induction n generalizing s with
  | zero => rfl
  | succ n ih => rw [bitCycles, bitCycle_other, ih]; rfl

theorem shiftFlat_other (v : Variant) (a : Scratch) (e : EngineRegs) (r : RetryRegs) (n tms tdi : Nat) (s : State) :
    shiftFlat v n tms tdi (withWorking a e r s) = { shiftFlat v n tms tdi s with scratch := a, retry := r } := by
  have : loadEngine tms tdi (withWorking a e r s) = { loadEngine tms tdi s with scratch := a, retry := r } := rfl
  rw [shiftFlat, this, bitCycles_other]; rfl

theorem storeTdo_other (v : Variant) (n tms tdi : Nat) (e : EngineRegs) (r : RetryRegs) (x : State) :
    storeTdo (shiftFlat v n tms tdi (withWorking x.scratch e r x)) =
    { storeTdo (shiftFlat v n tms tdi x) with retry := r } := by
  rw [shiftFlat_other]
  have hx : (shiftFlat v n tms tdi x).scratch = x.scratch := by simp
  rw [← hx]; rfl

theorem irScan_other (ins : BitVec 32) (len bb ba : Nat) (a : Scratch) (e : EngineRegs) (r : RetryRegs) (s : State) :
    irScan ins len bb ba (withWorking a e r s) = { irScan ins len bb ba s with retry := r } :=
  storeTdo_other _ _ _ _ _ _ (freshScratch (encodeIr ins len bb ba).tms (encodeIr ins len bb ba).tdi s)

theorem drAttempt_other (req : BitVec 3) (w : BitVec 32) (db da : Nat) (a : Scratch) (e : EngineRegs) (ack : BitVec 3)
    (s : State) :
    drAttempt req w db da (withWorking a e { s.retry with ack := ack } s) = drAttempt req w db da s := by
  have key := storeTdo_other s.profile.variant (drLength db da s.profile.idleCycles) (drTms s.params.drExitOverlap db da).toNat
    (drTdi req w db da s.profile.idleCycles).toNat e { s.retry with ack := ack }
    (freshScratch (drTms s.params.drExitOverlap db da) (drTdi req w db da s.profile.idleCycles) s)
  have h3 (v : Variant) (n a b : Nat) (x y : Word64) :
      (storeTdo (shiftFlat v n a b (freshScratch x y s))).retry.attempt = s.retry.attempt := by simp
  simp only [drAttempt_eq]
  refine Eq.trans (congrArg (fun t : State =>
    { t with retry := { attempt := t.retry.attempt + 1, ack := decodeAck t.scratch.tdo db } }) key) ?_
  simp only [h3]

theorem drAttempts_other (req : BitVec 3) (w : BitVec 32) (db da : Nat) (a : Scratch) (e : EngineRegs) (ack : BitVec 3)
    (k : Nat) (s : State) :
    drAttempts req w db da k (withWorking a e { s.retry with ack := ack } s) = drAttempts req w db da k s := by
  cases k <;> simp only [drAttempts, drAttempt_other]

theorem runTransfer_other (req : BitVec 3) (w : BitVec 32) (db da : Nat) (out : Option (List Byte)) (a : Scratch) (e : EngineRegs)
    (r : RetryRegs) (s : State) :
    runTransfer req w db da out (withWorking a e r s) = runTransfer req w db da out s := by
  have : clearAttempts (snapshotTicks (withWorking a e r s)) =
    withWorking a e { (clearAttempts (snapshotTicks s)).retry with ack := r.ack } (clearAttempts (snapshotTicks s)) := rfl
  simp only [runTransfer, this, drAttempts_other]; rfl

theorem mapNext_unlessRefused (checks : List (Option Refusal)) (t u : State) (h : clearWorking t = clearWorking u) :
    mapNext clearWorking (unlessRefused checks t) = mapNext clearWorking (unlessRefused checks u) := by
  unfold unlessRefused; split <;> simp [mapNext, h]

theorem flatFromBuffers_other (v : Variant) (n : Nat) (tms tdi : List Byte) (a : Scratch) (e : EngineRegs)
    (r : RetryRegs) (s : State) :
    clearWorking (flatFromBuffers v n tms tdi (withWorking a e r s)) = clearWorking (flatFromBuffers v n tms tdi s) := by
  simp only [flatFromBuffers, shiftFlat_other]; rfl

theorem splitFromBuffers_other (v : Variant) (m k : Nat) (tms tdi : List Byte) (a : Scratch) (e : EngineRegs)
    (r : RetryRegs) (s : State) :
    clearWorking (splitFromBuffers v m k tms tdi (withWorking a e r s)) = clearWorking (splitFromBuffers v m k tms tdi s) := by
  have : loadEngine (bufNat tms) (bufNat tdi) (withWorking a e r s) =
      { loadEngine (bufNat tms) (bufNat tdi) s with scratch := a, retry := r } := rfl
  simp only [splitFromBuffers, shiftSplit, this, bitCycles_other]; rfl

end Sys2Proof.Machine
end

