-- ==== Sys2Proof/Tests/Slice0.lean ====
section
/-! SUPPORT. Tests of single steps against spec/95_test_vectors.md and the worked examples of the rules, the decoding of a word of every
row written out from spec/30_encoding.md R71 and R73, an ill-formed term for each check of WellFormed, and for every statement of
Certificates/Slice0/Obligations.lean with hypotheses a state and operands that meet them. -/

namespace Sys2Proof.Tests

open Sys2Proof.Machine

set_option maxRecDepth 100000

/-! ### Builders -/

/-- A state with the lines held at their idle levels and a throttled profile of tier B. -/
def ready (idle retries : Nat) (answers : List Bool) : State :=
  { State.reset with
    profile := { cfgValid := true, variant := .throttled, tier := .b, delayTicks := 7, idleCycles := idle, retryLimit := retries }
    linesOwned := true
    lines := idleLevels
    trace := [.idle]
    env := { State.reset.env with answers := answers } }

/-- The same with TDO wired to TDI. -/
def looped : State := { ready 0 0 [] with env := { State.reset.env with source := .loopback } }

/-- The same with the timestamp feature as given and these readings of the tick counter. -/
def stamped (enabled : Bool) (ticks : List Nat) : State :=
  { ready 0 0 (List.replicate 41 true) with
    params := { State.reset.params with timestampEnabled := enabled, timestampBits := 16 }
    env := { State.reset.env with answers := List.replicate 41 true, ticks := ticks } }

/-- The same with a standard target on TDO, its TAP in Run-Test/Idle, whose data registers capture `path`. -/
def wired (path : List Captured) : State :=
  { ready 0 0 [] with
    env := { State.reset.env with
      source := .target, drCaptures := [path], irCaptures := [List.replicate 7 false], target := { State.reset.env.target with tap := .runTestIdle } } }

/-- The first `n` bits of a number, bit 0 first. -/
def bits (n x : Nat) : List Bool := (List.range n).map x.testBit

/-- What an outcome shows of its next state. -/
def seen {α : Type} (f : State → α) : Host.Outcome State Fault Refusal → Option α
  | .next s => some (f s)
  | .fault _ => none
  | .refused _ => none

/-- The refusal of an outcome. -/
def refusal : Host.Outcome State Fault Refusal → Option Refusal
  | .next _ => none
  | .fault _ => none
  | .refused r => some r

/-! ### Decoding (spec/30_encoding.md R71, R73) -/

theorem test_decode_init : decode (.cmd 0b0000 cmdPortsZero) = .ok .init := by decide
theorem test_decode_fini : decode (.cmd 0b0001 cmdPortsZero) = .ok .fini := by decide
theorem test_decode_reconfigureIo : decode (.cmd 0b0010 cmdPortsZero) = .ok .reconfigureIo := by decide
theorem test_decode_configure :
    decode (.cmd 0b0011 { cmdPortsZero with frequencyKHz := 1000, retryLimit := 3, idleCycles := 2 }) =
      .ok (.configure 1000 3 2) := by decide
theorem test_decode_rawShift :
    decode (.cmd 0b0100 { cmdPortsZero with bitCount := 6, tms := [0x1F], tdi := [0x00] }) =
      .ok (.rawShift 6 [0x1F] [0x00]) := by decide
theorem test_decode_loadInstruction :
    decode (.cmd 0b0101 { cmdPortsZero with instruction := 0b1110, registerLength := 4, bypassBefore := 1, bypassAfter := 2 }) =
      .ok (.loadInstruction 0b1110 4 1 2) := by decide
theorem test_decode_transfer :
    decode (.cmd 0b0110 { cmdPortsZero with request := 0b100, value := 0x80000001, drBefore := 1, drAfter := 2 }) =
      .ok (.transfer 0b100 0x80000001 1 2 none) := by decide
theorem test_decode_getTimestamp : decode (.cmd 0b0111 cmdPortsZero) = .ok .getTimestamp := by decide
theorem test_decode_shiftU :
    decode (.eng 0b00 { engPortsZero with bitCount := 3, tms := [1], tdi := [6] }) = .ok (.shiftU 3 [1] [6]) := by decide
theorem test_decode_shiftT :
    decode (.eng 0b01 { engPortsZero with bitCount := 3, tms := [1], tdi := [6] }) = .ok (.shiftT 3 [1] [6]) := by decide
theorem test_decode_shiftDrU :
    decode (.eng 0b10 { engPortsZero with byteCountBulk := 4, tailBitCount := 1, tms := [1], tdi := [6] }) =
      .ok (.shiftDrU 4 1 [1] [6]) := by decide
theorem test_decode_shiftDrT :
    decode (.eng 0b11 { engPortsZero with byteCountBulk := 4, tailBitCount := 1, tms := [1], tdi := [6] }) =
      .ok (.shiftDrT 4 1 [1] [6]) := by decide
theorem test_decode_reserved :
    decode (.cmd 0b1000 cmdPortsZero) = .error (.reservedOpcode 8) ∧ decode (.cmd 0b1111 cmdPortsZero) = .error (.reservedOpcode 15) := by
  decide

/-! ### WellFormed: each check refuses an ill-formed term and lets its neighbour pass -/

theorem test_wf_rawShift :
    Instr.wf (.rawShift 0 [0] [0]) = false ∧ Instr.wf (.rawShift 65 (List.replicate 9 0) (List.replicate 9 0)) = false ∧
    Instr.wf (.rawShift 9 [0] [0, 0]) = false ∧ Instr.wf (.rawShift 9 [0, 0] [0]) = false ∧
    Instr.wf (.rawShift 8 [0, 0] [0]) = false ∧ Instr.wf (.rawShift 8 [0] [0, 0]) = false ∧
    Instr.wf (.rawShift 1 [0] [0]) = true ∧ Instr.wf (.rawShift 64 (List.replicate 8 0) (List.replicate 8 0)) = true := by decide
theorem test_wf_loadInstruction :
    Instr.wf (.loadInstruction 0 0 0 0) = false ∧ Instr.wf (.loadInstruction 0 33 0 0) = false ∧
    Instr.wf (.loadInstruction 0 4 30 25) = false ∧ Instr.wf (.loadInstruction 0 4 30 24) = true := by decide
theorem test_wf_transfer :
    Instr.wf (.transfer 1 0 12 12 none) = false ∧ Instr.wf (.transfer 1 0 0 0 (some [0, 0, 0])) = false ∧
    Instr.wf (.transfer 1 0 0 0 (some [0, 0, 0, 0, 0])) = false ∧ Instr.wf (.transfer 1 0 12 11 (some [0, 0, 0, 0])) = true := by decide
theorem test_wf_shifts :
    Instr.wf (.shiftU 0 [] []) = false ∧ Instr.wf (.shiftT 0 [] []) = false ∧ Instr.wf (.shiftU 9 [0] [0, 0]) = false ∧
    Instr.wf (.shiftU 65 (List.replicate 9 0) (List.replicate 9 0)) = false ∧
    Instr.wf (.shiftT 65 (List.replicate 9 0) (List.replicate 9 0)) = false ∧
    Instr.wf (.shiftDrU 7 1 (List.replicate 9 0) (List.replicate 9 0)) = false ∧
    Instr.wf (.shiftDrT 7 1 (List.replicate 9 0) (List.replicate 9 0)) = false ∧
    Instr.wf (.shiftDrT 7 0 (List.replicate 8 0) (List.replicate 8 0)) = true ∧ Instr.wf (.shiftT 9 [0, 0] [0]) = false ∧ Instr.wf (.shiftDrU 0 8 [0, 0] [0, 0]) = false ∧
    Instr.wf (.shiftDrT 0 8 [0, 0] [0, 0]) = false ∧ Instr.wf (.shiftDrU 0 1 [0] [0, 0]) = false ∧
    Instr.wf (.shiftDrT 0 1 [0, 0] [0]) = false ∧ Instr.wf (.shiftDrU 0 7 [0, 0] [0, 0]) = true ∧
    Instr.wf (.shiftU 8 [0, 0] [0, 0]) = true := by decide

/-! ### Line and system operations (V-SYS) -/

/-- Row Y1. -/
theorem test_init_from_reset :
    seen (fun s => (s.linesOwned, s.lines, s.profile.cfgValid, s.trace)) (exec .init State.reset) =
      some (true, { tck := true, tms := true, tdi := true, srst := true, trst := true, tdoInput := true }, false, [.idle]) := by
  decide
/-- Row Y2, and the profile kept (R182). -/
theorem test_fini_keeps_profile :
    seen (fun s => (s.linesOwned, s.profile.cfgValid, s.trace)) (exec .fini (ready 0 0 [])) = some (false, true, [.idle]) := by
  decide
/-- Row Y3: after a TRANSFER. -/
theorem test_reconfigureIo_restores :
    seen (fun s => (s.lines, s.env.target.tap))
      (exec .reconfigureIo { wired [] with lines := { idleLevels with tms := false } }) = some (idleLevels, .runTestIdle) := by
  decide
/-- Row Y4. -/
theorem test_reconfigureIo_without_lines : refusal (exec .reconfigureIo State.reset) = some .linesNotOwned := by decide
/-- Row Y5 from the TRANSFER on: one snapshot, and it is what is returned. -/
theorem test_getTimestamp_after_transfer :
    (match exec (.transfer 1 0 0 0 none) (stamped true [1000, 1900]) with
      | .next s => seen (fun t => (t.result, t.env.ticks)) (exec .getTimestamp s)
      | .fault _ => none
      | .refused _ => none) = some (.ticks 1000, [1900]) := by decide

/-! ### CONFIGURE (V-CFG) -/

theorem test_configure_tiers :
    [10000, 3000, 2999, 1500, 1499, 750, 749, 375, 374, 0].map
      (fun f => seen (fun s => (s.profile.variant, s.profile.tier)) (exec (.configure f 0 0) State.reset)) =
    [some (.unthrottled, .none), some (.unthrottled, .none), some (.throttled, .a), some (.throttled, .a), some (.throttled, .b),
      some (.throttled, .b), some (.throttled, .c), some (.throttled, .c), some (.throttled, .d), some (.throttled, .d)] := by
  decide
theorem test_configure_stores :
    seen (fun s => (s.profile.cfgValid, s.profile.retryLimit, s.profile.idleCycles, s.trace)) (exec (.configure 1000 3 2) State.reset) =
      some (true, 3, 2, []) := by decide

/-! ### The shift engine (V-SHIFT) -/

/-- Row A2 with its pin trace. -/
theorem test_shiftU_trace :
    seen (fun s => (s.result, s.trace.drop 1)) (exec (.shiftU 3 [0b001] [0b110]) (ready 0 0 [true, false, true])) =
      some (.tdo [0x05], [.drive false true, .tck false, .tck true, .sample true, .drive true false, .tck false, .tck true,
        .sample false, .drive true false, .tck false, .tck true, .sample true]) := by decide
/-- Rows A4, A5. -/
theorem test_shiftU_bytes :
    seen State.result (exec (.shiftU 8 [0] [0]) (ready 0 0 (bits 8 0x81))) = some (.tdo [0x81]) ∧
    seen State.result (exec (.shiftU 9 [0, 0] [0, 0]) (ready 0 0 (bits 9 0x181))) = some (.tdo [0x81, 0x01]) := by decide
/-- Row A2 throttled: a wait after each edge. -/
theorem test_shiftT_trace :
    seen (fun s => (s.result, s.trace.drop 1)) (exec (.shiftT 2 [0b01] [0b10]) (ready 0 0 [true, false])) =
      some (.tdo [0x01], [.drive false true, .tck false, .wait .b 7, .tck true, .wait .b 7, .sample true,
        .drive true false, .tck false, .wait .b 7, .tck true, .wait .b 7, .sample false]) := by decide
/-- Row A8 through the split shift of R121's example. -/
theorem test_shiftDrU_bytes :
    seen State.result (exec (.shiftDrU 4 1 (List.replicate 6 0) (List.replicate 6 0)) (ready 0 0 (bits 41 0x048D159E10))) =
      some (.tdo [0x10, 0x9E, 0x15, 0x8D, 0x04, 0x00]) := by decide
/-- Row A6 through a split shift with a tail of 4. -/
theorem test_shiftDrT_bytes :
    seen State.result (exec (.shiftDrT 0 4 [0, 0] [0, 0]) (ready 0 0 (bits 12 0xABC))) = some (.tdo [0xBC, 0x0A]) := by decide
/-- Rows L1, L3. -/
theorem test_rawShift_loopback :
    seen State.result (exec (.rawShift 11 [0, 0] [0xA3, 0x05]) looped) = some (.tdo [0xA3, 0x05]) ∧
    seen State.result (exec (.rawShift 5 [0] [0xFF]) looped) = some (.tdo [0x1F]) := by decide
/-- V-SHIFT, refusals. -/
theorem test_rawShift_refusals :
    refusal (exec (.rawShift 0 [] []) (ready 0 0 [])) = some .badBitCount ∧
    refusal (exec (.rawShift 65 (List.replicate 9 0) (List.replicate 9 0)) (ready 0 0 [])) = some .badBitCount := by decide

/-! ### The frames (V-IR, V-DR) -/

/-- Rows I1, I2, I3, I5 with bits above `L`, I6, I8, I9. -/
theorem test_loadInstruction_frames :
    encodeIr 0b1010 4 0 0 = ⟨0x183, 0x2A0, 10⟩ ∧ encodeIr 0b1110 4 1 2 = ⟨0xC03, 0x17D0, 13⟩ ∧
    encodeIr 0b1 1 0 0 = ⟨0x33, 0x50, 7⟩ ∧ encodeIr 0xFFFFFFFA 4 0 1 = ⟨0x303, 0x5A0, 11⟩ ∧
    encodeIr 0b10 2 0 3 = ⟨0x303, 0x5E0, 11⟩ ∧ encodeIr 0x80000001 32 13 13 = ⟨0x6000000000000003, 0xBFFF00000003FFF0, 64⟩ ∧
    encodeIr 0 1 57 0 = ⟨0x6000000000000003, 0x9FFFFFFFFFFFFFF0, 64⟩ := by decide
/-- Row I3: the levels driven, and the lines afterwards. -/
theorem test_loadInstruction_drives :
    seen (fun s => (s.trace.filter (fun e => match e with | .drive _ _ => true | .tck _ => false | .wait _ _ => false | .sample _ => false | .idle => false),
        s.lines.tck, s.lines.tms, s.lines.tdi, s.result)) (exec (.loadInstruction 1 1 0 0) (ready 0 0 [])) =
      some ([.drive false true, .drive false true, .drive false false, .drive false false, .drive true true, .drive false true,
        .drive true false], true, false, true, .nothing) := by decide
/-- Rows D1, D3, D4, D5, D6, both layouts. -/
theorem test_transfer_frames :
    drTdi 0b001 0 0 0 0 = 0x10000000008 ∧ drTdi 0b100 0x80000001 1 2 3 = 0x4040000000C0 ∧
    drTdi 0b111 0x12345678 0 0 2 = 0x40000000038 ∧ drTdi 0b010 0xDEADBEEF 0 0 23 = 0x80000037AB6FBBD0 ∧
    drTdi 0b110 0xFFFFFFFF 23 0 0 = 0x9FFFFFFFF8000000 ∧ drTms false 0 0 = 0xC000000001 ∧ drTms true 0 0 = 0x6000000001 ∧
    drTms false 1 2 = 0x60000000001 ∧ drTms true 23 0 = 0x3000000000000001 := by decide
/-- Program P2: WAIT, then OK on attempt 2 with the data. -/
theorem test_transfer_retries :
    seen (fun s => (s.result, s.retry.attempt, s.lines.tms, s.lines.tdi))
      (exec (.transfer 0b011 0 0 0 (some [0, 0, 0, 0])) (ready 2 3 (bits 43 0x8 ++ bits 43 0x048D159E10))) =
    some (.ack 1 (some [0x78, 0x56, 0x34, 0x12]), 2, false, true) := by decide

/-! ### The target's data registers (spec/45_tap_state_machine.md R199) -/

/-- A bypass register of 0, then the acknowledge at bits 2 to 0 and the data from bit 3 up. -/
theorem test_pathBits : pathBits [.bypass, .access 0b110 0x80000001, .bypass] = bits 37 (0b0 + 0b110 * 2 + 0x80000001 * 2 ^ 4) := by
  decide
/-- RnW at bit 0, A[3:2] at bits 2 to 1, the data at bits 34 to 3, each register at its place. -/
theorem test_latchPath : latchPath [.bypass, .access, .bypass, .other 2] (bits 39 (0b1 + 0b101 * 2 + 0x12345678 * 2 ^ 4 + 0b100 * 2 ^ 36)) =
    [.bypass true, .access true 0b10 0x12345678, .bypass false, .other [false, true]] := by decide

/-! ### Witnesses: for each statement with hypotheses, a state and operands that meet them -/

theorem test_ready (idle retries : Nat) (answers : List Bool) : ScanReady (ready idle retries answers) := ⟨rfl, rfl, rfl⟩

theorem test_ready_inv : Inv (State.withFetchWord (ready 0 0 []) 8 6) where
  codesDiffer := by decide
  variantMatchesTier := by decide
  heldLevels := by decide
  traceGivesLevels := by decide
  bitCountBounded := by decide
  scratchIsWhole := by decide
  timestampFits := by decide

theorem test_witness_ResetRefusesEveryScan : isScan (.rawShift 1 [0] [0]) = true := rfl

theorem test_witness_StepRunsDecodedInstruction :
    (State.withFetchWord State.reset 8 3).queue = .issue (.cmd 3 cmdPortsZero) :: [] ∧
      decode (.cmd 3 cmdPortsZero) = .ok (.configure 0 0 0) := by decide

theorem test_witness_StepWaitsAndRepurposes :
    (ready 0 0 []).queue = [] ∧ { State.reset with queue := [.repurpose] }.queue = .repurpose :: [] ∧
      isScan (.shiftU 1 [0] [0]) = true := by decide

/-- Codes 8 and 7, on either side of the boundary. -/
theorem test_witness_ReservedCodesAreRefused :
    { State.reset with queue := [.issue (.cmd 8 cmdPortsZero)] }.queue = .issue (.cmd 8 cmdPortsZero) :: [] ∧
      8 ≤ (8 : BitVec 4).toNat ∧ (7 : BitVec 4).toNat < 8 ∧
      { State.reset with queue := [.issue (.cmd 7 cmdPortsZero)] }.queue = .issue (.cmd 7 cmdPortsZero) :: [] := by decide

theorem test_witness_DecodeAndEncodeAgree :
    decode (.cmd 7 cmdPortsZero) = .ok .getTimestamp ∧ decode (.cmd 8 cmdPortsZero) = .error (.reservedOpcode 8) ∧
      8 ≤ (8 : BitVec 4).toNat := by decide

theorem test_witness_InitCompletes :
    (ready 0 0 []).linesOwned = true ∧ (ready 0 0 []).repurposed = false ∧ (ready 0 0 []).lines.tck = true := by decide

theorem test_witness_FiniCompletes : isScan (.transfer 0 0 0 0 none) = true := rfl

theorem test_witness_ReconfigureIoCompletes :
    (ready 0 0 []).linesOwned = true ∧ (ready 0 0 []).repurposed = false ∧ (ready 0 0 []).lines.tck = true ∧
      State.reset.linesOwned = false := by decide

theorem test_witness_GetTimestampCompletes :
    { stamped true [] with tsCaptured := true }.params.timestampEnabled = true ∧
      { stamped true [] with tsCaptured := true }.tsCaptured = true := by decide

/-- Every boundary of the strategy table. -/
theorem test_witness_ConfigureSelectsTier (f : Nat) :
    ∃ t, exec (.configure f 0 0) State.reset = .next t := ⟨_, rfl⟩

theorem test_witness_OnlyConfigureWritesProfile :
    (∀ f r c, Instr.init ≠ .configure f r c) ∧ ∃ t, exec .init State.reset = .next t := ⟨by simp, _, rfl⟩

/-- One bit, a bit past a byte, and the most bits, with buffers of exactly the bytes needed. -/
theorem test_witness_ShiftUnthrottledCompletes :
    ScanReady (ready 0 0 []) ∧ (1 ≤ 1 ∧ 1 ≤ 64 ∧ byteCount 1 ≤ [0x01#8].length) ∧ byteCount 9 ≤ [0x01#8, 0x02#8].length ∧
      (1 ≤ 64 ∧ 64 ≤ 64 ∧ byteCount 64 ≤ (List.replicate 8 0x02#8).length) :=
  ⟨⟨rfl, rfl, rfl⟩, by decide⟩

theorem test_witness_ShiftThrottledCompletes :
    ScanReady (ready 0 0 []) ∧ (1 ≤ 8 ∧ 8 ≤ 64 ∧ byteCount 8 ≤ [0x01#8].length) ∧
      (1 ≤ 64 ∧ 64 ≤ 64 ∧ byteCount 64 ≤ (List.replicate 8 0x02#8).length) :=
  ⟨⟨rfl, rfl, rfl⟩, by decide⟩

/-- The shortest and the longest tail. -/
theorem test_witness_SplitShiftIsFlatShift : 0 < 8 ∧ 7 < 8 := by decide

/-- No bulk and no tail; a bulk with the longest tail; and the most bits. -/
theorem test_witness_SplitShiftsComplete :
    ScanReady (ready 0 0 []) ∧ (0 < 8 ∧ 8 + 8 * 0 + 0 ≤ 64 ∧ byteCount (8 + 8 * 0 + 0) ≤ [0x01#8].length) ∧
      (7 < 8 ∧ 8 + 8 * 6 + 7 ≤ 64 ∧ byteCount (8 + 8 * 6 + 7) ≤ (List.replicate 8 0x02#8).length) ∧
      (0 < 8 ∧ 8 + 8 * 7 + 0 ≤ 64 ∧ byteCount (8 + 8 * 7 + 0) ≤ (List.replicate 8 0x02#8).length) :=
  ⟨⟨rfl, rfl, rfl⟩, by decide⟩

/-- Both ends of the domain with buffers of exactly their bytes, and both sides outside it. -/
theorem test_witness_RawShiftIsThrottledShift :
    ScanReady (ready 0 0 []) ∧ (1 ≤ 1 ∧ 1 ≤ 64 ∧ [0x01#8].length = byteCount 1) ∧
      (1 ≤ 64 ∧ 64 ≤ 64 ∧ (List.replicate 8 0x02#8).length = byteCount 64) ∧ (0 = 0 ∨ 64 < 0) ∧ (65 = 0 ∨ 64 < 65) :=
  ⟨⟨rfl, rfl, rfl⟩, by decide⟩

theorem test_witness_VariantsDifferOnlyInWaits :
    (∃ t, exec (.shiftU 2 [1] [2]) (ready 0 0 []) = .next t) ∧ ∃ u, exec (.shiftT 2 [1] [2]) (ready 0 0 []) = .next u :=
  ⟨⟨_, rfl⟩, ⟨_, rfl⟩⟩

/-- A shift of 5 bits, with indexes 4 and 5 on either side of its end. -/
theorem test_witness_LoopbackReturnsTdi :
    looped.env.source = .loopback ∧ (∃ t, exec (.shiftU 5 [0] [0xFF]) looped = .next t) ∧
      (∃ t, exec (.shiftT 5 [0] [0xFF]) looped = .next t) ∧ (∃ t, exec (.rawShift 5 [0] [0xFF]) looped = .next t) ∧ 4 < 5 ∧ 5 ≤ 5 :=
  ⟨rfl, ⟨_, rfl⟩, ⟨_, rfl⟩, ⟨_, rfl⟩, by decide⟩

/-- Exactly as many answers as bits. -/
theorem test_witness_SamplesAreTheEnvironmentsAnswers :
    (ready 0 0 [true, false]).env.source = .oracle ∧ 2 ≤ (ready 0 0 [true, false]).env.answers.length ∧
      (∃ t, exec (.shiftU 2 [0] [0]) (ready 0 0 [true, false]) = .next t) ∧
      ∃ t, exec (.shiftT 2 [0] [0]) (ready 0 0 [true, false]) = .next t :=
  ⟨rfl, by decide, ⟨_, rfl⟩, ⟨_, rfl⟩⟩

/-- The shortest and the longest frame. -/
theorem test_witness_IrFrameNumbers :
    (1 ≤ 1 ∧ 1 ≤ 32 ∧ 6 + 0 + 1 + 0 ≤ 64) ∧ (1 ≤ 32 ∧ 32 ≤ 32 ∧ 6 + 13 + 32 + 13 ≤ 64) := by decide

theorem test_witness_LoadInstructionCompletes :
    ScanReady (ready 0 0 []) ∧ (1 ≤ 1 ∧ 1 ≤ 32 ∧ 6 + 0 + 1 + 0 ≤ 64) ∧ (1 ≤ 32 ∧ 32 ≤ 32 ∧ 6 + 13 + 32 + 13 ≤ 64) :=
  ⟨⟨rfl, rfl, rfl⟩, by decide⟩

theorem test_witness_LoadInstructionRefusals :
    ScanReady (ready 0 0 []) ∧ (0 = 0 ∨ 32 < 0) ∧ (33 = 0 ∨ 32 < 33) ∧ (1 ≤ 4 ∧ 4 ≤ 32 ∧ 64 < 6 + 30 + 4 + 25) :=
  ⟨⟨rfl, rfl, rfl⟩, by decide⟩

theorem test_witness_DrFrameNumbers : 41 + 0 + 0 + 0 ≤ 64 ∧ 41 + 12 + 8 + 3 ≤ 64 := by decide

/-- The shortest frame without `out`, the longest with an `out` of exactly 4 bytes. -/
theorem test_witness_TransferCompletes :
    ScanReady (ready 0 0 []) ∧ 41 + 0 + 0 + (ready 0 0 []).profile.idleCycles ≤ 64 ∧ outBufferOk none = true ∧
      41 + 12 + 8 + (ready 3 0 []).profile.idleCycles ≤ 64 ∧ outBufferOk (some [0, 0, 0, 0]) = true :=
  ⟨⟨rfl, rfl, rfl⟩, by decide⟩

/-- One WAIT, then OK. -/
theorem test_witness_TransferRetriesWhileWait :
    ScanReady (ready 0 3 (bits 41 0x8 ++ bits 41 0x10)) ∧ 41 + 0 + 0 + (ready 0 3 []).profile.idleCycles ≤ 64 ∧
      outBufferOk none = true ∧ (ready 0 3 (bits 41 0x8 ++ bits 41 0x10)).env.source = .oracle ∧
      (ready 0 3 (bits 41 0x8 ++ bits 41 0x10)).env.answers = [bits 41 0x8].flatten ++ bits 41 0x10 ++ [] ∧
      (bits 41 0x8).length = 41 + 0 + 0 + 0 ∧ ackOfScan 0 (bits 41 0x8) = (ready 0 3 []).params.ackWait ∧
      (bits 41 0x10).length = 41 + 0 + 0 + 0 ∧ [bits 41 0x8].length ≤ (ready 0 3 []).profile.retryLimit ∧
      ackOfScan 0 (bits 41 0x10) ≠ (ready 0 3 []).params.ackWait :=
  ⟨⟨rfl, rfl, rfl⟩, by decide⟩

/-- The other case: WAIT on every allowed attempt, and answers left over. -/
theorem test_witness_TransferRetriesWhileWait_exhausted :
    ScanReady (ready 0 1 (bits 41 0x8 ++ bits 41 0x8 ++ [true])) ∧
      (ready 0 1 (bits 41 0x8 ++ bits 41 0x8 ++ [true])).env.source = .oracle ∧
      (ready 0 1 (bits 41 0x8 ++ bits 41 0x8 ++ [true])).env.answers = [bits 41 0x8].flatten ++ bits 41 0x8 ++ [true] ∧
      (bits 41 0x8).length = 41 + 0 + 0 + (ready 0 1 []).profile.idleCycles ∧
      ackOfScan 0 (bits 41 0x8) = (ready 0 1 []).params.ackWait ∧ [bits 41 0x8].length = (ready 0 1 []).profile.retryLimit :=
  ⟨⟨rfl, rfl, rfl⟩, by decide⟩

theorem test_witness_TransferRefusals :
    ScanReady (ready 0 0 []) ∧ ScanReady (ready 24 0 []) ∧ 64 < 41 + 12 + 12 + (ready 0 0 []).profile.idleCycles ∧
      64 < 41 + 0 + 0 + (ready 24 0 []).profile.idleCycles ∧
      (41 + 12 + 11 + (ready 0 0 []).profile.idleCycles ≤ 64 ∧ [0x00#8, 0x00#8, 0x00#8].length ≠ 4 ∧
        [0x00#8, 0x00#8, 0x00#8, 0x00#8, 0x00#8].length ≠ 4) :=
  ⟨⟨rfl, rfl, rfl⟩, ⟨rfl, rfl, rfl⟩, by decide⟩

theorem test_witness_TransferTakesOneSnapshot :
    (∃ t, exec (.transfer 1 0 0 0 none) (stamped true [1000]) = .next t) ∧
      (stamped true [1000]).params.timestampEnabled = true ∧ (stamped true [1000]).env.ticks = 1000 :: [] ∧
      (∃ t, exec (.transfer 1 0 0 0 none) (stamped false []) = .next t) ∧
      (stamped false []).params.timestampEnabled = false :=
  ⟨⟨_, rfl⟩, rfl, rfl, ⟨_, rfl⟩, rfl⟩

theorem test_witness_OnlyTransferWritesTimestamp :
    (∀ req w db da out, Instr.getTimestamp ≠ .transfer req w db da out) ∧ ∃ t, exec .getTimestamp State.reset = .next t :=
  ⟨by simp, _, rfl⟩

theorem test_witness_IrFrameWalksTap :
    (1 ≤ 1 ∧ 1 ≤ 32 ∧ 6 + 0 + 1 + 0 ≤ 64) ∧ (1 ≤ 32 ∧ 32 ≤ 32 ∧ 6 + 13 + 32 + 13 ≤ 64) := by decide

theorem test_witness_DrFrameWalksTap : 41 + 0 + 0 + 0 ≤ 64 ∧ 41 + 0 + 0 + 23 ≤ 64 := by decide

theorem test_witness_FramesLeaveTapIdle :
    (wired []).env.target.tap = .runTestIdle ∧ (wired []).lines.tck = true ∧
      (∃ t, exec (.loadInstruction 1 1 0 0) (wired []) = .next t) ∧ ∃ t, exec (.transfer 1 0 0 0 none) (wired []) = .next t :=
  ⟨rfl, rfl, ⟨_, rfl⟩, ⟨_, rfl⟩⟩

theorem test_witness_ResetSequenceReachesIdle : ScanReady (ready 0 0 []) ∧ (ready 0 0 []).lines.tck = true :=
  ⟨⟨rfl, rfl, rfl⟩, rfl⟩

/-- A read with a captured chain of exactly the bits asked for. -/
theorem test_witness_TransferReadsCapturedChain :
    (wired [.access 5 0]).env.source = .target ∧ (wired [.access 5 0]).env.target.tap = .runTestIdle ∧
      (wired [.access 5 0]).lines.tck = true ∧ (wired [.access 5 0]).profile.retryLimit = 0 ∧
      (wired [.access 5 0]).env.drCaptures = [.access 5 0] :: [] ∧ 0 + 35 ≤ (pathBits [.access 5 0]).length ∧
      (∃ t, exec (.transfer 1 0 0 0 (some [0, 0, 0, 0])) (wired [.access 5 0]) = .next t) ∧ (1 : BitVec 3).getLsbD 0 = true ∧ 31 < 32 :=
  ⟨rfl, rfl, rfl, rfl, rfl, by decide, ⟨_, rfl⟩, by decide⟩

theorem test_witness_ResetLinesOnlyDrivenHigh :
    (∃ t, exec .init State.reset = .next t) ∧ Instr.init ≠ .fini ∧ (∃ t, exec .reconfigureIo (ready 0 0 []) = .next t) ∧
      (∃ t, exec .getTimestamp State.reset = .next t) ∧ Instr.getTimestamp ≠ .init ∧ Instr.getTimestamp ≠ .reconfigureIo :=
  ⟨⟨_, rfl⟩, by simp, ⟨_, rfl⟩, ⟨_, rfl⟩, by simp, by simp⟩

theorem test_witness_TraceOnlyGrows : ∃ t, exec (.rawShift 1 [0] [0]) (ready 0 0 []) = .next t := ⟨_, rfl⟩

/-- Two states that differ in every working register. -/
theorem test_witness_WorkingRegistersCarryNothing :
    let other : State := { ready 0 0 [] with
      scratch := { tms := 1, tdi := 2, tdo := [] }, engine := { srTms := 3, srTdi := 4, acc := 5, bitCnt := 6, tdo := [7] }
      retry := { attempt := 8, ack := 1 } }
    clearWorking (ready 0 0 []) = clearWorking other ∧ (ready 0 0 []).retry ≠ other.retry := ⟨rfl, by decide⟩

theorem test_witness_WellFormedOperationsComplete :
    Instr.wf (.transfer 1 0 12 11 (some [0, 0, 0, 0])) = true ∧ ScanReady (ready 0 0 []) ∧
      frameFits (.transfer 1 0 12 11 (some [0, 0, 0, 0])) (ready 0 0 []) ∧
      Instr.wf .reconfigureIo = true ∧ (ready 0 0 []).linesOwned = true ∧ frameFits .reconfigureIo (ready 0 0 []) :=
  ⟨by decide, ⟨rfl, rfl, rfl⟩, by simp [frameFits, drLength, ready, Config.drFixedBits, Config.scratchBits], rfl, rfl, trivial⟩

/-- Each reason, from a state and operands that meet it. -/
theorem test_witness_RefusalsAreJustified :
    exec (.shiftU 1 [0] [0]) State.reset = .refused .notConfigured ∧ exec .reconfigureIo State.reset = .refused .linesNotOwned ∧
      exec (.shiftU 1 [0] [0]) { ready 0 0 [] with repurposed := true } = .refused .linesNotOwned ∧
      exec (.loadInstruction 0 4 30 25) (ready 0 0 []) = .refused .frameTooLong ∧
      exec (.transfer 0 0 0 0 none) (ready 24 0 []) = .refused .frameTooLong ∧
      exec (.loadInstruction 0 33 0 0) (ready 0 0 []) = .refused .badRegisterLength ∧
      exec (.shiftT 0 [] []) (ready 0 0 []) = .refused .badBitCount ∧
      exec (.shiftU 65 [] []) (ready 0 0 []) = .refused .badBitCount ∧
      exec (.shiftDrT 7 1 [] []) (ready 0 0 []) = .refused .badBitCount ∧
      exec (.transfer 1 0 0 0 (some [0, 0, 0])) (ready 0 0 []) = .refused .badOutBuffer ∧
      exec (.transfer 1 0 0 0 (some [0, 0, 0, 0, 0])) (ready 0 0 []) = .refused .badOutBuffer ∧
      exec (.rawShift 9 [0] [0, 0]) (ready 0 0 []) = .refused .badBuffer ∧
      exec (.rawShift 8 [0] [0, 0]) (ready 0 0 []) = .refused .badBuffer ∧
      exec (.shiftU 9 [0] [0, 0]) (ready 0 0 []) = .refused .badBuffer ∧
      exec (.shiftDrT 0 1 [0, 0] [0]) (ready 0 0 []) = .refused .badBuffer ∧
      exec (.shiftDrU 0 8 [0, 0] [0, 0]) (ready 0 0 []) = .refused .badTailCount :=
  ⟨rfl, rfl, rfl, rfl, rfl, rfl, rfl, rfl, rfl, rfl, rfl, rfl, rfl, rfl, rfl, rfl⟩

/-- The step runs a whole TRANSFER. -/
theorem test_witness_StepKeepsInvariant :
    Inv (State.withFetchWord (ready 0 0 []) 8 6) ∧ ∃ t, step (State.withFetchWord (ready 0 0 []) 8 6) = .next t :=
  ⟨test_ready_inv, _, rfl⟩

/-- A state for each clause: after reset, held but not configured, configured but released, configured but repurposed. -/
theorem test_witness_UnreadyScansAreRefused :
    isScan (.rawShift 1 [0] [0]) = true ∧ ¬ ScanReady State.reset ∧
      ({ State.reset with linesOwned := true }.profile.cfgValid = false ∧ { State.reset with linesOwned := true }.linesOwned = true ∧
        { State.reset with linesOwned := true }.repurposed = false) ∧
      ({ ready 0 0 [] with linesOwned := false }.profile.cfgValid = true ∧ { ready 0 0 [] with linesOwned := false }.linesOwned = false) ∧
      ({ ready 0 0 [] with repurposed := true }.profile.cfgValid = true ∧ { ready 0 0 [] with repurposed := true }.repurposed = true) :=
  ⟨rfl, fun h => absurd h.1 (by decide), by decide⟩

theorem test_witness_OwnershipChangesOnlyByLineOperations :
    (∃ t, exec .reconfigureIo (ready 0 0 []) = .next t) ∧ Instr.reconfigureIo ≠ .init ∧ Instr.reconfigureIo ≠ .fini ∧
      (∃ t, exec .fini (ready 0 0 []) = .next t) ∧ Instr.fini ≠ .init ∧ Instr.fini ≠ .reconfigureIo :=
  ⟨⟨_, rfl⟩, by simp, by simp, ⟨_, rfl⟩, by simp, by simp⟩

/-- For each clause the values next to the domain: a byte too many and a byte too few, 0, 1, 64 and 65 bits, the longest tail, a tail of 8. -/
theorem test_witness_ShiftRefusals :
    ScanReady (ready 0 0 []) ∧ (1 ≤ 8 ∧ 8 ≤ 64 ∧ [0x00#8, 0x00#8].length ≠ byteCount 8) ∧
      (1 ≤ 64 ∧ 64 ≤ 64 ∧ (List.replicate 7 0x00#8).length ≠ byteCount 64) ∧ (0 = 0 ∨ 64 < 0) ∧ (65 = 0 ∨ 64 < 65) ∧
      (1 ≤ 1 ∧ 1 ≤ 64 ∧ ([] : List Byte).length < byteCount 1) ∧
      (1 ≤ 64 ∧ 64 ≤ 64 ∧ (List.replicate 7 0x00#8).length < byteCount 64) ∧ 8 ≤ 8 ∧ (1 < 8 ∧ 64 < 8 + 8 * 7 + 1) ∧
      (7 < 8 ∧ 8 + 8 * 0 + 7 ≤ 64 ∧ [0x00#8].length < byteCount (8 + 8 * 0 + 7)) :=
  ⟨⟨rfl, rfl, rfl⟩, by decide⟩

/-- A write between two bypass registers, not answered WAIT; and a WAIT that may not be repeated. -/
theorem test_witness_TransferReachesAccessRegister :
    (wired [.bypass, .access 2 7, .bypass]).env.source = .target ∧ (wired [.bypass, .access 2 7, .bypass]).env.target.tap = .runTestIdle ∧
      (wired [.bypass, .access 2 7, .bypass]).lines.tck = true ∧
      (wired [.bypass, .access 2 7, .bypass]).env.drCaptures =
        (List.replicate 1 .bypass ++ .access 2 7 :: List.replicate 1 .bypass) :: [] ∧
      ackReorder 2 ≠ (wired []).params.ackWait ∧ ackReorder 1 = (wired []).params.ackWait ∧ (wired []).profile.retryLimit = 0 ∧
      (∃ t, exec (.transfer 0b100 0x80000001 1 1 none) (wired [.bypass, .access 2 7, .bypass]) = .next t) ∧
      ∃ t, exec (.transfer 0b011 0 0 0 (some [0, 0, 0, 0])) (wired [.access 1 7]) = .next t :=
  ⟨rfl, rfl, rfl, rfl, by decide, by decide, rfl, ⟨_, rfl⟩, ⟨_, rfl⟩⟩

theorem test_witness_AcknowledgeIsReorderedWindow :
    (∃ t, exec (.transfer 1 0 0 0 none) (ready 0 1 []) = .next t) ∧ 0 < 3 ∧ 2 < 3 := ⟨⟨_, rfl⟩, by decide⟩

theorem test_witness_LoadInstructionReachesRegister :
    (wired []).env.target.tap = .runTestIdle ∧ (wired []).lines.tck = true ∧
      (wired []).env.irCaptures = List.replicate 7 false :: [] ∧ (List.replicate 7 false).length = 1 + 4 + 2 ∧
      ∃ t, exec (.loadInstruction 0b1110 4 1 2) (wired []) = .next t :=
  ⟨rfl, rfl, rfl, rfl, ⟨_, rfl⟩⟩

end Sys2Proof.Tests
end

/-! # Proofs: what answers `Sample()` in a flat shift (spec/00_scope.md R12, spec/20_memory.md R57) -/

namespace Sys2Proof.Machine

/-- SHIFT.U and SHIFT.T, where they complete, end in the flat shift of the caller's buffers (R119, R120). -/
theorem flatFromBuffers_of_flatShift {n : Nat} {tms tdi : List Byte} {s t : State}
    (h : exec (.shiftU n tms tdi) s = .next t ∨ exec (.shiftT n tms tdi) s = .next t) :
    ∃ v, flatFromBuffers v n tms tdi s = t := by
  obtain h | h := h
  · exact ⟨.unthrottled, (execShiftU_next.1 h).2⟩
  · exact ⟨.throttled, (execShiftT_next.1 h).2⟩

/-- The `tdo` buffer of a flat shift holds the samples in order, and 0 above them (R118). -/
theorem flatFromBuffers_result (v : Variant) (n : Nat) (tms tdi : List Byte) (s : State) :
    ∃ bytes, (flatFromBuffers v n tms tdi s).result = .tdo bytes ∧
      ∀ i, bufBit bytes i = (shiftSamples v n (bufNat tms) (bufNat tdi) s).getD i false :=
  ⟨_, returnTdo_result _, shiftFlat_tdo_bit v n _ _ s⟩

/-- Settles O21: the samples of the shift are the first `n` answers, and its output bits are its samples. -/
theorem samplesAreTheEnvironmentsAnswers : Obligations.SamplesAreTheEnvironmentsAnswers := by
  intro n tms tdi s t hsource hanswers hexec
  obtain ⟨v, rfl⟩ := flatFromBuffers_of_flatShift hexec
  obtain ⟨hsamples, hused⟩ := shiftFlat_oracle v n (bufNat tms) (bufNat tdi) s hsource hanswers
  obtain ⟨bytes, hresult, hbits⟩ := flatFromBuffers_result v n tms tdi s
  refine ⟨hused, bytes, hresult, fun i hi => ?_⟩
  rw [hbits, hsamples, List.getD_eq_getElem?_getD, List.getElem?_take_of_lt hi, List.getD_eq_getElem?_getD]

end Sys2Proof.Machine

/-! # Proofs: what an operation that completes may have done (spec/10_state.md R27, R38 to R40, R46) -/

namespace Sys2Proof.Machine

/-! ### What every scan leaves -/

/-- A captured timestamp fits its width, and is there only when the feature is (R40). -/
def TimestampFits (s : State) : Prop :=
  s.tsCaptured = true → s.params.timestampEnabled = true ∧ s.ts < 2 ^ s.params.timestampBits

/-- What a shift of 1 to 64 bits leaves whatever state it began in: the levels its trace gives with TCK high (R37), and a
bit count within the scratch (R46). -/
structure Settled (t : State) : Prop where
  levels : replayLevels t.trace = levelsOf t.lines
  clockHigh : t.lines.tck = true
  counted : t.engine.bitCnt ≤ Config.scratchBits

/-- What a completed scan from `s` leaves of the invariant's concerns. -/
structure ScanEnd (s t : State) : Prop where
  frame : ScanFrame s t
  settled : Settled t
  whole : s.scratch.tdo.length = Config.scratchBytes → t.scratch.tdo.length = Config.scratchBytes
  stamp : TimestampFits s → TimestampFits t

theorem inv_of_scanEnd {s t : State} (h : Inv s) (he : ScanEnd s t) : Inv t :=
  inv_of_scan h he.frame he.settled.levels he.settled.clockHigh he.settled.counted (he.whole h.scratchIsWhole)
    (he.stamp h.timestampFits)

theorem shiftFlat_settled (v : Variant) (n tms tdi : Nat) (s : State) (h1 : 1 ≤ n) (h64 : n ≤ 64) :
    Settled (shiftFlat v n tms tdi s) where
  levels := shiftFlat_replay v n tms tdi s h1
  clockHigh := by rw [shiftFlat_lines v n tms tdi s h1]
  counted := by rw [shiftFlat_bitCnt]; exact h64

theorem timestampFits_of_shiftFrame {s t : State} (hf : ShiftFrame s t) (h : TimestampFits s) : TimestampFits t := by
  obtain ⟨⟨hparams, -⟩, hts, hcaptured, -⟩ := hf
  rwa [TimestampFits, hparams, hts, hcaptured]

theorem flatFromBuffers_scanEnd (v : Variant) (n : Nat) (tms tdi : List Byte) (s : State) (h1 : 1 ≤ n) (h64 : n ≤ 64) :
    ScanEnd s (flatFromBuffers v n tms tdi s) where
  frame := (flatFromBuffers_scanFrame v n tms tdi s h1).1
  settled :=
    have h := shiftFlat_settled v n (bufNat tms) (bufNat tdi) s h1 h64
    ⟨h.levels, h.clockHigh, h.counted⟩
  whole h := by simpa [flatFromBuffers] using h
  stamp := timestampFits_of_shiftFrame (flatFromBuffers_scanFrame v n tms tdi s h1)

theorem splitFromBuffers_scanEnd (v : Variant) (m k : Nat) (tms tdi : List Byte) (s : State) (hk : k < 8)
    (h64 : splitLength m k ≤ 64) : ScanEnd s (splitFromBuffers v m k tms tdi s) := by
  rw [splitFromBuffers_eq v tms tdi s m k hk]
  exact flatFromBuffers_scanEnd v _ tms tdi s (one_le_splitLength m k) h64

theorem loadInstruction_scanEnd (ins : BitVec 32) (len bb ba : Nat) (s : State) (hlen : 1 ≤ len)
    (h64 : irLength len bb ba ≤ 64) : ScanEnd s (setResult .nothing (irScan ins len bb ba s)) := by
  have hp := (encodeIr_atCursor ins len bb ba hlen h64).pos
  have hp1 : 1 ≤ (encodeIr ins len bb ba).p := by rw [hp]; simp only [irLength, Config.irFixedBits]; omega
  have hp64 : (encodeIr ins len bb ba).p ≤ 64 := hp ▸ h64
  have hshift := shiftFlat_settled s.profile.variant _ (encodeIr ins len bb ba).tms.toNat (encodeIr ins len bb ba).tdi.toNat
    (freshScratch (encodeIr ins len bb ba).tms (encodeIr ins len bb ba).tdi s) hp1 hp64
  have hframe : ShiftFrame s (setResult .nothing (irScan ins len bb ba s)) := irScan_frame ins len bb ba s hp1
  exact ⟨hframe.1, ⟨hshift.levels, hshift.clockHigh, hshift.counted⟩, fun _ => irScan_tdo_length ins len bb ba s hp64,
    timestampFits_of_shiftFrame hframe⟩

/-- The last attempt of the loop is a scan like any other, whose frame still fits. -/
theorem drAttempts_settled (req : BitVec 3) (w : BitVec 32) (db da k : Nat) (s : State)
    (h64 : drLength db da s.profile.idleCycles ≤ 64) :
    Settled (drAttempts req w db da k s) ∧ (drAttempts req w db da k s).scratch.tdo.length = Config.scratchBytes := by
  refine drAttempts_last (fun u => u.profile = s.profile)
    (fun u => Settled u ∧ u.scratch.tdo.length = Config.scratchBytes)
    (fun u hu => by rw [drAttempt_profile, hu]) (fun u hu => ?_) k s rfl
  have hu64 : drLength db da u.profile.idleCycles ≤ 64 := hu ▸ h64
  exact ⟨⟨drAttempt_replay req w db da u, by rw [drAttempt_lines], by rw [drAttempt_bitCnt]; exact hu64⟩,
    drAttempt_tdo_length req w db da u hu64⟩

theorem timestampFits_snapshotTicks {s : State} (h : TimestampFits s) : TimestampFits (snapshotTicks s) := by
  intro hcaptured
  cases henabled : s.params.timestampEnabled with
  | false => simpa [henabled] using h (by simpa [henabled] using hcaptured)
  | true => simp [henabled, Nat.mod_lt]

theorem runTransfer_scanEnd (req : BitVec 3) (w : BitVec 32) (db da : Nat) (out : Option (List Byte)) (s : State)
    (h64 : drLength db da s.profile.idleCycles ≤ 64) : ScanEnd s (runTransfer req w db da out s) := by
  obtain ⟨hsettled, hwhole⟩ :=
    drAttempts_settled req w db da s.profile.retryLimit (clearAttempts (snapshotTicks s)) h64
  obtain ⟨hparams, hprofile, howned, hrepurposed, hts, hcaptured, hqueue, hsource, -, hsrst, htrst, htdo⟩ :=
    drAttempts_frame req w db da s.profile.retryLimit (clearAttempts (snapshotTicks s))
  refine ⟨⟨hparams, hprofile, howned, hrepurposed, hsrst, htrst, htdo, hqueue, hsource⟩,
    ⟨hsettled.levels, hsettled.clockHigh, hsettled.counted⟩, fun _ => hwhole, fun h => ?_⟩
  have hsnapshot : TimestampFits (snapshotTicks s) := timestampFits_snapshotTicks h
  simp only [TimestampFits, runTransfer, setResult_params, setResult_ts, setResult_tsCaptured, hparams, hts, hcaptured]
  exact hsnapshot

/-! ### What every operation does -/

/-- The variant and the tier that CONFIGURE selects match (R29, R102). -/
theorem variantOf_unthrottled_iff (tier : Tier) : variantOf tier = .unthrottled ↔ tier = .none := by
  cases tier <;> simp [variantOf]

/-- How an operation that completes takes `s` to `t`: a scan leaves what every scan leaves, the others have their one effect. -/
inductive Completion (s : State) : Instr → State → Prop where
  | init : Completion s .init (setResult .nothing { takeIdleLevels s with linesOwned := true })
  | fini : Completion s .fini (setResult .nothing { looseLines s with linesOwned := false })
  | reconfigureIo (howned : s.linesOwned = true) : Completion s .reconfigureIo (setResult .nothing (takeIdleLevels s))
  | configure (f r c : Nat) (p : Profile) (hp : p.variant = .unthrottled ↔ p.tier = .none) :
    Completion s (.configure f r c) (setResult .nothing { s with profile := p })
  | getTimestamp (value draws : Nat) : Completion s .getTimestamp { s with result := .ticks value, draws := draws }
  | scan {i : Instr} {t : State} (hi : isScan i = true) (he : ScanEnd s t) : Completion s i t

/-- Every operation that completes does so in one of these ways. -/
theorem exec_completion {i : Instr} {s t : State} (h : exec i s = .next t) : Completion s i t := by
  cases i with
  | init => cases h; exact .init
  | fini => cases h; exact .fini
  | reconfigureIo => obtain ⟨howned, rfl⟩ := execReconfigureIo_next.1 h; exact .reconfigureIo howned
  | configure f r c => cases h; exact .configure f r c _ (variantOf_unthrottled_iff _)
  | getTimestamp => cases h; exact .getTimestamp _ _
  | rawShift n tms tdi =>
    obtain ⟨⟨-, ⟨h1, h64⟩, -⟩, rfl⟩ := execRawShift_next.1 h
    exact .scan rfl (flatFromBuffers_scanEnd _ _ _ _ _ h1 h64)
  | shiftU n tms tdi =>
    obtain ⟨⟨-, ⟨h1, h64⟩, -⟩, rfl⟩ := execShiftU_next.1 h
    exact .scan rfl (flatFromBuffers_scanEnd _ _ _ _ _ h1 h64)
  | shiftT n tms tdi =>
    obtain ⟨⟨-, ⟨h1, h64⟩, -⟩, rfl⟩ := execShiftT_next.1 h
    exact .scan rfl (flatFromBuffers_scanEnd _ _ _ _ _ h1 h64)
  | shiftDrU m k tms tdi =>
    obtain ⟨⟨-, hk, h64, -⟩, rfl⟩ := execShiftDrU_next.1 h
    exact .scan rfl (splitFromBuffers_scanEnd _ _ _ _ _ _ hk h64)
  | shiftDrT m k tms tdi =>
    obtain ⟨⟨-, hk, h64, -⟩, rfl⟩ := execShiftDrT_next.1 h
    exact .scan rfl (splitFromBuffers_scanEnd _ _ _ _ _ _ hk h64)
  | loadInstruction ins len bb ba =>
    obtain ⟨⟨-, ⟨hlen, -⟩, h64⟩, rfl⟩ := execLoadInstruction_next.1 h
    exact .scan rfl (loadInstruction_scanEnd _ _ _ _ _ hlen h64)
  | transfer req w db da out =>
    obtain ⟨⟨-, h64, -⟩, rfl⟩ := execTransfer_next.1 h
    exact .scan rfl (runTransfer_scanEnd _ _ _ _ _ _ h64)

end Sys2Proof.Machine

/-! # Proofs: the invariant (spec/10_state.md R22, R29, R37, R40, R46, spec/30_encoding.md R85) -/

namespace Sys2Proof.Machine

/-- An operation on the lines, or on the result port alone, keeps the invariant if it keeps what the invariant says of lines
that are held. -/
theorem inv_of_lineOp {s t : State} (h : Inv s) (hf : LineOpFrame s t)
    (hlevels : linesHeld t = true →
      t.lines.tck = true ∧ t.lines.srst = true ∧ t.lines.trst = true ∧ t.lines.tdoInput = true)
    (htrace : linesHeld t = true → replayLevels t.trace = levelsOf t.lines) : Inv t := by
  obtain ⟨hparams, hprofile, hts, hcaptured, hscratch, hengine, -⟩ := hf
  exact ⟨hparams ▸ h.codesDiffer, hprofile ▸ h.variantMatchesTier, hlevels, htrace, hengine ▸ h.bitCountBounded,
    hscratch ▸ h.scratchIsWhole, hparams ▸ hts ▸ hcaptured ▸ h.timestampFits⟩

/-- Nothing is said of lines that are not held. -/
theorem inv_of_not_held {s t : State} (h : Inv s) (hf : LineOpFrame s t) (hheld : linesHeld t = false) : Inv t :=
  inv_of_lineOp h hf (by simp [hheld]) (by simp [hheld])

/-- The idle levels are those of held lines, and the trace ends in the event that sets them (R37, R183). -/
theorem inv_takeIdleLevels {s : State} (h : Inv s) (owned : Bool) (r : Result) :
    Inv (setResult r { takeIdleLevels s with linesOwned := owned }) :=
  inv_of_lineOp h (by simp [LineOpFrame]) (fun _ => ⟨rfl, rfl, rfl, rfl⟩)
    (fun _ => replayLevels_append s.trace [.idle])

/-- CONFIGURE writes nothing else the invariant speaks of. -/
theorem inv_configure {s : State} (h : Inv s) (p : Profile) (hp : p.variant = .unthrottled ↔ p.tier = .none) (r : Result) :
    Inv (setResult r { s with profile := p }) :=
  ⟨h.codesDiffer, fun _ => hp, h.heldLevels, h.traceGivesLevels, h.bitCountBounded, h.scratchIsWhole, h.timestampFits⟩

theorem exec_inv {i : Instr} {s t : State} (h : Inv s) (hexec : exec i s = .next t) : Inv t := by
  cases exec_completion hexec with
  | init => exact inv_takeIdleLevels h true .nothing
  | fini => exact inv_of_not_held h (by simp [LineOpFrame]) rfl
  | reconfigureIo => exact inv_takeIdleLevels h s.linesOwned .nothing
  | configure f r c p hp => exact inv_configure h p hp .nothing
  | getTimestamp => exact inv_of_lineOp h (by simp [LineOpFrame]) h.heldLevels h.traceGivesLevels
  | scan hi he => exact inv_of_scanEnd h he

/-- The invariant does not speak of the host's events to come. -/
theorem inv_withQueue {s : State} (h : Inv s) (queue : List HostEvent) : Inv { s with queue := queue } :=
  ⟨h.codesDiffer, h.variantMatchesTier, h.heldLevels, h.traceGivesLevels, h.bitCountBounded, h.scratchIsWhole,
    h.timestampFits⟩

/-- Repurposed lines are not held (R184). -/
theorem inv_repurposeLines {s : State} (h : Inv s) : Inv (repurposeLines s) :=
  inv_of_not_held h (by simp [LineOpFrame]) (by simp [linesHeld])

/-- A step that completes waits, sees the lines repurposed, or runs the command it takes. -/
theorem step_next {s t : State} (h : step s = .next t) :
    (s.queue = [] ∧ t = s) ∨
    (∃ rest, s.queue = .repurpose :: rest ∧ t = repurposeLines { s with queue := rest }) ∨
    (∃ word rest i, s.queue = .issue word :: rest ∧ decode word = .ok i ∧ exec i { s with queue := rest } = .next t) := by
  match hqueue : s.queue with
  | [] => left; simpa [step, fetch, hqueue, eq_comm] using h
  | .repurpose :: rest => right; left; simpa [step, fetch, hqueue, eq_comm] using h
  | .issue word :: rest =>
    cases hdecode : decode word with
    | error e => simp [step, fetch, hqueue, hdecode] at h
    | ok i => exact .inr (.inr ⟨word, rest, i, rfl, hdecode, by simpa [step, fetch, hqueue, hdecode] using h⟩)

/-- Settles O41: what each kind of step does keeps the invariant. -/
theorem stepKeepsInvariant : Obligations.StepKeepsInvariant := by
  intro s t h hstep
  obtain ⟨-, rfl⟩ | ⟨rest, -, rfl⟩ | ⟨word, rest, i, -, -, hexec⟩ := step_next hstep
  · exact h
  · exact inv_repurposeLines (inv_withQueue h rest)
  · exact exec_inv (inv_withQueue h rest) hexec

/-- Settles O42: nothing is configured, held or captured at reset. -/
theorem resetMeetsInvariant : Obligations.ResetMeetsInvariant where
  codesDiffer := by decide
  variantMatchesTier := nofun
  heldLevels := nofun
  traceGivesLevels := nofun
  bitCountBounded := Nat.zero_le _
  scratchIsWhole := rfl
  timestampFits := nofun

end Sys2Proof.Machine

/-! # Proofs: what no other operation writes (spec/10_state.md R27, R38 to R40) -/

namespace Sys2Proof.Machine

/-- Settles O13: no other operation's effect touches the profile. -/
theorem onlyConfigureWritesProfile : Obligations.OnlyConfigureWritesProfile := by
  intro i s t hne hexec
  cases exec_completion hexec with
  | init => rfl
  | fini => rfl
  | reconfigureIo => rfl
  | configure f r c => exact absurd rfl (hne f r c)
  | getTimestamp => rfl
  | scan hi he =>
    obtain ⟨-, hprofile, -⟩ := he.frame
    exact hprofile

/-- Settles O30: of the scans only TRANSFER takes a snapshot, and no other operation has one. -/
theorem onlyTransferWritesTimestamp : Obligations.OnlyTransferWritesTimestamp := by
  intro i s t hne hexec
  cases exec_completion hexec with
  | init => exact ⟨rfl, rfl, rfl⟩
  | fini => exact ⟨rfl, rfl, rfl⟩
  | reconfigureIo => exact ⟨rfl, rfl, rfl⟩
  | configure => exact ⟨rfl, rfl, rfl⟩
  | getTimestamp => exact ⟨rfl, rfl, rfl⟩
  | scan hi he =>
    obtain ⟨-, hts, hcaptured, -, hticks⟩ := scan_shiftFrame hexec hi hne
    exact ⟨hts, hcaptured, hticks⟩

/-- Settles O36: the idle levels have both reset lines high, and of the others only FINI loosens them. -/
theorem resetLinesOnlyDrivenHigh : Obligations.ResetLinesOnlyDrivenHigh := by
  intro i s t hexec hfini
  cases exec_completion hexec with
  | init => exact ⟨fun _ => ⟨rfl, rfl⟩, fun hinit => absurd rfl hinit⟩
  | fini => exact absurd rfl hfini
  | reconfigureIo => exact ⟨fun _ => ⟨rfl, rfl⟩, fun _ hreconfigure => absurd rfl hreconfigure⟩
  | configure => exact ⟨by simp, fun _ _ => ⟨rfl, rfl⟩⟩
  | getTimestamp => exact ⟨by simp, fun _ _ => ⟨rfl, rfl⟩⟩
  | scan hi he =>
    obtain ⟨-, -, -, -, hsrst, htrst, -⟩ := he.frame
    refine ⟨?_, fun _ _ => ⟨hsrst, htrst⟩⟩
    rintro (rfl | rfl) <;> cases hi

/-- Settles O44: of all effects only those of INIT, FINI and RECONFIGURE_IO touch either mark. -/
theorem ownershipChangesOnlyByLineOperations : Obligations.OwnershipChangesOnlyByLineOperations := by
  intro i s t hexec
  cases exec_completion hexec with
  | init => exact ⟨fun hinit => absurd rfl hinit, fun hinit => absurd rfl hinit⟩
  | fini => exact ⟨fun _ hfini => absurd rfl hfini, fun _ _ => rfl⟩
  | reconfigureIo => exact ⟨fun _ _ => rfl, fun _ hreconfigure => absurd rfl hreconfigure⟩
  | configure => exact ⟨fun _ _ => rfl, fun _ _ => rfl⟩
  | getTimestamp => exact ⟨fun _ _ => rfl, fun _ _ => rfl⟩
  | scan hi he =>
    obtain ⟨-, -, howned, hrepurposed, -⟩ := he.frame
    exact ⟨fun _ _ => howned, fun _ _ => hrepurposed⟩

/-- States that differ in working registers alone are one state with two sets of them. -/
theorem eq_withWorking_of_clearWorking {s s' : State} (h : clearWorking s = clearWorking s') :
    s = withWorking s.scratch s.engine s.retry s' := by
  change withWorking s.scratch s.engine s.retry (clearWorking s) = withWorking s.scratch s.engine s.retry (clearWorking s')
  rw [h]

/-- What the working registers held before an operation reaches nothing else (R22, R32 to R34). -/
theorem exec_withWorking (i : Instr) (a : Scratch) (e : EngineRegs) (r : RetryRegs) (s : State) :
    mapNext clearWorking (exec i (withWorking a e r s)) = mapNext clearWorking (exec i s) := by
  cases i with
  | init => rfl
  | fini => rfl
  | reconfigureIo => exact mapNext_unlessRefused _ _ _ rfl
  | configure f k c => rfl
  | getTimestamp => rfl
  | rawShift n tms tdi => exact mapNext_unlessRefused _ _ _ (flatFromBuffers_other _ n tms tdi a e r s)
  | shiftU n tms tdi => exact mapNext_unlessRefused _ _ _ (flatFromBuffers_other _ n tms tdi a e r s)
  | shiftT n tms tdi => exact mapNext_unlessRefused _ _ _ (flatFromBuffers_other _ n tms tdi a e r s)
  | shiftDrU m k tms tdi => exact mapNext_unlessRefused _ _ _ (splitFromBuffers_other _ m k tms tdi a e r s)
  | shiftDrT m k tms tdi => exact mapNext_unlessRefused _ _ _ (splitFromBuffers_other _ m k tms tdi a e r s)
  | loadInstruction ins len bb ba =>
    refine mapNext_unlessRefused _ _ _ ?_
    rw [irScan_other]; rfl
  | transfer req w db da out =>
    exact mapNext_unlessRefused _ _ _ (congrArg clearWorking (runTransfer_other req w db da out a e r s))

/-- Settles O38: the two states are one with two sets of working registers. -/
theorem workingRegistersCarryNothing : Obligations.WorkingRegistersCarryNothing := by
  intro i s s' h
  rw [eq_withWorking_of_clearWorking h, exec_withWorking]

end Sys2Proof.Machine

/-! # Proofs: reset and the step (spec/10_state.md R25, R44, spec/30_encoding.md R71, R73) -/

namespace Sys2Proof.Machine

/-- Settles O1: at reset the lines are not held. -/
theorem resetRefusesEveryScan : Obligations.ResetRefusesEveryScan :=
  ⟨rfl, rfl, scan_refused_of_not_held rfl, rfl⟩

/-- Settles O2: the fetch takes the command at the head of the queue. -/
theorem stepRunsDecodedInstruction : Obligations.StepRunsDecodedInstruction := by
  intro s word rest i hqueue hdecode
  simp only [step, fetch, hqueue, hdecode]

end Sys2Proof.Machine

/-! # Proofs: the pin trace only grows (spec/00_scope.md R12, spec/20_memory.md R62) -/

namespace Sys2Proof.Machine

/-- The split shift's events are those of the flat shift of the same length (R123). -/
theorem splitFromBuffers_trace_grows (v : Variant) (m k : Nat) (tms tdi : List Byte) (s : State) (hk : k < 8) :
    ∃ events, (splitFromBuffers v m k tms tdi s).trace = s.trace ++ events := by
  rw [splitFromBuffers_eq v tms tdi s m k hk]
  exact ⟨_, flatFromBuffers_trace v _ tms tdi s⟩

/-- A TRANSFER's events are those of its attempts in turn; the snapshot before them makes none (R156, R168). -/
theorem runTransfer_trace_grows (req : BitVec 3) (w : BitVec 32) (db da : Nat) (out : Option (List Byte)) (s : State) :
    ∃ events, (runTransfer req w db da out s).trace = s.trace ++ events := by
  obtain ⟨_, _, hscans⟩ := drAttempts_scans req w db da s.profile.retryLimit (clearAttempts (snapshotTicks s))
  exact ⟨_, hscans.trace⟩

/-- The events of every scan come after those before it. -/
theorem scan_trace_grows {i : Instr} {s t : State} (h : exec i s = .next t) (hi : isScan i = true) :
    ∃ events, t.trace = s.trace ++ events := by
  cases i with
  | init => cases hi
  | fini => cases hi
  | reconfigureIo => cases hi
  | configure f r c => cases hi
  | getTimestamp => cases hi
  | rawShift n tms tdi => obtain ⟨-, rfl⟩ := execRawShift_next.1 h; exact ⟨_, flatFromBuffers_trace _ n tms tdi s⟩
  | shiftU n tms tdi => obtain ⟨-, rfl⟩ := execShiftU_next.1 h; exact ⟨_, flatFromBuffers_trace _ n tms tdi s⟩
  | shiftT n tms tdi => obtain ⟨-, rfl⟩ := execShiftT_next.1 h; exact ⟨_, flatFromBuffers_trace _ n tms tdi s⟩
  | shiftDrU m k tms tdi =>
    obtain ⟨⟨-, hk, -⟩, rfl⟩ := execShiftDrU_next.1 h
    exact splitFromBuffers_trace_grows _ m k tms tdi s hk
  | shiftDrT m k tms tdi =>
    obtain ⟨⟨-, hk, -⟩, rfl⟩ := execShiftDrT_next.1 h
    exact splitFromBuffers_trace_grows _ m k tms tdi s hk
  | loadInstruction ins len bb ba =>
    obtain ⟨-, rfl⟩ := execLoadInstruction_next.1 h
    exact ⟨_, irScan_trace ins len bb ba s⟩
  | transfer req w db da out =>
    obtain ⟨-, rfl⟩ := execTransfer_next.1 h
    exact runTransfer_trace_grows req w db da out s

/-- Settles O37: INIT and RECONFIGURE_IO add the idle event, a scan its bit cycles, the other operations nothing. -/
theorem traceOnlyGrows : Obligations.TraceOnlyGrows := by
  intro i s t hexec
  cases exec_completion hexec with
  | init => exact ⟨_, takeIdleLevels_trace s⟩
  | fini => exact ⟨[], (List.append_nil _).symm⟩
  | reconfigureIo => exact ⟨_, takeIdleLevels_trace s⟩
  | configure => exact ⟨[], (List.append_nil _).symm⟩
  | getTimestamp => exact ⟨[], (List.append_nil _).symm⟩
  | scan hi he => exact scan_trace_grows hexec hi

end Sys2Proof.Machine

/-! # Proofs: decoding and encoding (spec/30_encoding.md R71 to R73, R89) -/

namespace Sys2Proof.Machine

/-- Every instruction has its row of the table (R71, R73). -/
theorem tableRow_statement : ∀ i : Instr, Laws.TableRow.Statement i
  | .init => Laws.TableRow.init
  | .fini => Laws.TableRow.fini
  | .reconfigureIo => Laws.TableRow.reconfigureIo
  | .configure f r c => Laws.TableRow.configure f r c
  | .rawShift n tms tdi => Laws.TableRow.rawShift n tms tdi
  | .loadInstruction ins len bb ba => Laws.TableRow.loadInstruction ins len bb ba
  | .transfer req w db da out => Laws.TableRow.transfer req w db da out
  | .getTimestamp => Laws.TableRow.getTimestamp
  | .shiftU n tms tdi => Laws.TableRow.shiftU n tms tdi
  | .shiftT n tms tdi => Laws.TableRow.shiftT n tms tdi
  | .shiftDrU m k tms tdi => Laws.TableRow.shiftDrU m k tms tdi
  | .shiftDrT m k tms tdi => Laws.TableRow.shiftDrT m k tms tdi

theorem decode_encode (i : Instr) : decode (encode i) = .ok i := (tableRow_statement i).2

/-- A CMD code that selects an operation is the code of that operation's own command (R71). -/
theorem encode_of_decode_cmd {op : BitVec 4} {p : CmdPorts} {i : Instr} (h : decode (.cmd op p) = .ok i) :
    ∃ q, encode i = .cmd op q := by
  by_cases hop : op.toNat < 8
  · obtain ⟨i', q, hdecode, hencode⟩ := decode_selects op p hop
    obtain rfl : i' = i := Except.ok.inj (hdecode.symm.trans h)
    exact ⟨q, hencode⟩
  · rw [decode_reserved op p (by omega)] at h
    cases h

/-- Exactly the CMD codes from 8 up are rejected (R89). -/
theorem decode_cmd_error_iff (op : BitVec 4) (p : CmdPorts) :
    decode (.cmd op p) = .error (.reservedOpcode op) ↔ 8 ≤ op.toNat := by
  refine ⟨fun h => ?_, decode_reserved op p⟩
  by_contra hop
  obtain ⟨i, -, hdecode, -⟩ := decode_selects op p (by omega)
  rw [hdecode] at h
  cases h

theorem select_cases : ∀ sel : BitVec 2, sel = 0 ∨ sel = 1 ∨ sel = 2 ∨ sel = 3 := by decide

/-- Every ENG select names the entry point whose own command has that select (R73). -/
theorem decode_eng_selects (sel : BitVec 2) (p : EngPorts) :
    ∃ (i : Instr) (q : EngPorts), decode (.eng sel p) = .ok i ∧ encode i = .eng sel q := by
  obtain rfl | rfl | rfl | rfl := select_cases sel
  · exact ⟨.shiftU p.bitCount p.tms p.tdi, _, rfl, rfl⟩
  · exact ⟨.shiftT p.bitCount p.tms p.tdi, _, rfl, rfl⟩
  · exact ⟨.shiftDrU p.byteCountBulk p.tailBitCount p.tms p.tdi, _, rfl, rfl⟩
  · exact ⟨.shiftDrT p.byteCountBulk p.tailBitCount p.tms p.tdi, _, rfl, rfl⟩

/-- Settles O6: every row of the table decodes back, and each format selects by the code of the row alone. -/
theorem decodeAndEncodeAgree : Obligations.DecodeAndEncodeAgree :=
  ⟨decode_encode, fun _ _ _ => encode_of_decode_cmd, decode_eng_selects, decode_cmd_error_iff⟩

/-- A command that selects nothing is refused (R89, R213). -/
theorem step_of_decode_error {s : State} {word : IssueWord} {rest : List HostEvent} {e : DecodeError}
    (hqueue : s.queue = .issue word :: rest) (hdecode : decode word = .error e) : step s = .refused .reservedOpcode := by
  simp only [step, fetch, hqueue, hdecode]

/-- Settles O4: the decoder rejects a code of 8 or more, and the step runs what a lower one selects. -/
theorem reservedCodesAreRefused : Obligations.ReservedCodesAreRefused := by
  intro s op p rest hqueue
  refine ⟨fun hop => step_of_decode_error hqueue (decode_reserved op p hop), fun hop => ?_⟩
  obtain ⟨i, -, hdecode, -⟩ := decode_selects op p hop
  exact ⟨i, hdecode, stepRunsDecodedInstruction s _ rest i hqueue hdecode⟩

/-- Settles O5: six words of the two tables, run through the decoder. -/
theorem tableWordsDecode : Obligations.TableWordsDecode :=
  ⟨rfl, rfl, rfl, rfl, rfl, rfl⟩

end Sys2Proof.Machine

/-! # Proofs: the frames as numbers (spec/30_encoding.md R77, R78, R82) -/

namespace Sys2Proof.Machine

/-- Settles O22: the encoder's cursor gives the length and the TDI number, its four TMS bits the TMS number. -/
theorem irFrameNumbers : Obligations.IrFrameNumbers := by
  intro ins len bb ba hlen _ hfits
  obtain ⟨hp, htdi, -⟩ := encodeIr_atCursor ins len bb ba hlen hfits
  refine ⟨hp, ?_, htdi⟩
  rw [encodeIr_tms ins len bb ba hlen hfits]
  exact irTmsBits_toNat (6 + bb + len + ba) (by omega) hfits

/-- Settles O25: TMS is bit 0 with the two bits at the exit, TDI the header, the data of a write and the last bit. -/
theorem drFrameNumbers : Obligations.DrFrameNumbers := by
  intro req w db da ic hfits
  exact ⟨drTms_toNat false db da (by omega), drTms_toNat true db da (by omega), drTdi_toNat req w db da ic hfits⟩

end Sys2Proof.Machine

/-! # Proofs: the acknowledge (spec/30_encoding.md R84, spec/43_dr_transfer.md R161, R162) -/

namespace Sys2Proof.Machine

/-- The raw acknowledge is three bits of `S_TDO` in wire order (R161). -/
theorem getLsbD_rawAckWindow (tdo : List Byte) (db j : Nat) (hj : j < 3) :
    (rawAckWindow tdo db).getLsbD j = bufBit tdo (db + 3 + j) := by
  rw [rawAckWindow, getLsbD_bufSlice, decide_eq_true hj, Bool.true_and, ackOffset, Config.drNavBits]

theorem ackReorder_involutive : ∀ raw : BitVec 3, ackReorder (ackReorder raw) = raw := by decide

section
variable {req : BitVec 3} {w : BitVec 32} {db da k : Nat} {s t : State} {scans : List (List Bool)} {last : List Bool}
  (h : LoopScans req w db da k s t scans last)
include h

/-- The events of the last scan end the trace. -/
theorem loopScans_trace_last : ∃ earlier, t.trace = earlier ++
    scanEvents (waitEvents s.profile.variant s.profile) (drTms s.params.drExitOverlap db da).getLsbD
      (drTdi req w db da s.profile.idleCycles).getLsbD 0 last := by
  rw [h.trace, ← List.dropLast_append_getLast? last h.ends, List.map_append, List.flatten_append, ← List.append_assoc]
  exact ⟨_, by rw [List.map_singleton, List.flatten_singleton]⟩

theorem loopScans_length_last : last.length = drLength db da s.profile.idleCycles :=
  h.lengths last (List.mem_of_getLast? h.ends)

/-- `S_TDO` holds the samples of the last scan at the three places of the acknowledge (R160, R161). -/
theorem loopScans_ackBit (j : Nat) (hj : j < 3) : bufBit t.scratch.tdo (db + 3 + j) = last.getD (db + 3 + j) false :=
  h.tdo _ (by simp only [drLength, Config.drFixedBits]; omega)

/-- The code is the reordered window of the samples of the last scan (R162). -/
theorem loopScans_ack : t.retry.ack = ackReorder (rawAckWindow t.scratch.tdo db) :=
  h.ack.trans (decodeAck_eq t.scratch.tdo db last (loopScans_ackBit h)).symm

end

/-- Settles O48: the code of a TRANSFER is read from the bytes of `S_TDO` its last scan wrote. -/
theorem acknowledgeIsReorderedWindow : Obligations.AcknowledgeIsReorderedWindow := by
  refine ⟨fun tdo db => ⟨rawAckWindow tdo db, rfl, getLsbD_rawAckWindow tdo db⟩,
    fun raw => ⟨rfl, ackReorder_involutive raw⟩, by decide, ?_⟩
  intro req w db da out s t hexec
  obtain ⟨-, rfl⟩ := execTransfer_next.1 hexec
  obtain ⟨scans, last, hscans⟩ := drAttempts_scans req w db da s.profile.retryLimit (clearAttempts (snapshotTicks s))
  obtain ⟨earlier, htrace⟩ := loopScans_trace_last hscans
  have hlength := loopScans_length_last hscans
  refine ⟨earlier, last, rawAckWindow _ db, _, htrace, hlength, fun j hj => ?_,
    congrArg (Result.ack · _) (loopScans_ack hscans)⟩
  rw [getLsbD_rawAckWindow _ _ _ hj, loopScans_ackBit hscans j hj]

end Sys2Proof.Machine

/-! # Proofs: shifts outside their domain (spec/30_encoding.md R72, R89, spec/41_shift_engine.md R119, R121, spec/10_state.md R46) -/

namespace Sys2Proof.Machine

/-- A check that passes leaves the report to those after it (R215). -/
theorem firstRefusal_of_none {c : Option Refusal} {rest : List (Option Refusal)} (h : c = none) :
    firstRefusal (c :: rest) = firstRefusal rest := by
  rw [h, firstRefusal]

/-- A check that fails is the one reported. -/
theorem firstRefusal_of_some {c : Option Refusal} {rest : List (Option Refusal)} {r : Refusal} (h : c = some r) :
    firstRefusal (c :: rest) = some r := by
  rw [h, firstRefusal]

theorem bufferRefusal_some {n : Nat} {tms tdi : List Byte} (h : tms.length < byteCount n ∨ tdi.length < byteCount n) :
    bufferRefusal n tms tdi = some .badBuffer := by
  unfold bufferRefusal
  exact if_neg (by simp only [buffersHold, bufferHolds, Bool.and_eq_true, decide_eq_true_eq]; omega)

theorem exactBufferRefusal_some {n : Nat} {tms tdi : List Byte} (h : tms.length ≠ byteCount n ∨ tdi.length ≠ byteCount n) :
    exactBufferRefusal n tms tdi = some .badBuffer := by
  unfold exactBufferRefusal
  exact if_neg (by simp only [buffersExact, bufferExact, Bool.and_eq_true, decide_eq_true_eq]; omega)

section
variable {s : State} (hready : ScanReady s) {tms tdi : List Byte}
include hready

/-- Where a scan may run, only the checks of its operands can refuse it. -/
theorem firstRefusal_of_ready {rest : List (Option Refusal)} : firstRefusal (scanRefusal s :: rest) = firstRefusal rest :=
  firstRefusal_of_none (scanRefusal_none.2 hready)

theorem flatChecks_badBitCount {n : Nat} (hn : n = 0 ∨ 64 < n) :
    firstRefusal (flatChecks n tms tdi s) = some .badBitCount := by
  rw [flatChecks, firstRefusal_of_ready hready]
  exact firstRefusal_of_some (bitCountRefusal_some hn)

theorem flatChecks_badBuffer {n : Nat} (h1 : 1 ≤ n) (h64 : n ≤ 64)
    (hshort : tms.length < byteCount n ∨ tdi.length < byteCount n) :
    firstRefusal (flatChecks n tms tdi s) = some .badBuffer := by
  rw [flatChecks, firstRefusal_of_ready hready, Config.scratchBits, firstRefusal_of_none (bitCountRefusal_none.2 ⟨h1, h64⟩)]
  exact firstRefusal_of_some (bufferRefusal_some hshort)

theorem splitChecks_badTailCount {m k : Nat} (hk : 8 ≤ k) : firstRefusal (splitChecks m k tms tdi s) = some .badTailCount := by
  rw [splitChecks, firstRefusal_of_ready hready]
  exact firstRefusal_of_some (if_pos hk)

/-- With a tail within a byte, a split shift has the checks of the flat shift of its length. -/
theorem splitChecks_eq_flatChecks {m k : Nat} (hk : k < 8) :
    firstRefusal (splitChecks m k tms tdi s) = firstRefusal (flatChecks (splitLength m k) tms tdi s) := by
  rw [splitChecks, flatChecks, firstRefusal_of_ready hready, firstRefusal_of_ready hready]
  exact firstRefusal_of_none (check_none.2 (Nat.not_le.2 hk))

end

/-- Both flat entries are refused by what their shared checks report (R119, R120). -/
theorem flatEntries_refused {n : Nat} {tms tdi : List Byte} {s : State} {r : Refusal}
    (h : firstRefusal (flatChecks n tms tdi s) = some r) :
    exec (.shiftU n tms tdi) s = .refused r ∧ exec (.shiftT n tms tdi) s = .refused r :=
  ⟨unlessRefused_refused.2 h, unlessRefused_refused.2 h⟩

/-- Both split entries are refused by what their shared checks report (R121, R122). -/
theorem splitEntries_refused {m k : Nat} {tms tdi : List Byte} {s : State} {r : Refusal}
    (h : firstRefusal (splitChecks m k tms tdi s) = some r) :
    exec (.shiftDrU m k tms tdi) s = .refused r ∧ exec (.shiftDrT m k tms tdi) s = .refused r :=
  ⟨unlessRefused_refused.2 h, unlessRefused_refused.2 h⟩

theorem rawShift_badBuffer {n : Nat} {tms tdi : List Byte} {s : State} (hready : ScanReady s) (h1 : 1 ≤ n) (h64 : n ≤ 64)
    (hlen : tms.length ≠ byteCount n ∨ tdi.length ≠ byteCount n) : exec (.rawShift n tms tdi) s = .refused .badBuffer := by
  refine unlessRefused_refused.2 ?_
  rw [firstRefusal_of_ready hready, Config.rawMaxBits, firstRefusal_of_none (bitCountRefusal_none.2 ⟨h1, h64⟩)]
  exact firstRefusal_of_some (exactBufferRefusal_some hlen)

/-- Settles O45: the checks run in order, so the first operand outside its domain is the one reported. -/
theorem shiftRefusals : Obligations.ShiftRefusals := by
  intro tms tdi s hready
  refine ⟨fun n h1 h64 hlen => rawShift_badBuffer hready h1 h64 hlen,
    fun n hn => flatEntries_refused (flatChecks_badBitCount hready hn),
    fun n h1 h64 hshort => flatEntries_refused (flatChecks_badBuffer hready h1 h64 hshort),
    fun m k hk => splitEntries_refused (splitChecks_badTailCount hready hk),
    fun m k hk hlong => splitEntries_refused ?_, fun m k hk h64 hshort => splitEntries_refused ?_⟩
  · rw [splitChecks_eq_flatChecks hready hk]
    exact flatChecks_badBitCount hready (.inr hlong)
  · rw [splitChecks_eq_flatChecks hready hk]
    exact flatChecks_badBuffer hready (one_le_splitLength m k) h64 hshort

end Sys2Proof.Machine

/-! # Proofs: the speed profile (spec/40_speed_profile.md R101 to R104) -/

namespace Sys2Proof.Machine

/-! ### The two variants of a flat shift (R104) -/

/-- The engine's last byte and the buffer it returns come from the engine registers alone. -/
theorem alike_finishByte (n : Nat) {s u : State} (h : AlikeButWaits s u) : AlikeButWaits (finishByte n s) (finishByte n u) where
  lines := h.lines
  env := h.env
  draws := h.draws
  engine := by rw [finishByte, finishByte, h.engine]
  trace := h.trace

/-- Both variants of a flat shift, begun in one state, end alike but for the waits. -/
theorem alike_shiftFlat (v v' : Variant) (n tms tdi : Nat) (s : State) :
    AlikeButWaits (shiftFlat v n tms tdi s) (shiftFlat v' n tms tdi s) :=
  alike_finishByte n (alike_bitCycles n v v' ⟨rfl, rfl, rfl, rfl, rfl⟩)

/-- Settles O19: both variants run the flat shift from one state, and the `tdo` returned is the engine's. -/
theorem variantsDifferOnlyInWaits : Obligations.VariantsDifferOnlyInWaits := by
  intro n tms tdi s t u hU hT
  obtain ⟨-, rfl⟩ := execShiftU_next.1 hU
  obtain ⟨-, rfl⟩ := execShiftT_next.1 hT
  have halike := alike_shiftFlat .unthrottled .throttled n (bufNat tms) (bufNat tdi) s
  refine ⟨?_, halike.trace, halike.lines, halike.env⟩
  simp only [flatFromBuffers, returnTdo_result, halike.engine]

/-! ### CONFIGURE (R101 to R103) -/

/-- The profile CONFIGURE writes (R101). -/
def configuredProfile (f r c : Nat) : Profile where
  cfgValid := true
  variant := variantOf (tierOf f)
  tier := tierOf f
  delayTicks := Config.delayTicks Config.busClockHz f
  idleCycles := c
  retryLimit := r

/-- CONFIGURE completes in every state and writes the profile and the result alone. -/
theorem exec_configure (f r c : Nat) (s : State) :
    exec (.configure f r c) s = .next (setResult .nothing { s with profile := configuredProfile f r c }) := rfl

/-- Settles O11: the profile written holds the operands, their tick count and the mark of a configuration. -/
theorem configureCompletes : Obligations.ConfigureCompletes := by
  intro s f r c
  exact ⟨_, exec_configure f r c s, rfl, rfl, rfl, rfl, rfl, rfl⟩

/-- The frequencies a row of the strategy table is for: from its own threshold up to the one above (R102). -/
def InBand (f : Nat) : Tier → Prop
  | .none => 3000 ≤ f
  | .a => 1500 ≤ f ∧ f < 3000
  | .b => 750 ≤ f ∧ f < 1500
  | .c => 375 ≤ f ∧ f < 750
  | .d => f < 375

theorem inBand_tierOf (f : Nat) : InBand f (tierOf f) := by
  unfold tierOf
  split_ifs with h3000 h1500 h750 h375
  · exact h3000
  · exact ⟨h1500, Nat.not_le.1 h3000⟩
  · exact ⟨h750, Nat.not_le.1 h1500⟩
  · exact ⟨h375, Nat.not_le.1 h750⟩
  · exact Nat.not_le.1 h375

/-- The bands do not overlap: within a tier's band every higher threshold fails and its own holds. -/
theorem tierOf_eq_iff (f : Nat) (tier : Tier) : tierOf f = tier ↔ InBand f tier := by
  refine ⟨fun h => h ▸ inBand_tierOf f, fun h => ?_⟩
  unfold tierOf
  cases tier with
  | none => exact if_pos h
  | a =>
    obtain ⟨hlow, hhigh⟩ := h
    rw [if_neg (by omega), if_pos hlow]
  | b =>
    obtain ⟨hlow, hhigh⟩ := h
    rw [if_neg (by omega), if_neg (by omega), if_pos hlow]
  | c =>
    obtain ⟨hlow, hhigh⟩ := h
    rw [if_neg (by omega), if_neg (by omega), if_neg (by omega), if_pos hlow]
  | d =>
    have hhigh : f < 375 := h
    rw [if_neg (by omega), if_neg (by omega), if_neg (by omega), if_neg (by omega)]

/-- Settles O12: the tier written is the one of the frequency's band, and its variant is unthrottled for none alone. -/
theorem configureSelectsTier : Obligations.ConfigureSelectsTier := by
  intro s t f r c hexec
  cases (exec_configure f r c s).symm.trans hexec
  exact ⟨tierOf_eq_iff f .none, tierOf_eq_iff f .a, tierOf_eq_iff f .b, tierOf_eq_iff f .c, tierOf_eq_iff f .d,
    (variantOf_unthrottled_iff (tierOf f)).trans (tierOf_eq_iff f .none)⟩

end Sys2Proof.Machine

/-! # Proofs: the shift engine's entry points (spec/41_shift_engine.md R116 to R128) -/

namespace Sys2Proof.Machine

/-! ### Flat shifts (R116, R118 to R120, R128) -/

/-- What a flat shift of the caller's buffers leaves: its pin events, its bytes, the line levels, and everything else as it was. -/
theorem flatFromBuffers_outcome (v : Variant) (n : Nat) (tms tdi : List Byte) (s : State) (h1 : 1 ≤ n) :
    ∃ (samples : List Bool) (bytes : List Byte), samples.length = n ∧
      (flatFromBuffers v n tms tdi s).trace =
        s.trace ++ scanEvents (waitEvents v s.profile) (bufBit tms) (bufBit tdi) 0 samples ∧
      (flatFromBuffers v n tms tdi s).result = .tdo bytes ∧ bytes.length = byteCount n ∧
      (∀ i, bufBit bytes i = samples.getD i false) ∧
      (flatFromBuffers v n tms tdi s).lines =
        { s.lines with tck := true, tms := bufBit tms (n - 1), tdi := bufBit tdi (n - 1) } ∧
      (flatFromBuffers v n tms tdi s).scratch = s.scratch ∧ ShiftFrame s (flatFromBuffers v n tms tdi s) :=
  ⟨_, _, shiftSamples_length v n _ _ s, flatFromBuffers_trace v n tms tdi s, returnTdo_result _,
    shiftFlat_tdo_length v n _ _ s, shiftFlat_tdo_bit v n _ _ s, flatFromBuffers_lines v n tms tdi s h1,
    shiftFlat_scratch v n _ _ s, flatFromBuffers_scanFrame v n tms tdi s h1⟩

section
variable {n : Nat} {tms tdi : List Byte} {s : State} (hready : ScanReady s) (h1 : 1 ≤ n) (h64 : n ≤ 64)
  (htms : byteCount n ≤ tms.length) (htdi : byteCount n ≤ tdi.length)
include hready h1 h64 htms htdi

theorem exec_shiftU_completes : exec (.shiftU n tms tdi) s = .next (flatFromBuffers .unthrottled n tms tdi s) :=
  execShiftU_next.2 ⟨⟨hready, ⟨h1, h64⟩, htms, htdi⟩, rfl⟩

theorem exec_shiftT_completes : exec (.shiftT n tms tdi) s = .next (flatFromBuffers .throttled n tms tdi s) :=
  execShiftT_next.2 ⟨⟨hready, ⟨h1, h64⟩, htms, htdi⟩, rfl⟩

end

/-- Settles O14: SHIFT.U is the flat shift of the variant that makes no waits. -/
theorem shiftUnthrottledCompletes : Obligations.ShiftUnthrottledCompletes := by
  intro n tms tdi s hready h1 h64 htms htdi
  obtain ⟨samples, bytes, houtcome⟩ := flatFromBuffers_outcome .unthrottled n tms tdi s h1
  exact ⟨_, samples, bytes, exec_shiftU_completes hready h1 h64 htms htdi, houtcome⟩

/-- Settles O15: SHIFT.T is the flat shift of the variant with the profile's wait after each edge. -/
theorem shiftThrottledCompletes : Obligations.ShiftThrottledCompletes := by
  intro n tms tdi s hready h1 h64 htms htdi
  obtain ⟨samples, bytes, houtcome⟩ := flatFromBuffers_outcome .throttled n tms tdi s h1
  exact ⟨_, samples, bytes, exec_shiftT_completes hready h1 h64 htms htdi, houtcome⟩

/-! ### Split shifts (R121 to R123) -/

theorem unlessRefused_congr {checks checks' : List (Option Refusal)} {t t' : State}
    (hchecks : firstRefusal checks = firstRefusal checks') (ht : t = t') :
    unlessRefused checks t = unlessRefused checks' t' := by
  rw [unlessRefused, unlessRefused, hchecks, ht]

/-- In every state a split shift with a tail within a byte reports what the flat shift of its length reports: where no scan may
run, both report why. -/
theorem firstRefusal_splitChecks {m k : Nat} {tms tdi : List Byte} {s : State} (hk : k < 8) :
    firstRefusal (splitChecks m k tms tdi s) = firstRefusal (flatChecks (splitLength m k) tms tdi s) := by
  cases hscan : scanRefusal s with
  | none => exact splitChecks_eq_flatChecks (scanRefusal_none.1 hscan) hk
  | some r => exact (firstRefusal_of_some hscan).trans (firstRefusal_of_some hscan).symm

/-- Settles O16: the checks report alike, and the head, the bulk and the tail make one run of bit cycles. -/
theorem splitShiftIsFlatShift : Obligations.SplitShiftIsFlatShift := fun m k tms tdi s hk =>
  ⟨unlessRefused_congr (firstRefusal_splitChecks hk) (splitFromBuffers_eq .unthrottled tms tdi s m k hk),
    unlessRefused_congr (firstRefusal_splitChecks hk) (splitFromBuffers_eq .throttled tms tdi s m k hk)⟩

/-- Settles O17: the flat shifts of the same length complete. -/
theorem splitShiftsComplete : Obligations.SplitShiftsComplete := by
  intro m k tms tdi s hready hk h64 htms htdi
  obtain ⟨hU, hT⟩ := splitShiftIsFlatShift m k tms tdi s hk
  have h1 : 1 ≤ 8 + 8 * m + k := one_le_splitLength m k
  have hflatU := exec_shiftU_completes hready h1 h64 htms htdi
  have hflatT := exec_shiftT_completes hready h1 h64 htms htdi
  exact ⟨⟨_, hU.trans hflatU, hflatU⟩, _, hT.trans hflatT, hflatT⟩

/-! ### RAW_SHIFT (R124, R126) -/

/-- Settles O18: RAW_SHIFT runs the throttled flat shift without asking for `VARIANT`, and checks the bit count before the
buffers. -/
theorem rawShiftIsThrottledShift : Obligations.RawShiftIsThrottledShift := by
  intro n tms tdi s hready
  refine ⟨fun h1 h64 htms htdi => ⟨_, execRawShift_next.2 ⟨⟨hready, ⟨h1, h64⟩, htms, htdi⟩, rfl⟩,
    exec_shiftT_completes hready h1 h64 htms.ge htdi.ge⟩, fun hn => unlessRefused_refused.2 ?_⟩
  rw [firstRefusal_of_ready hready]
  exact firstRefusal_of_some (bitCountRefusal_some hn)

/-! ### TDO wired to TDI (R127) -/

/-- RAW_SHIFT too, where it completes, ends in the flat shift of the caller's buffers (R124). -/
theorem flatFromBuffers_of_anyFlatShift {n : Nat} {tms tdi : List Byte} {s t : State}
    (h : exec (.shiftU n tms tdi) s = .next t ∨ exec (.shiftT n tms tdi) s = .next t ∨
      exec (.rawShift n tms tdi) s = .next t) :
    ∃ v, flatFromBuffers v n tms tdi s = t := by
  obtain h | h | h := h
  · exact flatFromBuffers_of_flatShift (.inl h)
  · exact flatFromBuffers_of_flatShift (.inr h)
  · exact ⟨.throttled, (execRawShift_next.1 h).2⟩

/-- Settles O20: each of the `n` samples is the bit of `tdi` driven in its cycle, and there are no more. -/
theorem loopbackReturnsTdi : Obligations.LoopbackReturnsTdi := by
  intro n tms tdi s t hsource hexec
  obtain ⟨v, rfl⟩ := flatFromBuffers_of_anyFlatShift hexec
  obtain ⟨bytes, hresult, hbits⟩ := flatFromBuffers_result v n tms tdi s
  refine ⟨bytes, hresult, fun i hi => ?_, fun i hi => ?_⟩
  · rw [hbits, shiftFlat_loopback v n _ _ s hsource i hi, testBit_bufNat]
  · rw [hbits, List.getD_eq_default _ _ ((shiftSamples_length v n _ _ s).trans_le hi)]

end Sys2Proof.Machine

/-! # Proofs: the IR scan (spec/42_ir_scan.md R141 to R144, spec/43_dr_transfer.md R170) -/

namespace Sys2Proof.Machine

/-! ### LOAD_INSTRUCTION on its operand domain (R142, R143) -/

/-- The shortest IR frame, of one instruction bit, has 7 bits (R77). -/
theorem irLength_ge {len : Nat} (bb ba : Nat) (hlen : 1 ≤ len) : 7 ≤ irLength len bb ba := by
  simp only [irLength, Config.irFixedBits]; omega

section
variable {ins : BitVec 32} {len bb ba : Nat} (hlen : 1 ≤ len) (hfits : irLength len bb ba ≤ 64)
include hlen hfits

/-- The IR frame has as many bits as its length says (R77). -/
theorem encodeIr_length : (encodeIr ins len bb ba).p = irLength len bb ba :=
  (encodeIr_atCursor ins len bb ba hlen hfits).pos

/-- The last bit of an IR frame: TMS low, TDI high (step 4 of R141). -/
theorem irFrame_lastBit : (encodeIr ins len bb ba).tms.getLsbD (irLength len bb ba - 1) = false ∧
    (encodeIr ins len bb ba).tdi.getLsbD (irLength len bb ba - 1) = true := by
  have h7 := irLength_ge bb ba hlen
  constructor
  · rw [encodeIr_tms ins len bb ba hlen hfits, getLsbD_irTmsBits _ _ hfits h7]
    exact decide_eq_false (by omega)
  · have hp := encodeIr_length (ins := ins) hlen hfits
    rw [← hp] at hfits ⊢
    simp only [encodeIr, irTail, advance, putTdi, Nat.add_sub_cancel] at hfits ⊢
    rw [getLsbD_setBit, if_pos ⟨rfl, by omega⟩]

theorem exec_loadInstruction_completes {s : State} (hready : ScanReady s) (h32 : len ≤ 32) :
    exec (.loadInstruction ins len bb ba) s = .next (setResult .nothing (irScan ins len bb ba s)) :=
  execLoadInstruction_next.2 ⟨⟨hready, ⟨hlen, h32⟩, hfits⟩, rfl⟩

/-- An IR scan leaves TCK high and TMS and TDI at the last bit of its frame (R128). -/
theorem irScan_lines (s : State) :
    (irScan ins len bb ba s).lines = { s.lines with tck := true, tms := false, tdi := true } := by
  have h7 := irLength_ge bb ba hlen
  obtain ⟨htms, htdi⟩ := irFrame_lastBit (ins := ins) hlen hfits
  simp only [irScan, storeTdo_lines, encodeIr_length hlen hfits]
  rw [shiftFlat_lines _ _ _ _ _ (by omega), freshScratch_lines, ← htms, ← htdi]
  rfl

end

theorem irSamples_length (ins : BitVec 32) (len bb ba : Nat) (s : State) :
    (irSamples ins len bb ba s).length = (encodeIr ins len bb ba).p :=
  shiftSamples_length _ _ _ _ _

/-- The frame stays in the scratch (log 13): a scan writes `S_TDO` only. -/
theorem irScan_scratch_frame (ins : BitVec 32) (len bb ba : Nat) (s : State) :
    (irScan ins len bb ba s).scratch.tms = (encodeIr ins len bb ba).tms ∧
      (irScan ins len bb ba s).scratch.tdi = (encodeIr ins len bb ba).tdi := by
  simp [irScan]

/-- Settles O23: the operation is one IR scan with its TDO discarded. -/
theorem loadInstructionCompletes : Obligations.LoadInstructionCompletes := by
  intro ins len bb ba s hready hlen h32 hfits
  have hp : (encodeIr ins len bb ba).p = 6 + bb + len + ba := encodeIr_length hlen hfits
  obtain ⟨htms, htdi⟩ := irScan_scratch_frame ins len bb ba s
  exact ⟨_, irSamples ins len bb ba s, exec_loadInstruction_completes hlen hfits hready h32,
    (irSamples_length ins len bb ba s).trans hp, irScan_trace ins len bb ba s, rfl, irScan_lines hlen hfits s, htms, htdi,
    irScan_frame ins len bb ba s (by omega)⟩

/-! ### Where the frames leave the target's controller (R144, R170) -/

/-- The TMS bits of an IR frame lead from Run-Test/Idle back to it. -/
theorem tapAfter_encodeIr {ins : BitVec 32} {len bb ba : Nat} (hlen : 1 ≤ len) (hfits : irLength len bb ba ≤ 64) :
    tapAfter .runTestIdle ((List.range (irLength len bb ba)).map (encodeIr ins len bb ba).tms.getLsbD) = .runTestIdle := by
  obtain ⟨k, hk⟩ : ∃ k, irLength len bb ba = 4 + k + 3 :=
    ⟨irLength len bb ba - 7, by have := irLength_ge bb ba hlen; omega⟩
  rw [encodeIr_tms ins len bb ba hlen hfits, hk, irTms_list k (by omega)]
  exact tapAfter_irFrame k

/-- The TMS bits of a DR frame do so too: under both layouts at least one bit follows Update-DR. -/
theorem tapAfter_drTms (overlap : Bool) {db da ic : Nat} (hfits : drLength db da ic ≤ 64) :
    tapAfter .runTestIdle ((List.range (drLength db da ic)).map (drTms overlap db da).getLsbD) = .runTestIdle := by
  have hexit : 3 ≤ exitBit overlap db da ∧ exitBit overlap db da ≤ 38 + db + da := by
    cases overlap <;> simp only [exitBit, if_true, if_false, Bool.false_eq_true] <;> omega
  obtain ⟨k, hk⟩ : ∃ k, 3 + k = exitBit overlap db da := ⟨exitBit overlap db da - 3, by omega⟩
  obtain ⟨j, hj⟩ : ∃ j, 3 + k + 2 + (j + 1) = 41 + db + da + ic := ⟨41 + db + da + ic - (3 + k + 2) - 1, by omega⟩
  have hlist := drTms_list overlap db da ic k (j + 1) hfits hk hj
  exact (congrArg (tapAfter .runTestIdle) hlist).trans (tapAfter_drFrame k j)

/-- The target's controller is in Run-Test/Idle and TCK is high, so that the next bit cycle is one falling and one rising edge. -/
def TapIdle (s : State) : Prop := s.env.target.tap = .runTestIdle ∧ s.lines.tck = true

/-- A shift whose TMS bits lead from Run-Test/Idle back to it takes such a state to such a state. -/
theorem shiftFlat_tapIdle (v : Variant) {n tms : Nat} (tdi : Nat) {s : State} (hn : 1 ≤ n)
    (hwalk : tapAfter .runTestIdle ((List.range n).map tms.testBit) = .runTestIdle) (h : TapIdle s) :
    TapIdle (shiftFlat v n tms tdi s) := by
  obtain ⟨htap, htck⟩ := h
  refine ⟨?_, by rw [shiftFlat_lines v n tms tdi s hn]⟩
  rw [shiftFlat_tap v n tms tdi s htck, htap, hwalk]

theorem irScan_tapIdle {ins : BitVec 32} {len bb ba : Nat} (hlen : 1 ≤ len) (hfits : irLength len bb ba ≤ 64) {s : State}
    (h : TapIdle s) : TapIdle (irScan ins len bb ba s) := by
  have hp := encodeIr_length (ins := ins) hlen hfits
  have h7 := irLength_ge bb ba hlen
  have hwalk := tapAfter_encodeIr (ins := ins) hlen hfits
  rw [← hp] at hwalk h7
  have hfresh : TapIdle (freshScratch (encodeIr ins len bb ba).tms (encodeIr ins len bb ba).tdi s) := h
  exact shiftFlat_tapIdle s.profile.variant _ (by omega) hwalk hfresh

theorem drAttempt_tapIdle (req : BitVec 3) (w : BitVec 32) {db da : Nat} {s : State}
    (hfits : drLength db da s.profile.idleCycles ≤ 64) (h : TapIdle s) : TapIdle (drAttempt req w db da s) := by
  have h41 := drLength_ge db da s.profile.idleCycles
  have hfresh : TapIdle (freshScratch (drTms s.params.drExitOverlap db da) (drTdi req w db da s.profile.idleCycles) s) := h
  rw [drAttempt_eq]
  exact shiftFlat_tapIdle s.profile.variant _ (by omega) (tapAfter_drTms s.params.drExitOverlap hfits) hfresh

/-- However often the loop tries, each attempt starts where the one before it ended. -/
theorem drAttempts_tapIdle (req : BitVec 3) (w : BitVec 32) {db da : Nat} (k : Nat) {s : State}
    (hfits : drLength db da s.profile.idleCycles ≤ 64) (h : TapIdle s) : TapIdle (drAttempts req w db da k s) := by
  refine (drAttempts_induct (fun u => u.profile = s.profile ∧ TapIdle u) ?_ k s ⟨rfl, h⟩).2
  rintro u ⟨hprofile, hidle⟩
  exact ⟨(drAttempt_profile req w db da u).trans hprofile, drAttempt_tapIdle req w (hprofile ▸ hfits) hidle⟩

/-- Settles O33: the frame of either operation leads from Run-Test/Idle back to it, and every retry sends it again. -/
theorem framesLeaveTapIdle : Obligations.FramesLeaveTapIdle := by
  rintro i s t htap htck hexec (⟨ins, len, bb, ba, rfl⟩ | ⟨req, w, db, da, out, rfl⟩)
  · obtain ⟨⟨-, ⟨hlen, -⟩, hfits⟩, rfl⟩ := execLoadInstruction_next.1 hexec
    exact (irScan_tapIdle hlen hfits ⟨htap, htck⟩).1
  · obtain ⟨⟨-, hfits, -⟩, rfl⟩ := execTransfer_next.1 hexec
    have hstart : TapIdle (clearAttempts (snapshotTicks s)) := ⟨htap, htck⟩
    exact (drAttempts_tapIdle req w (s := clearAttempts (snapshotTicks s)) s.profile.retryLimit hfits hstart).1

end Sys2Proof.Machine

/-! # Proofs: the DR transfer (spec/43_dr_transfer.md R156 to R169) -/

namespace Sys2Proof.Machine

/-! ### TRANSFER on its operand domain (R156, R160, R163, R166, R167) -/

/-- Every attempt builds the same frame, so the last one leaves it in the scratch (R160). -/
theorem drAttempts_scratch_frame (req : BitVec 3) (w : BitVec 32) (db da k : Nat) (s : State) :
    (drAttempts req w db da k s).scratch.tms = drTms s.params.drExitOverlap db da ∧
      (drAttempts req w db da k s).scratch.tdi = drTdi req w db da s.profile.idleCycles := by
  refine drAttempts_last (fun u => u.params = s.params ∧ u.profile = s.profile)
    (fun u => u.scratch.tms = drTms s.params.drExitOverlap db da ∧ u.scratch.tdi = drTdi req w db da s.profile.idleCycles)
    ?_ ?_ k s ⟨rfl, rfl⟩
  · rintro u ⟨hparams, hprofile⟩
    exact ⟨(drAttempt_params req w db da u).trans hparams, (drAttempt_profile req w db da u).trans hprofile⟩
  · rintro u ⟨hparams, hprofile⟩
    rw [drAttempt_scratch_tms, drAttempt_scratch_tdi, hparams, hprofile]
    exact ⟨rfl, rfl⟩

/-- The caller's `out` after the loop is written from the samples of its last scan (R166). -/
theorem loopScans_outAfter {req : BitVec 3} {w : BitVec 32} {db da k : Nat} {s t : State} {scans : List (List Bool)}
    {last : List Bool} (h : LoopScans req w db da k s t scans last) (out : Option (List Byte)) :
    outAfter req db out t = if req.getLsbD 0 then out.map (outOfScan db last) else out := by
  have hwindow : db + 38 ≤ drLength db da s.profile.idleCycles := by simp only [drLength, Config.drFixedBits]; omega
  simp only [outAfter, writeOut_eq _ t.scratch.tdo db _ last hwindow h.tdo]
  rfl

/-- Settles O26: the loop's scans are the attempts, and code, `out` and `S_TDO` come from the last of them. -/
theorem transferCompletes : Obligations.TransferCompletes := by
  intro req w db da out s hready hfits hout
  obtain ⟨scans, last, hscans⟩ := drAttempts_scans req w db da s.profile.retryLimit (clearAttempts (snapshotTicks s))
  obtain ⟨htms, htdi⟩ := drAttempts_scratch_frame req w db da s.profile.retryLimit (clearAttempts (snapshotTicks s))
  have hattempt : (runTransfer req w db da out s).retry.attempt = scans.length := hscans.attempt.trans (Nat.zero_add _)
  exact ⟨runTransfer req w db da out s, scans, last, execTransfer_next.2 ⟨⟨hready, hfits, hout⟩, rfl⟩, hscans.ends,
    hscans.bound, hscans.lengths, hscans.trace, hscans.waits, hscans.exhausted,
    congrArg₂ Result.ack hscans.ack (loopScans_outAfter hscans out), congrArg₂ RetryRegs.mk hattempt hscans.ack, htms, htdi,
    drAttempts_lines req w db da s.profile.retryLimit (clearAttempts (snapshotTicks s)) hfits,
    (runTransfer_scanEnd req w db da out s hfits).frame⟩

/-! ### Retries against given answers (R163, R164) -/

section
variable {req : BitVec 3} {w : BitVec 32} {db da : Nat} {s : State}

/-- An attempt that gave WAIT is followed by another while one is allowed. -/
theorem drAttempts_of_wait {k : Nat} (h : (drAttempt req w db da s).retry.ack = s.params.ackWait) :
    drAttempts req w db da (k + 1) s = drAttempts req w db da k (drAttempt req w db da s) :=
  if_pos (by simp [isWait, h])

/-- An attempt that did not give WAIT, or the last allowed one, ends the loop. -/
theorem drAttempts_of_stop {k : Nat} (h : (drAttempt req w db da s).retry.ack ≠ s.params.ackWait ∨ k = 0) :
    drAttempts req w db da k s = drAttempt req w db da s := by
  cases k with
  | zero => rfl
  | succ k => exact if_neg (by simpa [isWait] using h)

/-- An attempt whose answers are given decodes its code from them and uses up no others. -/
theorem drAttempt_answered {scan later : List Bool} (hsource : s.env.source = .oracle)
    (hanswers : s.env.answers = scan ++ later) (hlength : scan.length = drLength db da s.profile.idleCycles) :
    (drAttempt req w db da s).retry.ack = ackOfScan db scan ∧ (drAttempt req w db da s).env.answers = later := by
  have henough : drLength db da s.profile.idleCycles ≤ s.env.answers.length := by
    rw [hanswers, List.length_append, hlength]; exact Nat.le_add_right _ _
  obtain ⟨hsamples, hused⟩ := drAttempt_oracle req w db da s hsource henough
  rw [hanswers] at hsamples hused
  exact ⟨by rw [drAttempt_ack, hsamples, List.take_left' hlength], hused.trans (List.drop_left' hlength)⟩

end

/-- Against WAITs and then `final` the loop makes one attempt for each, and keeps the code of `final`, if `final` ends it. -/
theorem drAttempts_answered (req : BitVec 3) (w : BitVec 32) {db da k : Nat} {s : State} {waits : List (List Bool)}
    {final rest : List Bool} (hsource : s.env.source = .oracle) (hanswers : s.env.answers = waits.flatten ++ final ++ rest)
    (hwaits : ∀ sc ∈ waits, sc.length = drLength db da s.profile.idleCycles ∧ ackOfScan db sc = s.params.ackWait)
    (hfinal : final.length = drLength db da s.profile.idleCycles) (hallowed : waits.length ≤ k)
    (hstop : ackOfScan db final ≠ s.params.ackWait ∨ waits.length = k) :
    (drAttempts req w db da k s).retry = { attempt := s.retry.attempt + waits.length + 1, ack := ackOfScan db final } ∧
      (drAttempts req w db da k s).env.answers = rest := by
  induction waits generalizing k s with
  | nil =>
    obtain ⟨hack, hused⟩ := drAttempt_answered (req := req) (w := w) hsource hanswers hfinal
    rw [drAttempts_of_stop (by rw [hack]; exact hstop.imp_right Eq.symm)]
    exact ⟨congrArg₂ RetryRegs.mk (drAttempt_attempt req w db da s) hack, hused⟩
  | cons wait waits ih =>
    obtain ⟨hwait, hwaits⟩ := List.forall_mem_cons.1 hwaits
    obtain ⟨hlength, hcode⟩ := hwait
    have hsplit : s.env.answers = wait ++ (waits.flatten ++ final ++ rest) := by simp [hanswers]
    obtain ⟨hack, hused⟩ := drAttempt_answered (req := req) (w := w) hsource hsplit hlength
    obtain ⟨k, rfl⟩ : ∃ j, k = j + 1 := Nat.exists_eq_add_one.2 (Nat.zero_lt_of_lt hallowed)
    rw [drAttempts_of_wait (hack.trans hcode)]
    have hrest := ih (k := k) (s := drAttempt req w db da s) (by simpa using hsource) hused (by simpa using hwaits)
      (by simpa using hfinal) (by simpa using hallowed) (by simpa using hstop)
    simpa [Nat.add_right_comm, Nat.add_assoc] using hrest

/-- Settles O27: neither the snapshot nor clearing `ATTEMPT` touches the answers the loop then meets. -/
theorem transferRetriesWhileWait : Obligations.TransferRetriesWhileWait := by
  intro req w db da out s waits final rest hready hfits hout hsource hanswers hwaits hfinal hallowed hstop
  obtain ⟨hretry, hused⟩ := drAttempts_answered req w (s := clearAttempts (snapshotTicks s)) hsource hanswers hwaits hfinal
    hallowed hstop
  have hattempt : (runTransfer req w db da out s).retry.attempt = waits.length + 1 :=
    (congrArg RetryRegs.attempt hretry).trans (by simp)
  exact ⟨runTransfer req w db da out s, _, execTransfer_next.2 ⟨⟨hready, hfits, hout⟩, rfl⟩, hattempt,
    congrArg (Result.ack · _) (congrArg RetryRegs.ack hretry), hused⟩

/-! ### The timestamp (R168) -/

/-- After the snapshot a TRANSFER neither writes `TS` nor takes another reading. -/
theorem runTransfer_snapshot (req : BitVec 3) (w : BitVec 32) (db da : Nat) (out : Option (List Byte)) (s : State) :
    (runTransfer req w db da out s).params = s.params ∧ (runTransfer req w db da out s).ts = (snapshotTicks s).ts ∧
      (runTransfer req w db da out s).tsCaptured = (snapshotTicks s).tsCaptured ∧
      (runTransfer req w db da out s).env.ticks = (snapshotTicks s).env.ticks := by
  obtain ⟨hparams, -, -, -, hts, hcaptured, -, -, hticks, -⟩ :=
    drAttempts_frame req w db da s.profile.retryLimit (clearAttempts (snapshotTicks s))
  exact ⟨hparams, hts, hcaptured, hticks⟩

/-- With a timestamp captured GET_TIMESTAMP returns `TS` (R185). -/
theorem exec_getTimestamp_of_captured {s : State} (hcaptured : s.tsCaptured = true)
    (henabled : s.params.timestampEnabled = true) :
    ∃ u, exec .getTimestamp s = .next u ∧ u.result = .ticks s.ts :=
  ⟨_, rfl, by simp [hcaptured, henabled]⟩

/-- Settles O29: the snapshot is the one place a TRANSFER meets the tick counter, and it comes before the loop. -/
theorem transferTakesOneSnapshot : Obligations.TransferTakesOneSnapshot := by
  intro req w db da out s t hexec
  obtain ⟨-, rfl⟩ := execTransfer_next.1 hexec
  obtain ⟨hparams, hts, hcaptured, hticks⟩ := runTransfer_snapshot req w db da out s
  refine ⟨fun henabled now later hreading => ⟨?_, ?_⟩, fun hdisabled => ⟨?_, ?_⟩⟩
  · simp [hticks, henabled, hreading]
  · obtain ⟨u, hnext, hresult⟩ := exec_getTimestamp_of_captured (s := runTransfer req w db da out s)
      (by simp [hcaptured, henabled]) (by rw [hparams, henabled])
    exact ⟨u, hnext, hresult.trans (by simp [hts, henabled, tickReading, hreading])⟩
  · simp [hts, hdisabled]
  · simp [hticks, hdisabled]

end Sys2Proof.Machine

/-! # Proofs: the line and system operations (spec/44_system_ops.md R181 to R185, spec/10_state.md R25, R37) -/

namespace Sys2Proof.Machine

/-! ### INIT and RECONFIGURE_IO (R181, R183) -/

/-- Taking the idle levels is an operation on the lines, whoever owns them after it. -/
theorem lineOpFrame_takeIdleLevels (owned : Bool) (r : Result) (s : State) :
    LineOpFrame s (setResult r { takeIdleLevels s with linesOwned := owned }) := by
  simp [LineOpFrame]

/-- From held lines with TCK high the idle levels make no edge, so the target stays (R183). -/
theorem takeIdleLevels_target {s : State} (howned : s.linesOwned = true) (hrepurposed : s.repurposed = false)
    (htck : s.lines.tck = true) : (takeIdleLevels s).env.target = s.env.target := by
  have hedge : idleWithoutEdge s = true := by simp [idleWithoutEdge, linesHeld_iff.2 ⟨howned, hrepurposed⟩, htck]
  simp [hedge]

/-- Settles O7: INIT is the idle levels with the lines acquired. -/
theorem initCompletes : Obligations.InitCompletes := fun s =>
  ⟨setResult .nothing { takeIdleLevels s with linesOwned := true }, rfl, rfl, rfl, rfl, rfl, rfl,
    lineOpFrame_takeIdleLevels true .nothing s, takeIdleLevels_target⟩

/-- Without ownership RECONFIGURE_IO is refused (R183, D10). -/
theorem exec_reconfigureIo_of_not_owned {s : State} (howned : s.linesOwned = false) :
    exec .reconfigureIo s = .refused .linesNotOwned :=
  unlessRefused_refused.2 (firstRefusal_of_some (by simp [howned]))

/-- Settles O9: with the lines owned RECONFIGURE_IO is the idle levels alone. -/
theorem reconfigureIoCompletes : Obligations.ReconfigureIoCompletes := by
  intro s
  refine ⟨fun howned => ?_, exec_reconfigureIo_of_not_owned⟩
  exact ⟨setResult .nothing (takeIdleLevels s), execReconfigureIo_next.2 ⟨howned, rfl⟩, howned, rfl, rfl, rfl, rfl,
    lineOpFrame_takeIdleLevels s.linesOwned .nothing s, takeIdleLevels_target howned⟩

/-! ### FINI (R182) -/

/-- Settles O8: FINI loosens and releases the lines; a line that is not owned is not held. -/
theorem finiCompletes : Obligations.FiniCompletes := by
  intro s
  have hframe : LineOpFrame s (setResult .nothing { looseLines s with linesOwned := false }) := by simp [LineOpFrame]
  exact ⟨_, rfl, rfl, rfl, rfl, rfl, hframe, scan_refused_of_not_held rfl⟩

/-! ### GET_TIMESTAMP (R185) -/

/-- Settles O10: GET_TIMESTAMP writes the result port and counts a free value, nothing else. -/
theorem getTimestampCompletes : Obligations.GetTimestampCompletes := by
  intro s
  refine ⟨_, _, rfl, rfl, fun henabled hcaptured => ?value, by simp [LineOpFrame], rfl, rfl, rfl, rfl, rfl⟩
  case value => simp [hcaptured, henabled]

/-! ### The host repurposes the lines (R184) -/

/-- With the host's next event a repurposing, the step is that repurposing. -/
theorem step_of_repurpose {s : State} {rest : List HostEvent} (hqueue : s.queue = .repurpose :: rest) :
    step s = .next (repurposeLines { s with queue := rest }) := by
  simp only [step, fetch, hqueue]

/-- Repurposed lines are not held. -/
theorem linesHeld_of_repurposed {s : State} (hrepurposed : s.repurposed = true) : linesHeld s = false := by
  simp [linesHeld, hrepurposed]

/-- Once configured, a scan without held lines is refused for want of them (R213, D10). -/
theorem scan_refused_linesNotOwned {s : State} (hvalid : s.profile.cfgValid = true) (hheld : linesHeld s = false) (i : Instr)
    (hi : isScan i = true) : exec i s = .refused .linesNotOwned :=
  scan_refused (by simp [scanRefusal, hvalid, hheld]) i hi

/-- Settles O3: a waiting step is the state itself; repurposed lines are not held, and a CONFIGURE leaves them so. -/
theorem stepWaitsAndRepurposes : Obligations.StepWaitsAndRepurposes := by
  refine ⟨fun s hqueue => by simp only [step, fetch, hqueue], fun s rest hqueue => ?_⟩
  refine ⟨_, step_of_repurpose hqueue, rfl, rfl, rfl, rfl, rfl, rfl, rfl, rfl,
    scan_refused_of_not_held (linesHeld_of_repurposed rfl), fun f r c => ?_⟩
  exact ⟨_, exec_configure f r c _, scan_refused_linesNotOwned rfl (linesHeld_of_repurposed rfl)⟩

end Sys2Proof.Machine

/-! # Proofs: the walk of the target's TAP controller (spec/45_tap_state_machine.md R195 to R198, R200, R203) -/

namespace Sys2Proof.Machine

/-! ### The two frames from Run-Test/Idle (R197, R198, R200) -/

/-- The IR frame with `k` zeros between its two pairs of ones takes `k + 1` edges in Shift-IR: those of the zeros and the one that
leaves it. -/
theorem tapWalk_irFrame (k : Nat) :
    let tms := [true, true, false, false] ++ List.replicate k false ++ [true, true, false]
    tapWalk .runTestIdle tms = [.selectDrScan, .selectIrScan, .captureIr] ++ List.replicate (k + 1) .shiftIr ++
      [.exit1Ir, .updateIr, .runTestIdle] ∧
    shiftEdges .runTestIdle tms = k + 1 := by
  obtain ⟨hwalk, hafter, hedges⟩ := tapWalk_stay .shiftIr k rfl
  have hnav : tapAfter .runTestIdle [true, true, false, false] = .shiftIr ∧
      shiftEdges .runTestIdle [true, true, false, false] = 0 := ⟨rfl, rfl⟩
  have hexit : shiftEdges .shiftIr [true, true, false] = 1 := rfl
  have hshift : (isShiftState .shiftIr).toNat = 1 := rfl
  simp only [List.append_assoc, tapWalk_append, shiftEdges_append, hnav, hwalk, hafter, hedges, hexit, hshift]
  exact ⟨by simp [tapWalk, tapNext, List.replicate_succ], by omega⟩

/-- From Update-DR with TMS low every state entered is Run-Test/Idle, and no edge is a shift edge. -/
theorem tapWalk_updateDr_idle (j : Nat) :
    tapWalk .updateDr (List.replicate j false) = List.replicate j .runTestIdle ∧
      shiftEdges .updateDr (List.replicate j false) = 0 := by
  cases j with
  | zero => exact ⟨rfl, rfl⟩
  | succ j =>
    obtain ⟨hstay, -, hnone⟩ := tapWalk_stay .runTestIdle j rfl
    exact ⟨congrArg (List.cons TapState.runTestIdle) hstay,
      by simp [List.replicate_succ, shiftEdges, tapNext, isShiftState, hnone]⟩

/-- The DR frame with `k` zeros before Exit1 takes `k + 1` edges in Shift-DR, and each of its `j` last zeros enters
Run-Test/Idle. -/
theorem tapWalk_drFrame (k j : Nat) :
    let tms := [true, false, false] ++ List.replicate k false ++ [true, true] ++ List.replicate j false
    tapWalk .runTestIdle tms = [.selectDrScan, .captureDr] ++ List.replicate (k + 1) .shiftDr ++ [.exit1Dr, .updateDr] ++
      List.replicate j .runTestIdle ∧
    shiftEdges .runTestIdle tms = k + 1 := by
  obtain ⟨hwalk, hafter, hedges⟩ := tapWalk_stay .shiftDr k rfl
  have hnav : tapAfter .runTestIdle [true, false, false] = .shiftDr ∧ shiftEdges .runTestIdle [true, false, false] = 0 :=
    ⟨rfl, rfl⟩
  have hexit : tapAfter .shiftDr [true, true] = .updateDr ∧ shiftEdges .shiftDr [true, true] = 1 := ⟨rfl, rfl⟩
  have hshift : (isShiftState .shiftDr).toNat = 1 := rfl
  simp only [List.append_assoc, tapWalk_append, shiftEdges_append, hnav, hwalk, hafter, hedges, hexit, hshift,
    tapWalk_updateDr_idle]
  exact ⟨by simp [tapWalk, tapNext, List.replicate_succ], by omega⟩

/-- Settles O31: the TMS bits of an IR frame are two pairs of ones, and the zeros between them are one fewer than
the chain bits. -/
theorem irFrameWalksTap : Obligations.IrFrameWalksTap := by
  intro ins len bb ba hlen _ hfits
  obtain ⟨k, hk⟩ : ∃ k, bb + len + ba = k + 1 := ⟨bb + len + ba - 1, by omega⟩
  have htotal : 6 + bb + len + ba = 4 + k + 3 := by omega
  have htms : (encodeIr ins len bb ba).tms = irTmsBits (6 + bb + len + ba) := encodeIr_tms ins len bb ba hlen hfits
  simp only [htms, htotal, irTms_list k (by omega), hk]
  exact tapWalk_irFrame k

/-- The shift edges the literal layout of a DR frame has beyond its chain bits (R200). -/
def extraEdges (overlap : Bool) : Nat := if overlap then 0 else 1

theorem exitBit_eq (overlap : Bool) (db da : Nat) : exitBit overlap db da = 37 + db + da + extraEdges overlap := by
  cases overlap <;> simp only [exitBit, extraEdges, if_true, if_false, Bool.false_eq_true] <;> omega

theorem extraEdges_le_one (overlap : Bool) : extraEdges overlap ≤ 1 := by cases overlap <;> decide

/-- Settles O32: the bit of Exit1-DR says how many zeros stand before it and after Update-DR. -/
theorem drFrameWalksTap : Obligations.DrFrameWalksTap := by
  intro overlap db da ic hfits
  have hexit := exitBit_eq overlap db da
  have hextra := extraEdges_le_one overlap
  have hlist := drTms_list overlap db da ic (34 + db + da + extraEdges overlap) (ic + 2 - extraEdges overlap) hfits
    (by omega) (by omega)
  have hwalk := tapWalk_drFrame (34 + db + da + extraEdges overlap) (ic + 2 - extraEdges overlap)
  rw [← hlist, show 34 + db + da + extraEdges overlap + 1 = 35 + db + da + extraEdges overlap by omega] at hwalk
  exact hwalk

/-! ### The reset sequence (R203) -/

/-- Settles O34: the six TMS bits of the operation are five ones and a zero. -/
theorem resetSequenceReachesIdle : Obligations.ResetSequenceReachesIdle := by
  intro s hready htck
  refine ⟨_, execRawShift_next.2 ⟨⟨hready, by decide, rfl, rfl⟩, rfl⟩, ?_⟩
  have htms : (List.range 6).map (bufNat [0x1F]).testBit = [true, true, true, true, true, false] := by decide
  simp only [flatFromBuffers, returnTdo_env]
  rw [shiftFlat_tap _ _ _ _ _ htck, htms, tapAfter_reset]

end Sys2Proof.Machine

/-! # Proofs: what a TRANSFER reads from the target's data registers (spec/45_tap_state_machine.md R199, R202) -/

namespace Sys2Proof.Machine

/-! ### The windows of `S_TDO` hold the captured chain (R202) -/

theorem getLsbD_ackReorder : ∀ raw : BitVec 3, (ackReorder raw).getLsbD 0 = raw.getLsbD 1 ∧
    (ackReorder raw).getLsbD 1 = raw.getLsbD 0 ∧ (ackReorder raw).getLsbD 2 = raw.getLsbD 2 := by decide

/-- The read data is 32 bits of `S_TDO`, after the acknowledge (R166). -/
theorem getLsbD_dataWindow (tdo : List Byte) (db k : Nat) (hk : k < 32) :
    (dataWindow tdo db).getLsbD k = bufBit tdo (db + 6 + k) := by
  rw [dataWindow, getLsbD_bufSlice, decide_eq_true hk, Bool.true_and, dataOffset, Config.drNavBits, Config.headerBits]

/-- The four bytes of a 32-bit value are its bits in order (R52). -/
theorem bufBit_leBytes32 (x : BitVec 32) (k : Nat) (hk : k < 32) : bufBit (leBytes32 x) k = x.getLsbD k := by
  have hbit (lo j : Nat) (hj : j < 8) : (x.extractLsb' lo 8).getLsbD j = x.getLsbD (lo + j) := by
    rw [BitVec.getLsbD_extractLsb', decide_eq_true hj, Bool.true_and]
  have hsplit : k = 8 * (k / 8) + k % 8 := by omega
  have hmod : k % 8 < 8 := by omega
  obtain h | h | h | h : k / 8 = 0 ∨ k / 8 = 1 ∨ k / 8 = 2 ∨ k / 8 = 3 := by omega
  all_goals
    rw [h] at hsplit
    simp only [bufBit, leBytes32, h, List.getD_cons_zero, List.getD_cons_succ, hbit _ _ hmod, ← hsplit]

/-- With a standard target on TDO in Run-Test/Idle and TCK high, the next capture of its data registers is this path. -/
structure CaptureReady (path : List Captured) (later : List (List Captured)) (s : State) : Prop where
  source : s.env.source = .target
  idle : TapIdle s
  captures : s.env.drCaptures = path :: later

section
variable (req : BitVec 3) (w : BitVec 32) {db da : Nat} {s : State} {path : List Captured} {later : List (List Captured)}
  (hs : CaptureReady path later s) (hfits : drLength db da s.profile.idleCycles ≤ 64)
include hs hfits

/-- Before the frame leaves Shift-DR its samples from cycle 3 on are the captured chain, and `S_TDO` holds them. -/
theorem drAttempt_tdo_captured (i : Nat) (hi : i < db + 35) (hc : i < (pathBits path).length) :
    bufBit (drAttempt req w db da s).scratch.tdo (3 + i) = (pathBits path).getD i false := by
  obtain ⟨hsource, ⟨htap, htck⟩, hcaptures⟩ := hs
  have hlength : drLength db da s.profile.idleCycles = 41 + db + da + s.profile.idleCycles := rfl
  have hexit := exitBit_eq s.params.drExitOverlap db da
  have htms (j : Nat) := getLsbD_drTms s.params.drExitOverlap db da j (by omega)
  refine (drAttempt_tdo_bit req w db da s (3 + i) (by omega)).trans ?_
  exact shiftFlat_captured _ (drLength db da s.profile.idleCycles) _ _ (freshScratch _ _ s) htck hsource htap path later hcaptures
    ((htms 0).trans (decide_eq_true (.inl rfl))) i (by omega) hc fun k h1 hk => (htms k).trans (decide_eq_false (by omega))

variable (hlong : db + 35 ≤ (pathBits path).length)
include hlong

theorem rawAckWindow_captured (j : Nat) (hj : j < 3) :
    (rawAckWindow (drAttempt req w db da s).scratch.tdo db).getLsbD j = (pathBits path).getD (db + j) false := by
  rw [getLsbD_rawAckWindow _ _ _ hj, ← drAttempt_tdo_captured req w hs hfits _ (by omega) (by omega)]
  congr 1; omega

theorem dataWindow_captured (k : Nat) (hk : k < 32) :
    (dataWindow (drAttempt req w db da s).scratch.tdo db).getLsbD k = (pathBits path).getD (db + 3 + k) false := by
  rw [getLsbD_dataWindow _ _ _ hk, ← drAttempt_tdo_captured req w hs hfits _ (by omega) (by omega)]
  congr 1; omega

end

/-- The loop of a TRANSFER starts with the environment's capture still to come. -/
theorem captureReady_loopStart {path : List Captured} {later : List (List Captured)} {s : State}
    (hs : CaptureReady path later s) : CaptureReady path later (clearAttempts (snapshotTicks s)) :=
  ⟨hs.source, hs.idle, hs.captures⟩

/-- A TRANSFER whose first attempt ends the loop returns the windows of that attempt (R161, R166). -/
theorem runTransfer_of_stop {req : BitVec 3} {w : BitVec 32} {db da : Nat} {s : State} (out : Option (List Byte))
    (h : (drAttempt req w db da (clearAttempts (snapshotTicks s))).retry.ack ≠ s.params.ackWait ∨ s.profile.retryLimit = 0) :
    runTransfer req w db da out s =
      let t := drAttempt req w db da (clearAttempts (snapshotTicks s))
      setResult (.ack (decodeAck t.scratch.tdo db) (outAfter req db out t)) t := by
  rw [runTransfer, drAttempts_of_stop h, drAttempt_ack_eq]

theorem outAfter_some (req : BitVec 3) (db : Nat) (out : List Byte) (s : State) : outAfter req db (some out) s =
    some (if req.getLsbD 0 then writeOut out (dataWindow s.scratch.tdo db) else out) := by
  rw [apply_ite some]; rfl

/-- Settles O35: both windows of `S_TDO` lie where the scan put the captured chain. -/
theorem transferReadsCapturedChain : Obligations.TransferReadsCapturedChain := by
  intro req w db da out s t path later hsource htap htck hretry hcaptures hlong hexec c
  obtain ⟨⟨-, hfits, -⟩, rfl⟩ := execTransfer_next.1 hexec
  have hs := captureReady_loopStart ⟨hsource, ⟨htap, htck⟩, hcaptures⟩
  have hack := rawAckWindow_captured req w hs hfits hlong
  have hdata := dataWindow_captured req w hs hfits hlong
  rw [runTransfer_of_stop (some out) (.inr hretry)]
  obtain ⟨h0, h1, h2⟩ := getLsbD_ackReorder
    (rawAckWindow (drAttempt req w db da (clearAttempts (snapshotTicks s))).scratch.tdo db)
  refine ⟨_, _, congrArg (Result.ack _) (outAfter_some req db out _), h0.trans (hack 1 (by omega)),
    h1.trans (hack 0 (by omega)), h2.trans (hack 2 (by omega)), fun hread k hk => ?_⟩
  rw [if_pos hread, writeOut, bufBit_append_left _ _ _ hk, bufBit_leBytes32 _ _ hk, hdata k hk]

end Sys2Proof.Machine

/-! # Proofs: what a TRANSFER latches in the access register (spec/45_tap_state_machine.md R199, R200) -/

namespace Sys2Proof.Machine

/-! ### The bits the target is sent -/

/-- The data of a request, `FILL` for a read (R169). -/
def sentData (req : BitVec 3) (w : BitVec 32) : BitVec 32 := if isRead req then 0 else w

/-- R82 with the header and the data sent as one word: above it `FILL`, and the final bit of the frame. -/
theorem drTdi_toNat_word (req : BitVec 3) (w : BitVec 32) {db da ic : Nat} (hfits : drLength db da ic ≤ 64) :
    (drTdi req w db da ic).toNat = 2 ^ (3 + db) * (2 ^ (37 + da + ic) * 1 + (sentData req w ++ req).toNat) := by
  have hword : (sentData req w ++ req).toNat = 2 ^ 3 * (sentData req w).toNat + req.toNat := by
    rw [BitVec.toNat_append, ← Nat.shiftLeft_add_eq_or_of_lt req.isLt, Nat.shiftLeft_eq, Nat.mul_comm]
  have hsent : (sentData req w).toNat = if isRead req then 0 else w.toNat := apply_ite BitVec.toNat _ _ _
  rw [drTdi_toNat req w db da ic hfits, hword, hsent,
    show drLength db da ic - 1 = 3 + db + (37 + da + ic) by simp only [drLength, Config.drFixedBits]; omega]
  ring

/-- From bit `db + 3` on, up to its final bit, TDI of a DR frame is the header, the data sent and `FILL` (R157, R169). -/
theorem getLsbD_drTdi (req : BitVec 3) (w : BitVec 32) {db da ic : Nat} (hfits : drLength db da ic ≤ 64) (j : Nat)
    (hj : j < 36) : (drTdi req w db da ic).getLsbD (3 + db + j) = (sentData req w ++ req).getLsbD j := by
  have hword : (sentData req w ++ req).toNat < 2 ^ (37 + da + ic) :=
    (sentData req w ++ req).isLt.trans_le (Nat.pow_le_pow_right Nat.two_pos (by omega))
  rw [BitVec.getLsbD, drTdi_toNat_word req w hfits, Nat.testBit_two_pow_mul, decide_eq_true (by omega), Bool.true_and,
    Nat.add_sub_cancel_left, Nat.testBit_two_pow_mul_add _ hword, if_pos (by omega), BitVec.getLsbD]

/-- The TMS bits of a DR frame have the shape of one frame, with the edges in Shift-DR of its layout (R196). -/
theorem frameShape_drTms (overlap : Bool) {db da ic : Nat} (hfits : 41 + db + da + ic ≤ 64) :
    FrameShape 3 (34 + db + da + extraEdges overlap) (41 + db + da + ic) (drTms overlap db da).getLsbD := by
  have hexit := exitBit_eq overlap db da
  have hextra := extraEdges_le_one overlap
  have htms (i : Nat) := getLsbD_drTms overlap db da i (by omega)
  constructor
  case low => exact fun i hi => (htms _).trans (decide_eq_false (by omega))
  case exit => exact (htms _).trans (decide_eq_true (by omega))
  case update => exact (htms _).trans (decide_eq_true (by omega))
  case idle => exact fun i hi _ => (htms _).trans (decide_eq_false (by omega))
  case fits => omega

/-- After an attempt the registers of the captured path hold what has been shifted in, and the next capture is
the one after it. -/
theorem drAttempt_drReg (req : BitVec 3) (w : BitVec 32) {db da : Nat} {s : State} {path : List Captured}
    {later : List (List Captured)} (hs : CaptureReady path later s) (hfits : drLength db da s.profile.idleCycles ≤ 64) :
    let n := 34 + db + da + extraEdges s.params.drExitOverlap + 1
    (drAttempt req w db da s).env.target.drReg = latchPath (path.map registerOf) ((pathBits path ++
      (List.range n).map fun j => (drTdi req w db da s.profile.idleCycles).getLsbD (3 + j)).drop n) ∧
    (drAttempt req w db da s).env.drCaptures = later := by
  obtain ⟨-, ⟨htap, htck⟩, hcaptures⟩ := hs
  have hfits' : 41 + db + da + s.profile.idleCycles ≤ 64 := hfits
  have hexit := exitBit_eq s.params.drExitOverlap db da
  have htms (i : Nat) := getLsbD_drTms s.params.drExitOverlap db da i (by omega)
  rw [drAttempt_eq]
  exact shiftFlat_drReg _ _ _ _ _ (freshScratch _ _ s) htck htap path later hcaptures ((htms 0).trans (decide_eq_true (.inl rfl)))
    ((htms 1).trans (decide_eq_false (by omega))) ((htms 2).trans (decide_eq_false (by omega)))
    (frameShape_drTms s.params.drExitOverlap hfits')

/-! ### The access register between bypass registers -/

/-- What `db` bypass registers, the access register and `da` bypass registers capture. -/
def accessPath (db da : Nat) (ack : BitVec 3) (data : BitVec 32) : List Captured :=
  List.replicate db .bypass ++ .access ack data :: List.replicate da .bypass

theorem pathBits_bypass (n : Nat) : pathBits (List.replicate n .bypass) = List.replicate n false := by
  induction n with
  | zero => rfl
  | succ n ih => exact congrArg (List.cons false) ih

theorem pathBits_accessPath (db da : Nat) (ack : BitVec 3) (data : BitVec 32) : pathBits (accessPath db da ack data) =
    List.replicate db false ++ ((List.range 35).map (data ++ ack).getLsbD ++ List.replicate da false) := by
  have hfields : capturedBits (.access ack data) = (List.range 35).map (data ++ ack).getLsbD := by
    rw [map_range_add _ 3 32]
    refine congrArg₂ List.append (List.map_congr_left fun j hj => ?_) (List.map_congr_left fun j _ => ?_)
    · rw [BitVec.getLsbD_append, if_pos (show j < 3 from List.mem_range.1 hj)]
    · rw [BitVec.getLsbD_append, if_neg (by omega), Nat.add_sub_cancel_left]
  rw [← pathBits_bypass, ← pathBits_bypass, ← hfields]
  simp only [pathBits, accessPath, List.flatMap_append, List.flatMap_cons]

theorem accessPath_length (db da : Nat) (ack : BitVec 3) (data : BitVec 32) :
    (pathBits (accessPath db da ack data)).length = 35 + db + da := by
  simp only [pathBits_accessPath, List.length_append, List.length_replicate, List.length_map, List.length_range]; omega

theorem getD_map_range (f : Nat → Bool) {n i : Nat} (h : i < n) : ((List.range n).map f).getD i false = f i := by
  simp [List.getD_eq_getElem?_getD, h]

/-- Past the bypass registers nearer TDO the chain is the acknowledge and then the data (R199). -/
theorem accessPath_getD (db da : Nat) (ack : BitVec 3) (data : BitVec 32) (j : Nat) (hj : j < 35) :
    (pathBits (accessPath db da ack data)).getD (db + j) false = (data ++ ack).getLsbD j := by
  rw [pathBits_accessPath, List.getD_append_right _ _ _ _ (by simp), List.getD_append _ _ _ _ (by simp; omega),
    List.length_replicate, Nat.add_sub_cancel_left, getD_map_range _ hj]

/-- The fields of the access register, from its 35 bits (R199). -/
def accessFields (bits : BitVec 35) : Latched := .access (bits.getLsbD 0) (bits.extractLsb' 1 2) (bits.extractLsb' 3 32)

theorem latchRegister_access (chain : List Bool) (bits : BitVec 35) (h : ∀ j, j < 35 → chain.getD j false = bits.getLsbD j) :
    latchRegister .access chain = accessFields bits := by
  have hfield (lo n : Nat) (hn : lo + n ≤ 35) :
      BitVec.ofNat n (bitsNat ((List.range n).map fun j => chain.getD (lo + j) false)) = bits.extractLsb' lo n := by
    refine BitVec.eq_of_getLsbD_eq fun j hj => ?_
    rw [BitVec.getLsbD_ofNat, testBit_bitsNat, getD_map_range _ hj, BitVec.getLsbD_extractLsb', ← h _ (by omega)]
  rw [latchRegister, accessFields, h 0 (by omega), hfield 1 2 (by omega), hfield 3 32 (by omega)]

/-- What is latched under the overlap layout are the fields of what was sent (R200). -/
theorem accessFields_sent (req : BitVec 3) (sent : BitVec 32) :
    accessFields (sent ++ req) = .access (req.getLsbD 0) (req.extractLsb' 1 2) sent := by
  have haddr : (sent ++ req).extractLsb' 1 2 = req.extractLsb' 1 2 := by
    refine BitVec.eq_of_getLsbD_eq fun j hj => ?_
    rw [BitVec.getLsbD_extractLsb', BitVec.getLsbD_extractLsb', BitVec.getLsbD_append, if_pos (by omega)]
  have hdata : (sent ++ req).extractLsb' 3 32 = sent := by
    refine BitVec.eq_of_getLsbD_eq fun j hj => ?_
    rw [BitVec.getLsbD_extractLsb', BitVec.getLsbD_append, if_neg (by omega), Nat.add_sub_cancel_left, decide_eq_true hj,
      Bool.true_and]
  rw [accessFields, haddr, hdata, BitVec.getLsbD_append, if_pos (by decide)]

/-- Under the literal layout everything sent is one place nearer TDO (R200). -/
theorem accessFields_sent_shifted (req : BitVec 3) (sent : BitVec 32) : accessFields ((sent ++ req) >>> 1) =
    .access (req.getLsbD 1) (BitVec.ofBool (sent.getLsbD 0) ++ BitVec.ofBool (req.getLsbD 2)) (sent >>> 1) := by
  have hbit (j : Nat) : ((sent ++ req) >>> 1).getLsbD j = if j < 2 then req.getLsbD (1 + j) else sent.getLsbD (j - 2) := by
    rw [BitVec.getLsbD_ushiftRight, BitVec.getLsbD_append, show 1 + j - 3 = j - 2 by omega]
    exact if_congr (by omega) rfl rfl
  have haddr : ((sent ++ req) >>> 1).extractLsb' 1 2 = BitVec.ofBool (sent.getLsbD 0) ++ BitVec.ofBool (req.getLsbD 2) := by
    refine BitVec.eq_of_getLsbD_eq fun j hj => ?_
    rw [BitVec.getLsbD_extractLsb', hbit, BitVec.getLsbD_append, decide_eq_true hj, Bool.true_and]
    obtain rfl | rfl : j = 0 ∨ j = 1 := by omega
    · simp
    · simp
  have hdata : ((sent ++ req) >>> 1).extractLsb' 3 32 = sent >>> 1 := by
    refine BitVec.eq_of_getLsbD_eq fun j hj => ?_
    rw [BitVec.getLsbD_extractLsb', hbit, if_neg (by omega), BitVec.getLsbD_ushiftRight, decide_eq_true hj, Bool.true_and,
      show 3 + j - 2 = 1 + j by omega]
  rw [accessFields, haddr, hdata, hbit, if_pos (by decide)]

theorem accessFields_layout (overlap : Bool) (req : BitVec 3) (sent : BitVec 32) :
    accessFields ((sent ++ req) >>> extraEdges overlap) =
      if overlap then .access (req.getLsbD 0) (req.extractLsb' 1 2) sent
      else .access (req.getLsbD 1) (BitVec.ofBool (sent.getLsbD 0) ++ BitVec.ofBool (req.getLsbD 2)) (sent >>> 1) := by
  cases overlap with
  | true => exact accessFields_sent req sent
  | false => exact accessFields_sent_shifted req sent

/-! ### One attempt with the access register on the path -/

/-- As many bits as leave a chain follow it in: a place of the chain then holds one of these. -/
theorem getD_shiftedIn (chain : List Bool) (bit : Nat → Bool) {n i : Nat} (hn : chain.length ≤ n) (hi : i < chain.length) :
    ((chain ++ (List.range n).map bit).drop n).getD i false = bit (n - chain.length + i) := by
  rw [← getD_map_range bit (by omega : n - chain.length + i < n), List.getD_eq_getElem?_getD, List.getD_eq_getElem?_getD,
    List.getElem?_drop, List.getElem?_append_right (by omega), Nat.sub_add_comm hn]

section
variable (req : BitVec 3) (w : BitVec 32) {db da : Nat} {s : State} {ack : BitVec 3} {data : BitVec 32}
  {later : List (List Captured)} (hs : CaptureReady (accessPath db da ack data) later s)
  (hfits : drLength db da s.profile.idleCycles ≤ 64)
include hs hfits

/-- In Update-DR the access register latches what was sent, displaced by the extra shift edges (R200). -/
theorem drAttempt_latches : (drAttempt req w db da s).env.target.drReg.length = db + 1 + da ∧
    (drAttempt req w db da s).env.target.drReg[db]? =
      some (accessFields ((sentData req w ++ req) >>> extraEdges s.params.drExitOverlap)) := by
  obtain ⟨hreg, -⟩ := drAttempt_drReg req w hs hfits
  have hplaces : (accessPath db da ack data).map registerOf =
      List.replicate db .bypass ++ .access :: List.replicate da .bypass := by simp [accessPath, registerOf]
  rw [hreg, hplaces]
  constructor
  · simp only [latchPath_length, List.length_append, List.length_cons, List.length_replicate]; omega
  · have hwidth : ((List.replicate db DataRegister.bypass).map registerWidth).sum = db := by simp [registerWidth]
    rw [latchPath_getElem?, List.take_left' List.length_replicate, hwidth, List.getElem?_append_right (by simp),
      List.length_replicate, Nat.sub_self]
    refine congrArg some (latchRegister_access _ _ fun j hj => ?_)
    have hextra := extraEdges_le_one s.params.drExitOverlap
    have hpath := accessPath_length db da ack data
    rw [List.getD_eq_getElem?_getD, List.getElem?_drop, ← List.getD_eq_getElem?_getD,
      getD_shiftedIn _ _ (by omega) (by omega), BitVec.getLsbD_ushiftRight, ← getLsbD_drTdi req w hfits _ (by omega)]
    congr 1; omega

/-- An attempt reads what the access register captured (R202). -/
theorem drAttempt_reads : rawAckWindow (drAttempt req w db da s).scratch.tdo db = ack ∧
    dataWindow (drAttempt req w db da s).scratch.tdo db = data := by
  have hlong : db + 35 ≤ (pathBits (accessPath db da ack data)).length := by rw [accessPath_length]; omega
  constructor
  · refine BitVec.eq_of_getLsbD_eq fun j hj => ?_
    rw [rawAckWindow_captured req w hs hfits hlong j hj, accessPath_getD _ _ _ _ _ (by omega), BitVec.getLsbD_append, if_pos hj]
  · refine BitVec.eq_of_getLsbD_eq fun k hk => ?_
    rw [dataWindow_captured req w hs hfits hlong k hk, Nat.add_assoc, accessPath_getD _ _ _ _ _ (by omega),
      BitVec.getLsbD_append, if_neg (by omega), Nat.add_sub_cancel_left]

end

/-- A caller's buffer of 4 bytes is overwritten whole (R166, D22). -/
theorem map_writeOut {out : Option (List Byte)} (hout : outBufferOk out = true) (x : BitVec 32) :
    out.map (fun bytes => writeOut bytes x) = out.map fun _ => leBytes32 x := by
  cases out with
  | none => rfl
  | some bytes =>
    have hlength : bytes.length = 4 := by simpa [outBufferOk] using hout
    simp [writeOut, ← hlength]

/-- Settles O46: the first attempt ends the loop; its windows are what the access register captured, and what it latches is what
was sent, displaced by the extra shift edges of the layout. -/
theorem transferReachesAccessRegister : Obligations.TransferReachesAccessRegister := by
  intro req w db da out s t ack data later hsource htap htck hcaptures code sent hstop hexec
  obtain ⟨⟨-, hfits, hout⟩, rfl⟩ := execTransfer_next.1 hexec
  have hs := captureReady_loopStart (path := accessPath db da ack data) ⟨hsource, ⟨htap, htck⟩, hcaptures⟩
  obtain ⟨hack, hdata⟩ := drAttempt_reads req w hs hfits
  obtain ⟨hlength, hlatched⟩ := drAttempt_latches req w hs hfits
  have hcode : decodeAck (drAttempt req w db da (clearAttempts (snapshotTicks s))).scratch.tdo db = code :=
    congrArg ackReorder hack
  rw [runTransfer_of_stop out (hstop.symm.imp_left fun h => by rwa [drAttempt_ack_eq, hcode])]
  refine ⟨congrArg₂ Result.ack hcode ?_, (drAttempt_drReg req w hs hfits).2, hlength,
    hlatched.trans (congrArg some (accessFields_layout _ req sent))⟩
  rw [outAfter, hdata, map_writeOut hout]
  rfl

end Sys2Proof.Machine

/-! # Proofs: what a LOAD_INSTRUCTION leaves in the instruction registers (spec/45_tap_state_machine.md R197, R199,
spec/42_ir_scan.md R147) -/

namespace Sys2Proof.Machine

/-- The bits of a number that is two fields, one above the other. -/
theorem map_testBit_fields {low n : Nat} (high m : Nat) (h : low < 2 ^ n) :
    (List.range (n + m)).map (2 ^ n * high + low).testBit =
      (List.range n).map low.testBit ++ (List.range m).map high.testBit := by
  rw [map_range_add]
  refine congrArg₂ List.append (List.map_congr_left fun i hi => ?_) (List.map_congr_left fun i _ => ?_)
  · rw [Nat.testBit_two_pow_mul_add _ h, if_pos (List.mem_range.1 hi)]
  · rw [Nat.testBit_two_pow_mul_add _ h, if_neg (by omega), Nat.add_sub_cancel_left]

theorem map_testBit_ones (n : Nat) : (List.range n).map (2 ^ n - 1).testBit = List.replicate n true := by
  refine List.eq_replicate_iff.2 ⟨by simp, fun b hb => ?_⟩
  obtain ⟨i, hi, rfl⟩ := List.mem_map.1 hb
  rw [Nat.testBit_two_pow_sub_one, decide_eq_true (List.mem_range.1 hi)]

theorem map_testBit_mod {w : Nat} (x : BitVec w) (n : Nat) :
    (List.range n).map (x.toNat % 2 ^ n).testBit = (List.range n).map x.getLsbD := by
  refine List.map_congr_left fun i hi => ?_
  rw [Nat.testBit_mod_two_pow, decide_eq_true (List.mem_range.1 hi), Bool.true_and, BitVec.getLsbD]

section
variable {ins : BitVec 32} {len bb ba : Nat} (hlen : 1 ≤ len) (hfits : irLength len bb ba ≤ 64)
include hlen hfits

/-- From bit 4 on TDI of an IR frame is ones, the instruction, ones (R78, R147). -/
theorem encodeIr_tdi_chain : (List.range (bb + (len + ba))).map (fun j => (encodeIr ins len bb ba).tdi.getLsbD (4 + j)) =
    List.replicate bb true ++ (List.range len).map ins.getLsbD ++ List.replicate ba true := by
  have hones (n : Nat) : 2 ^ n - 1 < 2 ^ n := Nat.sub_lt (Nat.two_pow_pos n) Nat.one_pos
  have hnum : (encodeIr ins len bb ba).tdi.toNat =
      2 ^ 4 * (2 ^ bb * (2 ^ len * (2 ^ ba * 2 + (2 ^ ba - 1)) + ins.toNat % 2 ^ len) + (2 ^ bb - 1)) := by
    rw [(encodeIr_atCursor ins len bb ba hlen hfits).num,
      show irLength len bb ba - 1 = 4 + bb + len + ba + 1 by simp only [irLength, Config.irFixedBits]; omega]
    ring
  have hbit (j : Nat) : (encodeIr ins len bb ba).tdi.getLsbD (4 + j) =
      (2 ^ bb * (2 ^ len * (2 ^ ba * 2 + (2 ^ ba - 1)) + ins.toNat % 2 ^ len) + (2 ^ bb - 1)).testBit j := by
    rw [BitVec.getLsbD, hnum, Nat.testBit_two_pow_mul, decide_eq_true (by omega), Bool.true_and, Nat.add_sub_cancel_left]
  have htop := map_testBit_fields 2 0 (hones ba)
  rw [Nat.add_zero] at htop
  simp only [hbit]
  rw [map_testBit_fields _ _ (hones bb), map_testBit_fields _ _ (Nat.mod_lt _ (Nat.two_pow_pos len)), htop,
    map_testBit_ones, map_testBit_mod, map_testBit_ones]
  simp

theorem getLsbD_encodeIr_tms (i : Nat) : (encodeIr ins len bb ba).tms.getLsbD i =
    decide (i < 2 ∨ i = irLength len bb ba - 3 ∨ i = irLength len bb ba - 2) := by
  rw [encodeIr_tms ins len bb ba hlen hfits, getLsbD_irTmsBits _ i hfits (irLength_ge bb ba hlen)]

/-- The TMS bits of an IR frame have the shape of one frame (R196). -/
theorem frameShape_encodeIr {k : Nat} (hk : k + 7 = irLength len bb ba) :
    FrameShape 4 k (irLength len bb ba) (encodeIr ins len bb ba).tms.getLsbD := by
  have htms := getLsbD_encodeIr_tms (ins := ins) hlen hfits
  constructor
  case low => exact fun i hi => (htms _).trans (decide_eq_false (by omega))
  case exit => exact (htms _).trans (decide_eq_true (by omega))
  case update => exact (htms _).trans (decide_eq_true (by omega))
  case idle => exact fun i hi _ => (htms _).trans (decide_eq_false (by omega))
  case fits => omega

/-- From Run-Test/Idle an IR scan through as many instruction bits as its frame carries replaces them by those of the frame. -/
theorem irScan_irReg {s : State} {captured : List Bool} {later : List (List Bool)} (hidle : TapIdle s)
    (hcaptures : s.env.irCaptures = captured :: later) (hlength : captured.length = bb + len + ba) :
    (irScan ins len bb ba s).env.target.irReg =
        (List.range (bb + (len + ba))).map (fun j => (encodeIr ins len bb ba).tdi.getLsbD (4 + j)) ∧
      (irScan ins len bb ba s).env.target.drReg = s.env.target.drReg := by
  have htotal : irLength len bb ba = 6 + bb + len + ba := rfl
  obtain ⟨k, hk⟩ : ∃ k, bb + (len + ba) = k + 1 := ⟨bb + (len + ba) - 1, by omega⟩
  have hshape := frameShape_encodeIr (ins := ins) hlen hfits (k := k) (by omega)
  have htms := getLsbD_encodeIr_tms (ins := ins) hlen hfits
  obtain ⟨htap, htck⟩ := hidle
  rw [irScan, encodeIr_length hlen hfits, hk]
  have hscan := shiftFlat_irReg s.profile.variant (irLength len bb ba) k (encodeIr ins len bb ba).tms.toNat
    (encodeIr ins len bb ba).tdi.toNat (freshScratch (encodeIr ins len bb ba).tms (encodeIr ins len bb ba).tdi s) htck htap
    captured later hcaptures ((htms 0).trans (decide_eq_true (by omega))) ((htms 1).trans (decide_eq_true (by omega)))
    ((htms 2).trans (decide_eq_false (by omega))) ((htms 3).trans (decide_eq_false (by omega))) hshape
  rwa [List.drop_left' (by omega)] at hscan

end

/-- Settles O47: the scan replaces the captured bits by the chain bits of its frame. -/
theorem loadInstructionReachesRegister : Obligations.LoadInstructionReachesRegister := by
  intro ins len bb ba s t captured later htap htck hcaptures hlength hexec
  obtain ⟨⟨-, ⟨hlen, -⟩, hfits⟩, rfl⟩ := execLoadInstruction_next.1 hexec
  obtain ⟨hir, hdr⟩ := irScan_irReg (ins := ins) hlen hfits ⟨htap, htck⟩ hcaptures hlength
  exact ⟨hir.trans (encodeIr_tdi_chain hlen hfits), hdr⟩

end Sys2Proof.Machine

/-! # Proofs: when an operation completes and why it is refused (spec/60_exceptions.md R213, R226) -/

namespace Sys2Proof.Machine

/-! ### Scans where no scan may run (R213, R28, R184) -/

theorem scanRefusal_of_not_configured {s : State} (hvalid : s.profile.cfgValid = false) :
    scanRefusal s = some .notConfigured := by
  simp [scanRefusal, hvalid]

theorem linesHeld_eq_false_iff {s : State} : linesHeld s = false ↔ s.linesOwned = false ∨ s.repurposed = true := by
  cases h : s.linesOwned <;> simp [linesHeld, h]

/-- A scan that is refused lacks the profile or the lines, or it is refused for its operands. -/
theorem scan_refused_cases {i : Instr} {s : State} {r : Refusal} (hi : isScan i = true) (h : exec i s = .refused r) :
    (r = .notConfigured ∧ s.profile.cfgValid = false) ∨
      (r = .linesNotOwned ∧ (s.linesOwned = false ∨ s.repurposed = true)) ∨ ScanReady s := by
  cases hscan : scanRefusal s with
  | none => exact .inr (.inr (scanRefusal_none.1 hscan))
  | some r' =>
    obtain rfl : r' = r := by simpa [scan_refused hscan i hi] using h
    exact (scanRefusal_some hscan).imp_right .inl

/-- Settles O43: the check of the state comes first and reports one of its two reasons. -/
theorem unreadyScansAreRefused : Obligations.UnreadyScansAreRefused := by
  intro i s hi
  refine ⟨fun hunready => ?_, fun hvalid _ _ => scan_refused (scanRefusal_of_not_configured hvalid) i hi,
    fun hvalid hlines => scan_refused_linesNotOwned hvalid (linesHeld_eq_false_iff.2 hlines) i hi⟩
  cases hscan : scanRefusal s with
  | none => exact absurd (scanRefusal_none.1 hscan) hunready
  | some r =>
    have hrefused := scan_refused hscan i hi
    obtain ⟨rfl, -⟩ | ⟨rfl, -⟩ := scanRefusal_some hscan
    · exact .inl hrefused
    · exact .inr hrefused

/-! ### The frame operations outside their operand domain (R145, R158) -/

/-- Settles O24: the register length is checked before the length of the frame. -/
theorem loadInstructionRefusals : Obligations.LoadInstructionRefusals := by
  intro ins len bb ba s hready
  refine ⟨fun hlen => unlessRefused_refused.2 ?_, fun h1 h32 hlong => unlessRefused_refused.2 ?_⟩
  · rw [firstRefusal_of_ready hready]
    exact firstRefusal_of_some (if_pos hlen)
  · have hlen : ¬ (len = 0 ∨ Config.irOperandBits < len) := not_or.2 ⟨Nat.one_le_iff_ne_zero.1 h1, Nat.not_lt.2 h32⟩
    rw [firstRefusal_of_ready hready, firstRefusal_of_none (check_none.2 hlen)]
    exact firstRefusal_of_some (if_pos hlong)

/-- A TRANSFER with a frame longer than the scratch is refused whatever its `out` (R158). -/
theorem transfer_frameTooLong (req : BitVec 3) (w : BitVec 32) {db da : Nat} (out : Option (List Byte)) {s : State}
    (hready : ScanReady s) (hlong : 64 < 41 + db + da + s.profile.idleCycles) :
    exec (.transfer req w db da out) s = .refused .frameTooLong := by
  refine unlessRefused_refused.2 ?_
  rw [firstRefusal_of_ready hready]
  exact firstRefusal_of_some (if_pos hlong)

/-- Settles O28: the length of the frame is checked before the buffer. -/
theorem transferRefusals : Obligations.TransferRefusals := by
  intro req w db da out s hready
  refine ⟨fun hlong => ⟨transfer_frameTooLong req w none hready hlong, transfer_frameTooLong req w (some out) hready hlong⟩,
    fun hfits hout => unlessRefused_refused.2 ?_⟩
  have hframe : ¬ Config.scratchBits < drLength db da s.profile.idleCycles := Nat.not_lt.2 hfits
  rw [firstRefusal_of_ready hready, firstRefusal_of_none (check_none.2 hframe)]
  exact firstRefusal_of_some (if_neg (by simpa [outBufferOk] using hout))

/-! ### Operands in their domain (R226, R234) -/

theorem buffersHold_iff {n : Nat} {tms tdi : List Byte} :
    buffersHold n tms tdi = true ↔ byteCount n ≤ tms.length ∧ byteCount n ≤ tdi.length := by
  simp [buffersHold, bufferHolds]

theorem buffersExact_iff {n : Nat} {tms tdi : List Byte} :
    buffersExact n tms tdi = true ↔ tms.length = byteCount n ∧ tdi.length = byteCount n := by
  simp [buffersExact, bufferExact]

theorem wf_rawShift {n : Nat} {tms tdi : List Byte} : (Instr.rawShift n tms tdi).wf = true ↔
    (1 ≤ n ∧ n ≤ 64) ∧ tms.length = byteCount n ∧ tdi.length = byteCount n := by
  simp only [Instr.wf, Bool.and_eq_true, decide_eq_true_eq, buffersExact_iff]
  rfl

theorem wf_shiftU {n : Nat} {tms tdi : List Byte} : (Instr.shiftU n tms tdi).wf = true ↔
    (1 ≤ n ∧ n ≤ 64) ∧ byteCount n ≤ tms.length ∧ byteCount n ≤ tdi.length := by
  simp only [Instr.wf, Bool.and_eq_true, decide_eq_true_eq, buffersHold_iff]
  rfl

theorem wf_shiftDrU {m k : Nat} {tms tdi : List Byte} : (Instr.shiftDrU m k tms tdi).wf = true ↔
    k < 8 ∧ splitLength m k ≤ 64 ∧ byteCount (splitLength m k) ≤ tms.length ∧ byteCount (splitLength m k) ≤ tdi.length := by
  simp only [Instr.wf, Bool.and_eq_true, decide_eq_true_eq, buffersHold_iff, and_assoc]
  rfl

theorem wf_loadInstruction {ins : BitVec 32} {len bb ba : Nat} : (Instr.loadInstruction ins len bb ba).wf = true ↔
    (1 ≤ len ∧ len ≤ 32) ∧ irLength len bb ba ≤ 64 := by
  simp only [Instr.wf, Bool.and_eq_true, decide_eq_true_eq]
  rfl

theorem outBufferOk_of_wf {req : BitVec 3} {w : BitVec 32} {db da : Nat} {out : Option (List Byte)}
    (h : (Instr.transfer req w db da out).wf = true) : outBufferOk out = true := by
  simp only [Instr.wf, Bool.and_eq_true] at h
  exact h.2

/-- Settles O39: each operation's domain is what its checks ask of the operands. -/
theorem wellFormedOperationsComplete : Obligations.WellFormedOperationsComplete := by
  intro i s hwf hready howned hfits
  cases i with
  | init => exact ⟨_, rfl⟩
  | fini => exact ⟨_, rfl⟩
  | reconfigureIo => exact ⟨_, execReconfigureIo_next.2 ⟨howned rfl, rfl⟩⟩
  | configure f r c => exact ⟨_, rfl⟩
  | getTimestamp => exact ⟨_, rfl⟩
  | rawShift n tms tdi => exact ⟨_, execRawShift_next.2 ⟨⟨hready rfl, wf_rawShift.1 hwf⟩, rfl⟩⟩
  | shiftU n tms tdi => exact ⟨_, execShiftU_next.2 ⟨⟨hready rfl, wf_shiftU.1 hwf⟩, rfl⟩⟩
  | shiftT n tms tdi => exact ⟨_, execShiftT_next.2 ⟨⟨hready rfl, wf_shiftU.1 hwf⟩, rfl⟩⟩
  | shiftDrU m k tms tdi => exact ⟨_, execShiftDrU_next.2 ⟨⟨hready rfl, wf_shiftDrU.1 hwf⟩, rfl⟩⟩
  | shiftDrT m k tms tdi => exact ⟨_, execShiftDrT_next.2 ⟨⟨hready rfl, wf_shiftDrU.1 hwf⟩, rfl⟩⟩
  | loadInstruction ins len bb ba =>
    exact ⟨_, execLoadInstruction_next.2 ⟨⟨hready rfl, wf_loadInstruction.1 hwf⟩, rfl⟩⟩
  | transfer req w db da out =>
    exact ⟨_, execTransfer_next.2 ⟨⟨hready rfl, hfits, outBufferOk_of_wf hwf⟩, rfl⟩⟩

/-! ### What each reason says (R213) -/

/-- A check that refuses does so by its own reason, and its condition holds. -/
theorem check_some {p : Prop} [Decidable p] {r r' : Refusal} :
    (if p then some r' else none) = some r ↔ r = r' ∧ p := by
  rw [Option.ite_none_right_eq_some, Option.some.injEq, and_comm, eq_comm]

/-- The same of a check written with the condition under which it passes. -/
theorem check_some_of_not {p : Prop} [Decidable p] {r r' : Refusal} :
    (if p then none else some r') = some r ↔ r = r' ∧ ¬ p := by
  rw [Option.ite_none_left_eq_some, Option.some.injEq, and_comm, eq_comm]

theorem bufferRefusal_eq_some {n : Nat} {tms tdi : List Byte} {r : Refusal} (h : bufferRefusal n tms tdi = some r) :
    r = .badBuffer ∧ (tms.length < byteCount n ∨ tdi.length < byteCount n) := by
  rw [bufferRefusal, check_some_of_not, buffersHold_iff, not_and_or, Nat.not_le, Nat.not_le] at h
  exact h

theorem exactBufferRefusal_eq_some {n : Nat} {tms tdi : List Byte} {r : Refusal}
    (h : exactBufferRefusal n tms tdi = some r) :
    r = .badBuffer ∧ (tms.length ≠ byteCount n ∨ tdi.length ≠ byteCount n) := by
  rw [exactBufferRefusal, check_some_of_not, buffersExact_iff, not_and_or] at h
  exact h

section
variable {s : State} {r : Refusal} (hready : ScanReady s)
include hready

/-- Where a scan may run, a scan of two operand checks is refused by one of them. -/
theorem operandCheck_of_refused {c c' : Option Refusal} (h : firstRefusal [scanRefusal s, c, c'] = some r) :
    c = some r ∨ c' = some r := by
  rw [firstRefusal_of_ready hready] at h
  exact (List.mem_pair.1 (firstRefusal_some h)).imp Eq.symm Eq.symm

theorem flatChecks_reason {n : Nat} {tms tdi : List Byte} (h : firstRefusal (flatChecks n tms tdi s) = some r) :
    (r = .badBitCount ∧ (n = 0 ∨ 64 < n)) ∨
      (r = .badBuffer ∧ (tms.length < byteCount n ∨ tdi.length < byteCount n)) :=
  (operandCheck_of_refused hready h).imp check_some.1 bufferRefusal_eq_some

theorem splitChecks_reason {m k : Nat} {tms tdi : List Byte} (h : firstRefusal (splitChecks m k tms tdi s) = some r) :
    (r = .badTailCount ∧ 8 ≤ k) ∨ (r = .badBitCount ∧ 64 < 8 + 8 * m + k) ∨
      (r = .badBuffer ∧ (tms.length < byteCount (8 + 8 * m + k) ∨ tdi.length < byteCount (8 + 8 * m + k))) := by
  by_cases hk : k < 8
  · rw [splitChecks_eq_flatChecks hready hk] at h
    obtain ⟨hr, hcount⟩ | hbuffer := flatChecks_reason hready h
    · exact .inr (.inl ⟨hr, hcount.resolve_left (Nat.one_le_iff_ne_zero.1 (one_le_splitLength m k))⟩)
    · exact .inr (.inr hbuffer)
  · have htail := Nat.not_lt.1 hk
    rw [splitChecks_badTailCount hready htail, Option.some.injEq] at h
    exact .inl ⟨h.symm, htail⟩

theorem rawShift_reason {n : Nat} {tms tdi : List Byte} (h : exec (.rawShift n tms tdi) s = .refused r) :
    (r = .badBitCount ∧ (n = 0 ∨ 64 < n)) ∨
      (r = .badBuffer ∧ (tms.length ≠ byteCount n ∨ tdi.length ≠ byteCount n)) :=
  (operandCheck_of_refused hready (unlessRefused_refused.1 h)).imp check_some.1 exactBufferRefusal_eq_some

theorem loadInstruction_reason {ins : BitVec 32} {len bb ba : Nat}
    (h : exec (.loadInstruction ins len bb ba) s = .refused r) :
    (r = .badRegisterLength ∧ (len = 0 ∨ 32 < len)) ∨ (r = .frameTooLong ∧ 64 < 6 + bb + len + ba) :=
  (operandCheck_of_refused hready (unlessRefused_refused.1 h)).imp check_some.1 check_some.1

theorem transfer_reason {req : BitVec 3} {w : BitVec 32} {db da : Nat} {out : Option (List Byte)}
    (h : exec (.transfer req w db da out) s = .refused r) :
    (r = .frameTooLong ∧ 64 < 41 + db + da + s.profile.idleCycles) ∨
      (r = .badOutBuffer ∧ ¬ outBufferOk out = true) :=
  (operandCheck_of_refused hready (unlessRefused_refused.1 h)).imp check_some.1 check_some_of_not.1

end

/-- An `out` outside its domain is there, and not of 4 bytes (D22). -/
theorem exists_of_not_outBufferOk {out : Option (List Byte)} (h : ¬ outBufferOk out = true) :
    ∃ bytes, out = some bytes ∧ bytes.length ≠ 4 := by
  cases out with
  | none => exact absurd rfl h
  | some bytes => exact ⟨bytes, rfl, fun hlen => h (decide_eq_true hlen)⟩

theorem reconfigureIo_reason {s : State} {r : Refusal} (h : exec .reconfigureIo s = .refused r) :
    r = .linesNotOwned ∧ s.linesOwned = false := by
  have hcheck := List.mem_singleton.1 (firstRefusal_some (unlessRefused_refused.1 h))
  exact (check_some_of_not.1 hcheck.symm).imp_right Bool.eq_false_iff.2

/-- Of the operations that are no scan only RECONFIGURE_IO is ever refused. -/
theorem notScan_reason {i : Instr} {s : State} {r : Refusal} (hi : isScan i = false) (h : exec i s = .refused r) :
    i = .reconfigureIo ∧ r = .linesNotOwned ∧ s.linesOwned = false := by
  cases i with
  | init => cases h
  | fini => cases h
  | configure f k c => cases h
  | getTimestamp => cases h
  | reconfigureIo => exact ⟨rfl, reconfigureIo_reason h⟩
  | rawShift n tms tdi => cases hi
  | shiftU n tms tdi => cases hi
  | shiftT n tms tdi => cases hi
  | shiftDrU m k tms tdi => cases hi
  | shiftDrT m k tms tdi => cases hi
  | loadInstruction ins len bb ba => cases hi
  | transfer req w db da out => cases hi

/-- Settles O40: a scan is refused for what the state lacks or by a check of its operands, and each check names its case.
Once the reason is known, `simp` drops the clauses of the other reasons. -/
theorem refusalsAreJustified : Obligations.RefusalsAreJustified := by
  intro i s r h
  by_cases hi : isScan i = true
  · obtain ⟨rfl, hvalid⟩ | ⟨rfl, hlines⟩ | hready := scan_refused_cases hi h
    · exact .inl ⟨rfl, hi, hvalid⟩
    · exact .inr (.inl ⟨rfl, .inl ⟨hi, hlines⟩⟩)
    · cases i with
      | init => cases hi
      | fini => cases hi
      | reconfigureIo => cases hi
      | configure f k c => cases hi
      | getTimestamp => cases hi
      | rawShift n tms tdi =>
        obtain ⟨rfl, hcount⟩ | ⟨rfl, hbuffers⟩ := rawShift_reason hready h
        · simpa using hcount
        · simpa using hbuffers
      | shiftU n tms tdi | shiftT n tms tdi =>
        obtain ⟨rfl, hcount⟩ | ⟨rfl, hbuffers⟩ := flatChecks_reason hready (unlessRefused_refused.1 h)
        · simpa using hcount
        · simpa using hbuffers
      | shiftDrU m k tms tdi | shiftDrT m k tms tdi =>
        obtain ⟨rfl, htail⟩ | ⟨rfl, hcount⟩ | ⟨rfl, hbuffers⟩ := splitChecks_reason hready (unlessRefused_refused.1 h)
        · simpa using htail
        · simpa using hcount
        · simpa using hbuffers
      | loadInstruction ins len bb ba =>
        obtain ⟨rfl, hlen⟩ | ⟨rfl, hlong⟩ := loadInstruction_reason hready h
        · simpa using hlen
        · simpa using hlong
      | transfer req w db da out =>
        obtain ⟨rfl, hlong⟩ | ⟨rfl, hout⟩ := transfer_reason hready h
        · simpa using hlong
        · obtain ⟨bytes, rfl, hlen⟩ := exists_of_not_outBufferOk hout
          simpa using hlen
  · obtain ⟨rfl, rfl, howned⟩ := notScan_reason (Bool.eq_false_iff.2 hi) h
    exact .inr (.inl ⟨rfl, .inr ⟨rfl, howned⟩⟩)

end Sys2Proof.Machine
